-- ==== Sys2Proof/Syntax.lean ====
section
/-! DEFINITION. The command set: one constructor per row of spec/opcode_table.json (spec/30_encoding.md R112).
OFF and CNT are unsigned, unscaled byte counts (R111), so they are natural numbers here; that they fit their
12-bit fields is a check of Sys2Proof/WellFormed.lean (R116). ENCRYPT and DECRYPT are other spellings of CIPHER (R117). -/

namespace Sys2Proof

/-- The eight commands of R112. -/
inductive Instr where
  /-- `CIPHER off, cnt` (R165). -/
  | cipher (off cnt : Nat)
  /-- `CRC off, cnt` (R175). -/
  | crc (off cnt : Nat)
  /-- `VDEC` (R204). -/
  | vdec
  /-- `VENC` (R216). -/
  | venc
  /-- `PARSE` (R272). -/
  | parse
  /-- `BUILD` (R282). -/
  | build
  /-- `DECODE` (R289). -/
  | decode
  /-- `ENCODE` (R291). -/
  | encode
deriving DecidableEq, Repr

end Sys2Proof
end

