-- ==== Sys2Proof/WellFormed.lean ====
section
/-! DEFINITION. Which terms of `Instr` are commands: an operand outside 0..4095 does not assemble
(spec/30_encoding.md R116), because OFF and CNT are 12-bit fields (R110). -/

namespace Sys2Proof

/-- OFF and CNT each fit 12 bits (R110, R116). -/
def operandFits (n : Nat) : Bool := n < 4096

/-- The instruction can be written as a command word. -/
def Instr.wellFormed : Instr → Bool
  | .cipher off cnt => operandFits off && operandFits cnt
  | .crc off cnt => operandFits off && operandFits cnt
  | .vdec => true
  | .venc => true
  | .parse => true
  | .build => true
  | .decode => true
  | .encode => true

end Sys2Proof
end

