-- ==== Sys2Proof/Word.lean ====
section
/-! DEFINITION. The machine's word types (spec/00_scope.md R15, R16, R17): bytes, 16-bit registers, the 32-bit
host-bus word, and the 64-bit encoding of a binary64 value. Bit 0 is the least significant bit. -/

namespace Sys2Proof

/-- A byte: one PBUF location, one typeDesc, one paramId. -/
abbrev Byte := BitVec 8

/-- A 16-bit value: cipher state, pip, CRC, LEN (R15). -/
abbrev Half := BitVec 16

/-- A 32-bit word: a command word or one host-bus transfer (R24). -/
abbrev Word := BitVec 32

/-- The IEEE-754 binary64 encoding of a float (R21, R50). -/
abbrev Float64Bits := BitVec 64

/-- A byte offset on the host bus: 17 bits (R24). -/
abbrev BusAddr := BitVec 17

end Sys2Proof
end

