-- ==== Sys2Proof/Decode.lean ====
section
/-! DEFINITION. Command-word decoding and encoding (spec/30_encoding.md R110 to R117). The decoder is total on
32-bit words: every word is one of the eight commands or is rejected by name, and both rejections are the
spec's ILLCMD (R113, R114). -/

namespace Sys2Proof

/-- Why a command word is illegal (R113, R114). -/
inductive DecodeError where
  /-- OP is not one of 0x01 to 0x08. -/
  | illegalOpcode (op : Nat)
  /-- OP is one of 0x03 to 0x08 and OFF or CNT is nonzero. -/
  | nonzeroOperands (op off cnt : Nat)
deriving DecidableEq, Repr

/-- OP = w[7:0] (R110). -/
def opField (w : Word) : Nat := (w.extractLsb' 0 8).toNat

/-- OFF = w[19:8], zero-extended (R110, R111). -/
def offField (w : Word) : Nat := (w.extractLsb' 8 12).toNat

/-- CNT = w[31:20], zero-extended (R110, R111). -/
def cntField (w : Word) : Nat := (w.extractLsb' 20 12).toNat

/-- The second check of R113, for a command without operand fields. -/
def noOperands (op off cnt : Nat) (i : Instr) : Except DecodeError Instr :=
  if off = 0 ∧ cnt = 0 then .ok i else .error (.nonzeroOperands op off cnt)

/-- R113's decoding over the three fields: the opcode is checked first. -/
def decodeFields (op off cnt : Nat) : Except DecodeError Instr :=
  match op with
  | 0x01 => .ok (.cipher off cnt)
  | 0x02 => .ok (.crc off cnt)
  | 0x03 => noOperands op off cnt .vdec
  | 0x04 => noOperands op off cnt .venc
  | 0x05 => noOperands op off cnt .parse
  | 0x06 => noOperands op off cnt .build
  | 0x07 => noOperands op off cnt .decode
  | 0x08 => noOperands op off cnt .encode
  | _ => .error (.illegalOpcode op)

/-- The decoder of a latched command word (R113). -/
def decode (w : Word) : Except DecodeError Instr :=
  decodeFields (opField w) (offField w) (cntField w)

/-- The opcode of each command (R112). -/
def opcode : Instr → Byte
  | .cipher _ _ => 0x01#8
  | .crc _ _ => 0x02#8
  | .vdec => 0x03#8
  | .venc => 0x04#8
  | .parse => 0x05#8
  | .build => 0x06#8
  | .decode => 0x07#8
  | .encode => 0x08#8

/-- The OFF and CNT operands; 0 for a command without them (R110). -/
def operands : Instr → Nat × Nat
  | .cipher off cnt => (off, cnt)
  | .crc off cnt => (off, cnt)
  | .vdec => (0, 0)
  | .venc => (0, 0)
  | .parse => (0, 0)
  | .build => (0, 0)
  | .decode => (0, 0)
  | .encode => (0, 0)

/-- The assembled word, (CNT << 20) | (OFF << 8) | OP (R116). -/
def encode (i : Instr) : Word :=
  BitVec.ofNat 12 (operands i).2 ++ BitVec.ofNat 12 (operands i).1 ++ opcode i

/-- What the decoder reads from an opcode-table word of `nbits` bits (bits above them are 0); none where it refuses.
A command is one 32-bit word (R115), written to `CMD` as a number, so no byte order enters. -/
def decodeTableWord (nbits w : Nat) : Option Instr :=
  match decode (BitVec.ofNat 32 (w % 2 ^ nbits)) with
  | .ok i => some i
  | .error _ => none

/-- The assembler's two pseudo-instructions (R117): both assemble as `CIPHER off, cnt`. -/
def assembleEncrypt (off cnt : Nat) : Word := encode (.cipher off cnt)
def assembleDecrypt (off cnt : Nat) : Word := encode (.cipher off cnt)

end Sys2Proof
end

