-- ==== Sys2Proof/Machine/Bytes.lean ====
section
/-! DEFINITION. Byte order and bit fields (spec/00_scope.md R16 to R18; spec/20_memory.md R84 to R86; the typeDesc
nibbles of spec/30_encoding.md R124). -/

namespace Sys2Proof.Machine

/-- be(s) of R18: the big-endian unsigned value, 0 for the empty sequence. -/
def beNat (s : List Byte) : Nat := s.foldl (fun n b => n * 256 + b.toNat) 0

/-- le(s) of R18: the little-endian unsigned value. -/
def leNat : List Byte → Nat
  | [] => 0
  | b :: rest => b.toNat + 256 * leNat rest

/-- The little-endian form of `n` in `len` bytes. -/
def toLE : (len n : Nat) → List Byte
  | 0, _ => []
  | len + 1, n => BitVec.ofNat 8 n :: toLE len (n / 256)

/-- The big-endian form of `n` in `len` bytes. -/
def toBE (len n : Nat) : List Byte := (toLE len n).reverse

/-- Byte i of a 32-bit word on the host bus: bits 8i+7 to 8i (R81, R86). -/
def wordByte (w : Word) (i : Nat) : Byte := w.extractLsb' (8 * i) 8

/-- The high byte of a 16-bit value: the first on the wire (R84). -/
def hiByte (h : Half) : Byte := h.extractLsb' 8 8

/-- The low byte of a 16-bit value. -/
def loByte (h : Half) : Byte := h.extractLsb' 0 8

/-- dlen = typeDesc & 0x0F (R123, R124). -/
def dlen (td : Byte) : Nat := (td &&& 0x0F#8).toNat

/-- The format code typeDesc[7:4] (R124). -/
def formatCode (td : Byte) : Nat := (td.extractLsb' 4 4).toNat

/-- ASCII digits 0x30..0x39 (R198). -/
def isDigit (b : Byte) : Bool := 0x30#8 ≤ b && b ≤ 0x39#8

/-- The decimal value of ASCII digits, most significant first (R198). -/
def decimalValue (s : List Byte) : Nat := s.foldl (fun n b => n * 10 + (b.toNat - 0x30)) 0

/-- The `len` low decimal digits of `n` as ASCII, least significant first. -/
def digitsLE : (len n : Nat) → List Byte
  | 0, _ => []
  | len + 1, n => BitVec.ofNat 8 (0x30 + n % 10) :: digitsLE len (n / 10)

/-- The `len` decimal digits of `n` as ASCII, most significant first, left-padded with 0x30 (R214). -/
def toDecimal (len n : Nat) : List Byte := (digitsLE len n).reverse

end Sys2Proof.Machine
end

