-- ==== Sys2Proof/Config.lean ====
section
/-! DEFINITION. What is fixed for one instance of the block, and the free values.
The protocol constants are those of spec/00_scope.md R13; the parameter BUF_BYTES has its range and reference value
here and is carried by each State (log entry 1). The opaque constants are the spec's 'any value' draws
(spec/93_implementation_defined.md U9, U11, U12, U13): they have no body, so nothing can be proved of their values
(log entry 3). -/

namespace Sys2Proof.Config

/-- `ID` reads this at all times (R3, R33). -/
def idValue : Word := 0x03140007#32

/-- Least BUF_BYTES (R11). -/
def minBufBytes : Nat := 10

/-- Greatest BUF_BYTES (R11). -/
def maxBufBytes : Nat := 4096

/-- The reference configuration of spec/95_test_vectors.md (R11). -/
def refBufBytes : Nat := 256

/-- MAX_RECORDS as a function of BUF_BYTES (R12). -/
def maxRecords (bufBytes : Nat) : Nat := (bufBytes - 9) / 2

/-- The keystream polynomial (R13, R152). DEDUCED, unsafe: both rules write it "0xF5B5" beside "62965", and 62965 is
0xF5F5; the model takes the hexadecimal number, on which the pseudocode of R152 and all derived vectors rest (log
entry 20). -/
def keystreamPoly : Half := 0xF5B5#16

/-- The keystream XOR mask (R13, R153). -/
def keystreamMask : Byte := 0x5A#8

/-- The CRC polynomial (R13, R171). -/
def crcPoly : Half := 0x1021#16

/-- The least length of a packet (R13, R121). -/
def minPacket : Nat := 10

/-- The record ids of R13 and R126. -/
def idJoin : Byte := 0xEA#8
def idTemperature : Byte := 0x74#8
def idVoltage : Byte := 0x76#8
def idIdentify : Byte := 0xBF#8

/-- Block offset of register 0 of the register window's end, and the bases of the two buffer windows (R80 to R82). -/
def regWindow : Nat := 0x100
def pbufBase : Nat := 0x1000
def recBase : Nat := 0x10000

/-- R341, U11: what the byte at a block offset holds after the hardware reset with this number, before anything
wrote it. Free. -/
opaque powerOnByte : (epoch : Nat) → (addr : Nat) → Byte

/-- R343, U12: what a byte of an aborted command's write set holds after the abort with this draw number. Free. -/
opaque abortedByte : (draw : Nat) → (addr : Nat) → Byte

/-- R351, U9: what a host read while BUSY = 1 returns where the spec says 'any value'. Free, drawn per read. -/
opaque busyReadWord : (draw : Nat) → Word

/-- R340, U13: what a host read while `rst` is asserted returns. Free, drawn per read. -/
opaque resetReadWord : (draw : Nat) → Word

end Sys2Proof.Config
end

