-- ==== Sys2Proof/Machine/State.lean ====
section
/-! DEFINITION. The machine's state: everything spec/10_state.md gives the block, plus the host-side inputs and
the draw counters the model needs (log entries 1 to 5). State is plain data. -/

namespace Sys2Proof.Machine

/-- The error codes of spec/60_exceptions.md R311. Codes 8 to 15 are never produced, so they are not values here. -/
inductive ErrCode where
  | ok | short | crcfail | illcmd | range | overflow | badrec | badfmt
deriving DecidableEq, Repr

/-- The numbers of R311. -/
def ErrCode.code : ErrCode → BitVec 4
  | .ok => 0#4
  | .short => 1#4
  | .crcfail => 2#4
  | .illcmd => 3#4
  | .range => 4#4
  | .overflow => 5#4
  | .badrec => 6#4
  | .badfmt => 7#4

/-- The events of the block's one total order (spec/20_memory.md R94; spec/60_exceptions.md R317), other than a
command's acceptance, which is the `CMD` write itself. -/
inductive Event where
  /-- The host writes a 32-bit word (R88). -/
  | write (addr : BusAddr) (data : Word)
  /-- The host reads a 32-bit word (R88). -/
  | read (addr : BusAddr)
  /-- The command engine has its turn: a running command completes now (R355). -/
  | engine
  /-- `rst` is asserted (R340). -/
  | rstAssert
  /-- `rst` is deasserted (R340). -/
  | rstRelease
deriving DecidableEq, Repr

/-- The buffers' storage: block byte offset and byte, offsets strictly rising. An offset that is not listed has not
been written since the last hardware reset: it is listed with no value, never with one it would read as anyway. -/
abbrev Memory := List Host.Cell

/-- What an unlisted offset holds in `Memory`: nothing. `State.byteAt` reads it as the free draw of R341. -/
def Memory.unlisted : Option Byte := none

/-- The architectural state of R30, field by field. -/
structure State where
  /-- The instance parameter BUF_BYTES (R11), constant over every step; CFG reads it (R34). -/
  bufBytes : Nat
  /-- CTRL.IE (R35). -/
  ie : Bool
  /-- STATUS.DONE (R36). -/
  done : Bool
  /-- STATUS.ERR (R36, R311). -/
  err : ErrCode
  /-- STATUS.SAT (R36). -/
  sat : Bool
  /-- STATUS.WBUSY (R36). -/
  wbusy : Bool
  /-- The command latch (R59). It holds a word exactly while STATUS.BUSY = 1, so BUSY is read from it. -/
  latch : Option Word
  /-- EID (R38). -/
  eid : Byte
  /-- PIP (R39). -/
  pip : Half
  /-- LEN (R40). -/
  len : Half
  /-- LFSR (R41). -/
  lfsr : Half
  /-- CRC (R42). -/
  crc : Half
  /-- CRCRX (R43). -/
  crcrx : Half
  /-- MANU (R44). -/
  manu : Byte
  /-- PROD (R45). -/
  prod : Byte
  /-- SENSOR (R46). -/
  sensor : BitVec 24
  /-- NREC (R47). -/
  nrec : Half
  /-- TFMT (R48). -/
  tfmt : Byte
  /-- VFMT (R49). -/
  vfmt : Byte
  /-- VDESC (R51). -/
  vdesc : Byte
  /-- FVAL = FVAL_HI || FVAL_LO (R50). -/
  fval : Float64Bits
  /-- VBUF0 to VBUF3 (R52): byte i in bits 8i+7 to 8i, so VBUFn is bits 32n+31 to 32n. -/
  vbuf : BitVec 128
  /-- The keystream register (R56); between applications it keeps the last one's final state (log entry 21). -/
  keystream : Half
  /-- The CRC remainder (R57); between checksums it keeps the last one (log entry 21). -/
  crcRem : Half
  /-- The framer cursor (R58). -/
  cursor : Nat
  /-- PBUF and RECTAB (R54, R55), at their block offsets (R81, R82). -/
  mem : Memory
  /-- MODEL: the number under which unwritten bytes were drawn at the last hardware reset (R341). -/
  epoch : Nat
  /-- MODEL: the next unused draw number. -/
  draws : Nat
  /-- The `rst` signal is asserted (R24, R340). -/
  rst : Bool
  /-- The host bus's read data: what the last host read returned (R24). -/
  rdata : Word
  /-- MODEL: the events still to come, in their order (R94, R317). -/
  events : List Event
deriving DecidableEq, Repr

/-- STATUS.BUSY (R36): a command is latched and has not completed. -/
def State.busy (s : State) : Bool := s.latch.isSome

/-- MAX_RECORDS of this instance (R12). -/
def State.maxRecords (s : State) : Nat := Config.maxRecords s.bufBytes

/-- The reasons a step could stop with a fault. There are none, so the type has no constructor: no command, host access,
buffer content or register value faults the block (spec/60_exceptions.md R310; spec/20_memory.md R88, R93), and
every error is a completion code (`ErrCode`). Safe: nothing is cut short. -/
inductive Fault where
deriving DecidableEq, Repr

/-- The reasons a step could be refused. -/
inductive Refusal where
  /-- Raised by an arm of `exec` whose command has no meaning yet; no arm raises it now. Safe: the run stops. -/
  | notModelled (mnemonic : String)
deriving DecidableEq, Repr

/-- The machine right after a hardware reset is released (R32, R63, R340), in the reference configuration, with no
event to come. PBUF and RECTAB are unlisted, so each byte is a free draw (R341). The working registers, the read
data and the counters start at the values of log entries 2 and 4. -/
def State.reset : State where
  bufBytes := Config.refBufBytes
  ie := false
  done := false
  err := .ok
  sat := false
  wbusy := false
  latch := none
  eid := 0xF2#8
  pip := 0#16
  len := 0#16
  lfsr := 0#16
  crc := 0#16
  crcrx := 0#16
  manu := 0#8
  prod := 0#8
  sensor := 0#24
  nrec := 0#16
  tfmt := 0x92#8
  vfmt := 0x22#8
  vdesc := 0#8
  fval := 0#64
  vbuf := 0#128
  keystream := 0#16
  crcRem := 0#16
  cursor := 0
  mem := []
  epoch := 0
  draws := 1
  rst := false
  rdata := 0#32
  events := []

end Sys2Proof.Machine
end

