-- ==== Sys2Proof/Machine/Flags.lean ====
section
/-! DEFINITION. The condition flags: the STATUS fields and the interrupt output (spec/10_state.md R35, R36, R37, R62;
spec/60_exceptions.md R314, R320). No command reads any of them (R62). -/

namespace Sys2Proof.Machine

/-- The STATUS word: BUSY bit 0, DONE bit 1, ERR bits 7 to 4, SAT bit 8, WBUSY bit 9; bits 3 to 2 and 31 to 10 read 0
(R36). -/
def State.statusWord (s : State) : Word :=
  0#22 ++ BitVec.ofBool s.wbusy ++ BitVec.ofBool s.sat ++ s.err.code ++ 0#2 ++ BitVec.ofBool s.done
    ++ BitVec.ofBool s.busy

/-- The CTRL word: IE in bit 0, SRST (bit 1) reads 0 (R35). -/
def State.ctrlWord (s : State) : Word := 0#31 ++ BitVec.ofBool s.ie

/-- irq = CTRL.IE & STATUS.DONE (R320). -/
def State.irq (s : State) : Bool := s.ie && s.done

/-- Acceptance of a command word (R37): latched, BUSY <- 1, DONE <- 0, ERR <- 0, together. SAT and WBUSY stay (R36). -/
def State.accept (w : Word) (s : State) : State :=
  { s with latch := some w, done := false, err := .ok }

/-- Completion with an error code (R314): ERR <- code, BUSY <- 0, DONE <- 1, together. -/
def State.complete (code : ErrCode) (s : State) : State :=
  { s with err := code, latch := none, done := true }

/-- SAT is sticky: an encode that saturated sets it, none clears it (R36, R213). -/
def State.markSat (sat : Bool) (s : State) : State := { s with sat := s.sat || sat }

/-- WBUSY <- 1 (R36, R350). -/
def State.markWbusy (s : State) : State := { s with wbusy := true }

/-- A host write of STATUS: DONE, SAT and WBUSY clear where a 1 is written, and nothing else changes (R36). -/
def State.clearStatus (d : Word) (s : State) : State :=
  { s with
    done := s.done && !d.getLsbD 1
    sat := s.sat && !d.getLsbD 8
    wbusy := s.wbusy && !d.getLsbD 9 }

end Sys2Proof.Machine
end

