-- ==== Sys2Proof/Machine/Ops.lean ====
section
/-! DEFINITION. The named operations over the buffers and registers: memory, PBUF (spec/20_memory.md R81, R89), RECTAB
entries (spec/43_record_codec.md R240), ending a command with or without an error (spec/00_scope.md R20;
spec/60_exceptions.md R314, R322), and reset (spec/70_reset_and_hazards.md R340 to R343). -/

namespace Sys2Proof.Machine

/-! ## Memory in its canonical form -/

/-- The canonical form: offsets strictly rising. An unlisted offset has no value, so no entry equals one. -/
abbrev Memory.wf (m : Memory) : Prop := m.Pairwise (fun x y => x.1 < y.1)

/-- The byte written at offset a, if any. -/
def Memory.read : Memory → Nat → Option Byte
  | [], _ => Memory.unlisted
  | c :: rest, a => if c.1 = a then some c.2 else Memory.read rest a

/-- Write one byte, keeping the offsets strictly rising. -/
def Memory.write : Memory → Nat → Byte → Memory
  | [], a, b => [(a, b)]
  | c :: rest, a, b =>
    if a < c.1 then (a, b) :: c :: rest
    else if a = c.1 then (a, b) :: rest
    else c :: Memory.write rest a b

/-- Write bytes at increasing offsets from a (R155). -/
def Memory.writeAll : Memory → Nat → List Byte → Memory
  | m, _, [] => m
  | m, a, b :: rest => Memory.writeAll (Memory.write m a b) (a + 1) rest

/-! ## Buffer bytes -/

/-- The byte held at a block offset of a buffer window: the one written last, else this reset's free draw (R341). -/
def State.byteAt (s : State) (a : Nat) : Byte :=
  (Memory.read s.mem a).getD (Config.powerOnByte s.epoch a)

/-- PBUF[i] (R54, R81). -/
def State.pbuf (s : State) (i : Nat) : Byte := s.byteAt (Config.pbufBase + i)

/-- MemRead(i, n) = PBUF[i..i+n) (R19). -/
def State.pbufRead (s : State) (i n : Nat) : List Byte := (List.range n).map (fun j => s.pbuf (i + j))

/-- MemWrite(i, |bs|, bs) (R19). -/
def State.pbufWrite (i : Nat) (bs : List Byte) (s : State) : State :=
  { s with mem := Memory.writeAll s.mem (Config.pbufBase + i) bs }

/-! ## RECTAB entries -/

/-- The block offset of RECTAB entry k (R55, R82). -/
def recAddr (k : Nat) : Nat := Config.recBase + 32 * k

/-- The bits of byte o of a RECTAB entry that are not reserved (R240): KIND is bits 2 to 0 of byte 0, byte 3 and
word 7 are reserved. -/
def recMask (o : Nat) : Byte :=
  if o = 0 then 0x07#8 else if o = 3 then 0x00#8 else if o < 28 then 0xFF#8 else 0x00#8

/-- Byte o of RECTAB entry k; reserved bits read 0 (R240, R341). -/
def State.recByte (s : State) (k o : Nat) : Byte := s.byteAt (recAddr k + o) &&& recMask o

/-- Bytes o to o+n-1 of RECTAB entry k. -/
def State.recBytes (s : State) (k o n : Nat) : List Byte := (List.range n).map (fun j => s.recByte k (o + j))

/-- A RECTAB entry's fields (R240). KIND holds any 3-bit value (93_implementation_defined.md U17). -/
structure Entry where
  kind : BitVec 3
  pid : Byte
  tdesc : Byte
  raw : List Byte
  fval : Float64Bits
deriving DecidableEq, Repr

/-- RECTAB[k] (R19, R240): words 1 to 4 are RAW, words 5 and 6 FVAL, little-endian in the entry (R86). -/
def State.recEntry (s : State) (k : Nat) : Entry where
  kind := (s.recByte k 0).extractLsb' 0 3
  pid := s.recByte k 1
  tdesc := s.recByte k 2
  raw := s.recBytes k 4 16
  fval := BitVec.ofNat 64 (leNat (s.recBytes k 20 8))

/-- RECTAB[k] <- e, the whole entry at once (R241). Reserved bytes are not stored. -/
def State.recWrite (k : Nat) (e : Entry) (s : State) : State :=
  { s with
    mem := Memory.writeAll
      (Memory.writeAll s.mem (recAddr k) [e.kind.setWidth 8, e.pid, e.tdesc])
      (recAddr k + 4) ((e.raw ++ List.replicate 16 0x00#8).take 16 ++ toLE 8 e.fval.toNat) }

/-! ## Register writes of the commands -/

/-- PIP <- v (R39, R286). -/
def State.setPip (v : Half) (s : State) : State := { s with pip := v }

/-- LEN <- v (R40, R280). -/
def State.setLen (v : Half) (s : State) : State := { s with len := v }

/-- NREC <- v (R47, R271). -/
def State.setNrec (v : Half) (s : State) : State := { s with nrec := v }

/-- FVAL <- v (R50, R204). -/
def State.setFval (v : Float64Bits) (s : State) : State := { s with fval := v }

/-- The framer cursor <- v (R58). -/
def State.setCursor (v : Nat) (s : State) : State := { s with cursor := v }

/-! ## Ending a command -/

/-- The end of a command (R314), as `exec`'s outcome. -/
def finish (code : ErrCode) (s : State) : Host.Outcome State Fault Refusal := .next (s.complete code)

/-- raise E (R20): the command ends at once with error E and its effects so far stand. This is the block's whole
exception entry: no state is saved, no mode or mask changes, and there is no program counter to move (R322). There
is no return from it either (R323): the host reads ERR and issues its next command. -/
def raise (code : ErrCode) (s : State) : Host.Outcome State Fault Refusal := finish code s

/-! ## Reset -/

/-- Every register at the reset value of R32 (R63), the latch empty; BUF_BYTES, the buffers and the host side stay. The
working registers, which no later command reads, start again at 0 (log entry 2). -/
def State.resetRegs (s : State) : State :=
  { State.reset with
    bufBytes := s.bufBytes, mem := s.mem, epoch := s.epoch, draws := s.draws, rst := s.rst, rdata := s.rdata,
    events := s.events }

/-- `rst` is asserted (R340): registers take their reset values, a running command is aborted, and every PBUF and RECTAB
byte is drawn anew (R341). -/
def State.hardReset (s : State) : State :=
  { s.resetRegs with mem := [], epoch := s.draws, draws := s.draws + 1, rst := true }

/-- An aborted command's write set in the buffers, as runs of block offsets (start, length) (R343). The run is empty
where a CIPHER or DECODE range passes BUF_BYTES. -/
def State.writeSet (s : State) : Instr → List (Nat × Nat)
  | .cipher off cnt => if off + cnt ≤ s.bufBytes then [(Config.pbufBase + off, cnt)] else []
  | .crc _ _ => []
  | .vdec => []
  | .venc => []
  | .parse => [(Config.recBase, 32 * s.maxRecords)]
  | .build => [(Config.pbufBase, s.bufBytes)]
  | .decode =>
    if s.len.toNat ≤ s.bufBytes then
      [(Config.pbufBase + 4, s.len.toNat - 4), (Config.recBase, 32 * s.maxRecords)]
    else []
  | .encode => [(Config.pbufBase, s.bufBytes)]

/-- The bits of a block offset that hold storage: all of a PBUF byte, the bits of a RECTAB byte that are not reserved,
and none elsewhere (R81, R82, R83, R240). -/
def State.storedBits (s : State) (a : Nat) : Byte :=
  if Config.pbufBase ≤ a ∧ a < Config.pbufBase + s.bufBytes then 0xFF#8
  else if Config.recBase ≤ a ∧ a < Config.recBase + 32 * s.maxRecords then recMask ((a - Config.recBase) % 32)
  else 0x00#8

/-- Write one byte at a block offset: only bits that hold storage are kept, and a byte with none is left alone. -/
def State.putByte (a : Nat) (b : Byte) (s : State) : State :=
  if s.storedBits a = 0x00#8 then s else { s with mem := Memory.write s.mem a (b &&& s.storedBits a) }

/-- Give each byte of a run its own free draw (R343, U12). -/
def State.redraw (draw : Nat) : (a n : Nat) → State → State
  | _, 0, s => s
  | a, n + 1, s => State.redraw draw (a + 1) n (s.putByte a (Config.abortedByte draw a))

/-- The running command, if the latch holds a legal command word. -/
def State.running (s : State) : Option Instr :=
  match s.latch with
  | none => none
  | some w =>
    match decode w with
    | .ok i => some i
    | .error _ => none

/-- The buffers after the running command, if any, is aborted: its write set is drawn anew (R343). -/
def State.abort (s : State) : State :=
  match s.running with
  | none => s
  | some i =>
    { (s.writeSet i).foldl (fun t r => State.redraw s.draws r.1 r.2 t) s with draws := s.draws + 1 }

/-- A write of CTRL with SRST = 1 (R342): the running command is aborted and every register resets; the buffers keep
their contents but for the aborted command's write set. -/
def State.softReset (s : State) : State := s.abort.resetRegs

end Sys2Proof.Machine
end

