-- ==== Sys2Proof/Machine/Operands.lean ====
section
/-! DEFINITION. The operand forms (spec/30_encoding.md R111): the OFF/CNT range of CIPHER and CRC, the cipher seed, the
value operands of VDEC and VENC, and the packet and Message operands of the framer commands. -/

namespace Sys2Proof.Machine

/-- The range OFF, CNT is legal: OFF + CNT ≤ BUF_BYTES, without wrap-around (R111). -/
def State.rangeFits (s : State) (off cnt : Nat) : Bool := off + cnt ≤ s.bufBytes

/-- The cipher seed, (zext_16(EID) << 8) ^ pip in 16 bits (R151). -/
def cipherSeed (eid : Byte) (pip : Half) : Half := (eid.setWidth 16 <<< 8) ^^^ pip

/-- Byte i of VBUF (R52). -/
def State.vbufByte (s : State) (i : Nat) : Byte := s.vbuf.extractLsb' (8 * i) 8

/-- VBUF[0..n) (R52, R204). -/
def State.vbufRead (s : State) (n : Nat) : List Byte := (List.range n).map s.vbufByte

/-- VBUF[0..|bs|) <- bs and VBUF[|bs|..16) <- 0x00 (R216). -/
def State.vbufWrite (bs : List Byte) (s : State) : State := { s with vbuf := BitVec.ofNat 128 (leNat bs) }

/-- The length checks of PARSE and DECODE, in their order (R262): the error to raise, if any. -/
def State.lengthError (s : State) : Option ErrCode :=
  if s.bufBytes < s.len.toNat then some .range
  else if s.len.toNat < Config.minPacket then some .short
  else none

/-- The Message's records, RECTAB[0..NREC) in index order (R55, R275). -/
def State.messageRecords (s : State) : List Entry := (List.range s.nrec.toNat).map s.recEntry

/-- The seven bytes before the records (R278): MANU, PROD, PIP big-endian, SENSOR big-endian. -/
def State.headerBytes (s : State) : List Byte :=
  [s.manu, s.prod, hiByte s.pip, loByte s.pip,
    s.sensor.extractLsb' 16 8, s.sensor.extractLsb' 8 8, s.sensor.extractLsb' 0 8]

end Sys2Proof.Machine
end

