-- ==== Sys2Proof/Machine/Cipher.lean ====
section
/-! DEFINITION. The stream cipher (spec/40_cipher.md). -/

namespace Sys2Proof.Machine

/-- One round of the keystream register (R152; its polynomial is that of log entry 20). -/
def ksRound (x : Half) : Half :=
  if x.getLsbD 0 then (x >>> 1) ^^^ Config.keystreamPoly else x >>> 1

/-- The five rounds run before each byte (R153). -/
def ksRounds5 (x : Half) : Half := ksRound (ksRound (ksRound (ksRound (ksRound x))))

/-- The cipher over a byte sequence (R153, R154): each byte is combined with the state after its own five rounds, and the
state carries on. Gives the result bytes and the final state. -/
def ksBytes : Half → List Byte → List Byte × Half
  | x, [] => ([], x)
  | x, b :: rest =>
    let x' := ksRounds5 x
    let (out, last) := ksBytes x' rest
    ((loByte x' ^^^ b ^^^ Config.keystreamMask) :: out, last)

/-- ks_apply(seed, a, n) (R155): PBUF[a..a+n) is overwritten in place, LFSR gets the final state (the seed when n = 0,
R156). That the keystream register, which R56 gives no value outside an application, keeps that state too is the model's
choice (DESIGN CHOICE, log entry 21). -/
def State.ksApply (seed : Half) (a n : Nat) (s : State) : State :=
  { s.pbufWrite a (ksBytes seed (s.pbufRead a n)).1 with
    lfsr := (ksBytes seed (s.pbufRead a n)).2
    keystream := (ksBytes seed (s.pbufRead a n)).2 }

/-- CIPHER (R165). -/
def execCipher (off cnt : Nat) (s : State) : Host.Outcome State Fault Refusal :=
  if s.rangeFits off cnt then finish .ok (s.ksApply (cipherSeed s.eid s.pip) off cnt)
  else raise .range s

end Sys2Proof.Machine
end

