-- ==== Sys2Proof/Machine/Crc.lean ====
section
/-! DEFINITION. The CRC-16 engine (spec/41_crc.md). The stated parameters govern, not the variant's name
(spec/90_conflicts.md C2): initial remainder 0. -/

namespace Sys2Proof.Machine

/-- One of the eight shift steps: the bit shifted out is r[15], tested before the shift (R172, R173). -/
def crcShift (r : Half) : Half :=
  if r.getLsbD 15 then (r <<< 1) ^^^ Config.crcPoly else r <<< 1

/-- One byte (R172): XOR into the high byte, then eight shift steps. -/
def crcByte (r : Half) (b : Byte) : Half :=
  let r0 := r ^^^ (b.setWidth 16 <<< 8)
  crcShift (crcShift (crcShift (crcShift (crcShift (crcShift (crcShift (crcShift r0)))))))

/-- crc16(s) (R171, R172): from remainder 0, byte by byte; 0 for the empty sequence. -/
def crc16 (bs : List Byte) : Half := bs.foldl crcByte 0#16

/-- A checksum's result lands in `CRC` (R42); that the remainder register, whose final value it is (R57), keeps it afterwards
is the model's choice (DESIGN CHOICE, log entry 21). -/
def State.noteCrc (c : Half) (s : State) : State := { s with crc := c, crcRem := c }

/-- CRC (R175). -/
def execCrc (off cnt : Nat) (s : State) : Host.Outcome State Fault Refusal :=
  if s.rangeFits off cnt then finish .ok (s.noteCrc (crc16 (s.pbufRead off cnt)))
  else raise .range s

end Sys2Proof.Machine
end

