-- ==== Sys2Proof/Machine/Numeric.lean ====
section
/-! DEFINITION. Exact numbers and IEEE-754 rounding (spec/00_scope.md R21; general-knowledge items G1 to G4 of
spec/93_implementation_defined.md). A nonnegative rational is held exactly as n / 2^d; every finite binary64
magnitude is a multiple of 2^(-1074), so `magnitude64` is a natural number. -/

namespace Sys2Proof.Machine

/-- rne_int(n / 2^k): nearest integer, ties to even (R21). -/
def rneShift (n k : Nat) : Nat :=
  let q := n / 2 ^ k
  let r := n % 2 ^ k
  if 2 * r < 2 ^ k then q
  else if 2 ^ k < 2 * r then q + 1
  else q + q % 2

/-- A binary floating-point format: significand bits, the exponent K of the quantum 2^(-K) of its subnormals, and
the encoding of +infinity. -/
structure FloatFormat where
  prec : Nat
  quantum : Nat
  inf : Nat
deriving DecidableEq, Repr

/-- binary64: 53 significant bits, quantum 2^(-1074) (G1, G2). -/
def binary64 : FloatFormat := ⟨53, 1074, 0x7FF0000000000000⟩

/-- binary32: 24 significant bits, quantum 2^(-149) (G3, G4). -/
def binary32 : FloatFormat := ⟨24, 149, 0x7F800000⟩

/-- The encoding, sign bit 0, of the value of format `f` nearest to n / 2^d: ties to the even significand, too large
goes to infinity, subnormals kept (R21, R215). `idx` counts quanta: the result's last place is
2^(idx - f.quantum). Adding the significand, hidden bit included, to idx · 2^(prec-1) gives the encoding in the
subnormal and the normal range alike, and carries a rounded-up significand into the exponent. -/
def roundTo (f : FloatFormat) (n d : Nat) : Nat :=
  if n = 0 then 0
  else
    let idx := (Nat.log2 n + f.quantum) - (d + f.prec - 1)
    min (idx * 2 ^ (f.prec - 1) + rneShift (n * 2 ^ f.quantum) (d + idx)) f.inf

/-- round_f64(n / 2^d) (R21). -/
def roundF64 (n d : Nat) : Float64Bits := BitVec.ofNat 64 (roundTo binary64 n d)

/-- The exponent field of a binary64 encoding (R50, G2). -/
def exponent64 (x : Float64Bits) : Nat := (x.extractLsb' 52 11).toNat

/-- The fraction field of a binary64 encoding (R50, G2). -/
def fraction64 (x : Float64Bits) : Nat := (x.extractLsb' 0 52).toNat

/-- signbit(x): bit 63 (R21). -/
def signbit (x : Float64Bits) : Bool := x.getLsbD 63

def isNaN64 (x : Float64Bits) : Bool := exponent64 x == 0x7FF && fraction64 x != 0
def isInf64 (x : Float64Bits) : Bool := exponent64 x == 0x7FF && fraction64 x == 0
def isFinite64 (x : Float64Bits) : Bool := exponent64 x != 0x7FF

/-- |f64(x)| · 2^1074 for a finite x (R21): exact. -/
def magnitude64 (x : Float64Bits) : Nat :=
  if exponent64 x = 0 then fraction64 x
  else (2 ^ 52 + fraction64 x) * 2 ^ (exponent64 x - 1)

/-- rne_int(|f64(x)| · 2^m) for a finite x (R211, R212, R214). -/
def scaledInt (x : Float64Bits) (m : Nat) : Nat := rneShift (magnitude64 x * 2 ^ m) 1074

/-- Negation flips bit 63 only (R195, R197). -/
def negate64 (x : Float64Bits) : Float64Bits := x ^^^ 0x8000000000000000#64

/-- +0.0. -/
def zero64 : Float64Bits := 0#64

def exponent32 (u : Word) : Nat := (u.extractLsb' 23 8).toNat
def fraction32 (u : Word) : Nat := (u.extractLsb' 0 23).toNat

/-- |u| · 2^149 for a finite binary32 encoding u (G3). -/
def magnitude32 (u : Word) : Nat :=
  if exponent32 u = 0 then fraction32 u
  else (2 ^ 23 + fraction32 u) * 2 ^ (exponent32 u - 1)

/-- A binary32 encoding widened to binary64 (R200): exact for every non-NaN; a NaN keeps its sign, becomes quiet
(bit 51) and has its payload f[21:0] at bits 50 to 29. -/
def widen32 (u : Word) : Float64Bits :=
  let sign := u.extractLsb' 31 1
  if exponent32 u = 0xFF then
    if fraction32 u = 0 then sign ++ 0x7FF#11 ++ 0#52
    else sign ++ 0x7FF#11 ++ 1#1 ++ u.extractLsb' 0 22 ++ 0#29
  else
    let r := BitVec.ofNat 64 (roundTo binary64 (magnitude32 u) 149)
    if u.getLsbD 31 then negate64 r else r

/-- A non-NaN binary64 encoding narrowed to the nearest binary32 (R215), and whether a finite value became
infinite. -/
def narrow32 (x : Float64Bits) : Word × Bool :=
  let sign : Word := if signbit x then 0x80000000#32 else 0#32
  if isInf64 x then (sign ||| 0x7F800000#32, false)
  else
    let e := roundTo binary32 (magnitude64 x) 1074
    (sign ||| BitVec.ofNat 32 e, e == binary32.inf)

end Sys2Proof.Machine
end

