-- ==== Sys2Proof/Machine/FixedPoint.lean ====
section
/-! DEFINITION. The fixed-point value decoder and encoder (spec/42_fixed_point.md; the format table of
spec/30_encoding.md R125). -/

namespace Sys2Proof.Machine

/-- What a format code selects (R125, R191, R192). -/
inductive Format where
  /-- Unsigned fixed point, integer or enumeration, with mant(c) mantissa bits (R193). -/
  | unsigned (mant : Nat)
  /-- Sign-and-magnitude fixed point (R195). -/
  | signed (mant : Nat)
  /-- Decimal text (R198). -/
  | decimal
  /-- Reserved (R199). -/
  | reserved
  /-- IEEE-754 float (R200 to R202). -/
  | float
deriving DecidableEq, Repr

/-- The sixteen format codes (R125). A code is 4 bits, so the last line is code 0xF. -/
def formatOf (code : Nat) : Format :=
  match code with
  | 0x0 => .unsigned 0
  | 0x1 => .unsigned 4
  | 0x2 => .unsigned 8
  | 0x3 => .unsigned 12
  | 0x4 => .unsigned 16
  | 0x5 => .unsigned 20
  | 0x6 => .unsigned 24
  | 0x7 => .decimal
  | 0x8 => .signed 0
  | 0x9 => .signed 8
  | 0xA => .signed 16
  | 0xB => .signed 24
  | 0xC => .unsigned 0
  | 0xD => .reserved
  | 0xE => .reserved
  | _ => .float

/-- The format of a typeDesc (R192): its high nibble alone. -/
def tdFormat (td : Byte) : Format := formatOf (formatCode td)

/-! ## Decoding -/

/-- Unsigned fixed point (R193): be(v) / 2^mant, rounded once. -/
def decUnsigned (mant : Nat) (v : List Byte) : Float64Bits := roundF64 (beNat v) mant

/-- The sign of a signed value: the top bit of its first byte (R195); an empty value is not negative (R196). -/
def signOf (v : List Byte) : Bool :=
  match v with
  | [] => false
  | b :: _ => b.getLsbD 7

/-- A signed value's bytes with the sign bit cleared (R195). -/
def clearSign (v : List Byte) : List Byte :=
  match v with
  | [] => []
  | b :: rest => (b &&& 0x7F#8) :: rest

/-- Signed fixed point (R195): sign and magnitude; a negative zero magnitude gives -0.0 (R197). -/
def decSigned (mant : Nat) (v : List Byte) : Float64Bits :=
  if signOf v then negate64 (decUnsigned mant (clearSign v)) else decUnsigned mant (clearSign v)

/-- Decimal text (R198): the digits' value, or +0.0 where any byte is no digit. -/
def decDecimal (v : List Byte) : Float64Bits :=
  if v.all isDigit then roundF64 (decimalValue v) 0 else zero64

/-- IEEE-754 float (R200 to R202): 4 bytes are a binary32, 8 a binary64, little-endian; other lengths give +0.0. -/
def decFloat (v : List Byte) : Float64Bits :=
  if v.length = 4 then widen32 (BitVec.ofNat 32 (leNat v))
  else if v.length = 8 then BitVec.ofNat 64 (leNat v)
  else zero64

/-- dec(td, v) (R190, R192). -/
def dec (td : Byte) (v : List Byte) : Float64Bits :=
  match tdFormat td with
  | .unsigned mant => decUnsigned mant v
  | .signed mant => decSigned mant v
  | .decimal => decDecimal v
  | .reserved => zero64
  | .float => decFloat v

/-! ## Encoding -/

/-- ENC_OK(td) (R210). -/
def encodable (td : Byte) : Bool :=
  match tdFormat td with
  | .unsigned _ => true
  | .signed _ => true
  | .decimal => true
  | .reserved => false
  | .float => dlen td == 4 || dlen td == 8

/-- The legality condition of TFMT and VFMT (R48, R49): encodable, with length at least 1. -/
def legalFormat (td : Byte) : Bool := encodable td && 1 ≤ dlen td

/-- The value, or the greatest the format holds where it is greater, and whether it saturated (R213). -/
def saturate (q most : Nat) : Nat × Bool := if most < q then (most, true) else (q, false)

/-- The common rule of R211 and R214: the natural number a format without sign encodes, at most `most`. NaN and negative
values give 0, +inf gives `most`, each saturating; -0.0 is not negative. -/
def encNatural (m most : Nat) (x : Float64Bits) : Nat × Bool :=
  if isNaN64 x then (0, true)
  else if signbit x && (isInf64 x || magnitude64 x != 0) then (0, true)
  else if isInf64 x then (most, true)
  else saturate (scaledInt x m) most

/-- Unsigned fixed point (R211). -/
def encUnsigned (m len : Nat) (x : Float64Bits) : List Byte × Bool :=
  let (n, sat) := encNatural m (2 ^ (8 * len) - 1) x
  (toBE len n, sat)

/-- The sign bit into bit 7 of the first byte (R212); nothing to hold it where there is no byte. -/
def putSign (neg : Bool) (v : List Byte) : List Byte :=
  match v with
  | [] => []
  | b :: rest => (if neg then b ||| 0x80#8 else b) :: rest

/-- maxM of R212: 2^(8L-1) - 1, or 0 for L = 0. -/
def maxMagnitude (len : Nat) : Nat := if len = 0 then 0 else 2 ^ (8 * len - 1) - 1

/-- Signed fixed point (R212): sign and magnitude; the sign bit is x's even where the magnitude is 0. -/
def encSigned (m len : Nat) (x : Float64Bits) : List Byte × Bool :=
  if isNaN64 x then (List.replicate len 0x00#8, true)
  else
    let (n, sat) :=
      if isInf64 x then (maxMagnitude len, true) else saturate (scaledInt x m) (maxMagnitude len)
    (putSign (signbit x) (toBE len n), sat)

/-- Decimal text (R214). -/
def encDecimal (len : Nat) (x : Float64Bits) : List Byte × Bool :=
  let (n, sat) := encNatural 0 (10 ^ len - 1) x
  (toDecimal len n, sat)

/-- IEEE-754 float (R215): 8 bytes are x bit for bit; 4 bytes are the nearest binary32, a NaN becoming 0x7FC00000. No
other length is encodable (R210); zero bytes stand there (log entry 6). -/
def encFloat (len : Nat) (x : Float64Bits) : List Byte × Bool :=
  if len = 8 then (toLE 8 x.toNat, false)
  else if len = 4 then
    if isNaN64 x then (toLE 4 0x7FC00000, false)
    else
      let (y, sat) := narrow32 x
      (toLE 4 y.toNat, sat)
  else (List.replicate len 0x00#8, false)

/-- enc(td, x) (R209) for an encodable td, with the saturation bit. A reserved format is not encodable (R210): zero
bytes stand there, which no command reaches (log entry 6). -/
def enc (td : Byte) (x : Float64Bits) : List Byte × Bool :=
  match tdFormat td with
  | .unsigned mant => encUnsigned mant (dlen td) x
  | .signed mant => encSigned mant (dlen td) x
  | .decimal => encDecimal (dlen td) x
  | .reserved => (List.replicate (dlen td) 0x00#8, false)
  | .float => encFloat (dlen td) x

/-! ## The commands -/

/-- VDEC (R204). -/
def execVdec (s : State) : Host.Outcome State Fault Refusal :=
  finish .ok (s.setFval (dec s.vdesc (s.vbufRead (dlen s.vdesc))))

/-- VENC (R216). -/
def execVenc (s : State) : Host.Outcome State Fault Refusal :=
  if encodable s.vdesc then
    finish .ok ((s.vbufWrite (enc s.vdesc s.fval).1).markSat (enc s.vdesc s.fval).2)
  else raise .badfmt s

end Sys2Proof.Machine
end

