-- ==== Sys2Proof/Machine/RecordCodec.lean ====
section
/-! DEFINITION. The record codec (spec/43_record_codec.md): one record's decoding and encoding. It has no command of its
own; the framer commands run it. -/

namespace Sys2Proof.Machine

/-- The five Record variants (R230). -/
inductive Kind where
  | join | identify | temperature | voltage | unhandled
deriving DecidableEq, Repr

/-- The KIND field's value for each variant (R230). -/
def Kind.bits : Kind → BitVec 3
  | .join => 0#3
  | .identify => 1#3
  | .temperature => 2#3
  | .voltage => 3#3
  | .unhandled => 4#3

/-- The variant of a KIND field; 5, 6 and 7 are reserved (R230). -/
def kindOf (k : BitVec 3) : Option Kind :=
  match k.toNat with
  | 0 => some .join
  | 1 => some .identify
  | 2 => some .temperature
  | 3 => some .voltage
  | 4 => some .unhandled
  | _ => none

/-- Dispatch on paramId alone (R126, R231). -/
def kindOfPid (p : Byte) : Kind :=
  if p = Config.idJoin then .join
  else if p = Config.idIdentify then .identify
  else if p = Config.idTemperature then .temperature
  else if p = Config.idVoltage then .voltage
  else .unhandled

/-- The entry decoding writes (R241): RAW padded with zeros to 16 bytes, FVAL as given. -/
def decodedEntry (k : Kind) (p t : Byte) (v : List Byte) (f : Float64Bits) : Entry where
  kind := k.bits
  pid := p
  tdesc := t
  raw := (v ++ List.replicate 16 0x00#8).take 16
  fval := f

/-- A record that carries a number: a zero-length value is SHORT (R234). -/
def decodeNumber (k : Kind) (p t : Byte) (v : List Byte) : Except ErrCode Entry :=
  if v = [] then .error .short else .ok (decodedEntry k p t v (dec t v))

/-- decodeRecord(p, t, v) (R231), with the entry of R241. -/
def decodeRecord (p t : Byte) (v : List Byte) : Except ErrCode Entry :=
  match kindOfPid p with
  | .join => .ok (decodedEntry .join p t v zero64)
  | .identify => .ok (decodedEntry .identify p t v zero64)
  | .temperature => decodeNumber .temperature p t v
  | .voltage => decodeNumber .voltage p t v
  | .unhandled => .ok (decodedEntry .unhandled p t v zero64)

/-- Entry validity for encoding (R244). -/
def Entry.valid (e : Entry) : Bool :=
  match kindOf e.kind with
  | some .unhandled => e.pid != 0x00#8
  | some .join => true
  | some .identify => true
  | some .temperature => true
  | some .voltage => true
  | none => false

/-- rlen (R243). An entry with a reserved KIND is invalid and has no length. -/
def Entry.encodedLen (tfmt vfmt : Byte) (e : Entry) : Nat :=
  match kindOf e.kind with
  | some .join => 2
  | some .identify => 2
  | some .temperature => 2 + dlen tfmt
  | some .voltage => 2 + dlen vfmt
  | some .unhandled => 2 + dlen e.tdesc
  | none => 0

/-- enc_record (R242, with R235 to R238): the bytes and the saturation bit. An entry with a reserved KIND is invalid and
has no bytes (R244). -/
def Entry.encoded (tfmt vfmt : Byte) (e : Entry) : List Byte × Bool :=
  match kindOf e.kind with
  | some .join => ([Config.idJoin, 0x00#8], false)
  | some .identify => ([Config.idIdentify, 0x00#8], false)
  | some .temperature => (Config.idTemperature :: tfmt :: (enc tfmt e.fval).1, (enc tfmt e.fval).2)
  | some .voltage => (Config.idVoltage :: vfmt :: (enc vfmt e.fval).1, (enc vfmt e.fval).2)
  | some .unhandled => (e.pid :: e.tdesc :: e.raw.take (dlen e.tdesc), false)
  | none => ([], false)

end Sys2Proof.Machine
end

