-- ==== Sys2Proof/Machine/Framer.lean ====
section
/-! DEFINITION. The packet framer and the top-level codec (spec/44_framer.md). PARSE and BUILD are the plaintext
commands; DECODE and ENCODE add the cipher. A procedure answers the state it leaves and the code the command
ends with. -/

namespace Sys2Proof.Machine

/-! ## Parse -/

/-- A failing step of PARSE or DECODE sets NREC <- 0 before it raises (R261, R271). -/
def State.failParse (code : ErrCode) (s : State) : State × ErrCode := (s.setNrec 0#16, code)

/-- The record scan over PBUF[0..L) from cursor `cur`, with `k` records so far (R266 to R269). `fuel` bounds the number of
records left; L - cur is enough, since each record advances the cursor, and with none left the cursor has passed
L - 4, where R267 raises SHORT. -/
def State.scan (L : Nat) : (fuel cur k : Nat) → State → State × ErrCode
  | 0, cur, _, s => (s.setCursor cur).failParse .short
  | fuel + 1, cur, k, s =>
    if s.pbuf cur = 0x00#8 then ((s.setCursor cur).setNrec (BitVec.ofNat 16 k), .ok)
    else if L < cur + 4 then (s.setCursor cur).failParse .short
    else if L < cur + 2 + dlen (s.pbuf (cur + 1)) + 2 then (s.setCursor cur).failParse .short
    else
      match decodeRecord (s.pbuf cur) (s.pbuf (cur + 1)) (s.pbufRead (cur + 2) (dlen (s.pbuf (cur + 1)))) with
      | .error code => (s.setCursor cur).failParse code
      | .ok e =>
        State.scan L fuel (cur + 2 + dlen (s.pbuf (cur + 1))) (k + 1) ((s.setCursor cur).recWrite k e)

/-- The computed and the received checksum of the packet PBUF[0..L) (R263). -/
def State.packetCrc (s : State) (L : Nat) : Half := crc16 (s.pbufRead 4 (L - 6))
def State.packetCrcRx (s : State) (L : Nat) : Half := BitVec.ofNat 16 (beNat (s.pbufRead (L - 2) 2))

/-- CRC and CRCRX are written whether or not the check passes (R263). -/
def State.noteChecksums (L : Nat) (s : State) : State :=
  { s.noteCrc (s.packetCrc L) with crcrx := s.packetCrcRx L }

/-- The header read (R264). -/
def State.readHeader (s : State) : State :=
  { s with manu := s.pbuf 0, prod := s.pbuf 1, sensor := BitVec.ofNat 24 (beNat (s.pbufRead 4 3)) }

/-- parse_core(L) (R261): the CRC check, the header read, the scan. -/
def State.parseCore (L : Nat) (s : State) : State × ErrCode :=
  if s.packetCrc L = s.packetCrcRx L then State.scan L L 7 0 (s.noteChecksums L).readHeader
  else (s.noteChecksums L).failParse .crcfail

/-- PARSE (R272). -/
def execParse (s : State) : Host.Outcome State Fault Refusal :=
  match s.lengthError with
  | some code => raise code (s.failParse code).1
  | none => finish (s.parseCore s.len.toNat).2 (s.parseCore s.len.toNat).1

/-! ## Build -/

/-- The validity checks of BUILD, in their order (R276), then the length check (R277): the error to raise, if any. -/
def State.buildError (s : State) : Option ErrCode :=
  if s.maxRecords < s.nrec.toNat then some .badrec
  else if s.messageRecords.any (fun e => !e.valid) then some .badrec
  else if s.bufBytes < 7 + (s.messageRecords.map (Entry.encodedLen s.tfmt s.vfmt)).sum + 3 then some .overflow
  else none

/-- The packet up to and including the terminator (R278): header, records in order, 0x00. -/
def State.packetBody (s : State) : List Byte :=
  s.headerBytes ++ (s.messageRecords.map (fun e => (e.encoded s.tfmt s.vfmt).1)).flatten ++ [0x00#8]

/-- The checksum over PBUF[4..n-2), sensorId through terminator (R278, R283). -/
def State.bodyCrc (s : State) : Half := crc16 (s.packetBody.drop 4)

/-- The whole plaintext packet: the body and its checksum, big-endian (R278). -/
def State.packetBytes (s : State) : List Byte := s.packetBody ++ [hiByte s.bodyCrc, loByte s.bodyCrc]

/-- Some record's value saturated (R213, R278). -/
def State.packetSat (s : State) : Bool := s.messageRecords.any (fun e => (e.encoded s.tfmt s.vfmt).2)

/-- The writes of BUILD and their results (R278, R280). -/
def State.buildCore (s : State) : State :=
  (((s.pbufWrite 0 s.packetBytes).noteCrc s.bodyCrc).markSat s.packetSat).setLen
    (BitVec.ofNat 16 s.packetBytes.length)

/-- BUILD (R282). -/
def execBuild (s : State) : Host.Outcome State Fault Refusal :=
  match s.buildError with
  | some code => raise code s
  | none => finish .ok s.buildCore

/-! ## Decode and encode -/

/-- The pip of the packet in PBUF, big-endian at offsets 2 and 3 (R286). -/
def State.packetPip (s : State) : Half := BitVec.ofNat 16 (beNat (s.pbufRead 2 2))

/-- DECODE's first phase after the length checks (R286): PIP from the packet, then decryption from offset 4. -/
def State.decrypt (L : Nat) (s : State) : State :=
  (s.setPip s.packetPip).ksApply (cipherSeed s.eid s.packetPip) 4 (L - 4)

/-- DECODE (R289): decryption stays in place whatever the outcome (R288). -/
def execDecode (s : State) : Host.Outcome State Fault Refusal :=
  match s.lengthError with
  | some code => raise code (s.failParse code).1
  | none =>
    finish ((s.decrypt s.len.toNat).parseCore s.len.toNat).2 ((s.decrypt s.len.toNat).parseCore s.len.toNat).1

/-- ENCODE's last phase (R290): the built packet of n = LEN bytes encrypted from offset 4. -/
def State.encrypt (s : State) : State := s.ksApply (cipherSeed s.eid s.pip) 4 (s.len.toNat - 4)

/-- ENCODE (R291). -/
def execEncode (s : State) : Host.Outcome State Fault Refusal :=
  match s.buildError with
  | some code => raise code s
  | none => finish .ok s.buildCore.encrypt

end Sys2Proof.Machine
end

