-- ==== Sys2Proof/Machine/Dispatch.lean ====
section
/-! DEFINITION. Which meaning each command has (spec/30_encoding.md R112). -/

namespace Sys2Proof.Machine

def exec (i : Instr) (s : State) : Host.Outcome State Fault Refusal :=
  match i with
  | .cipher off cnt => Sys2Proof.Machine.execCipher off cnt s
  | .crc off cnt => Sys2Proof.Machine.execCrc off cnt s
  | .vdec => Sys2Proof.Machine.execVdec s
  | .venc => Sys2Proof.Machine.execVenc s
  | .parse => Sys2Proof.Machine.execParse s
  | .build => Sys2Proof.Machine.execBuild s
  | .decode => Sys2Proof.Machine.execDecode s
  | .encode => Sys2Proof.Machine.execEncode s

end Sys2Proof.Machine
end

