-- ==== Sys2Proof/Machine/HostBus.lean ====
section
/-! DEFINITION. The host bus: the register window, the two buffer windows and the rest of the block's address space
(spec/10_state.md R31 to R53; spec/20_memory.md R80 to R91; the busy rules of spec/70_reset_and_hazards.md R350 and
R351). -/

namespace Sys2Proof.Machine

/-- The registers of the register window (R32). -/
inductive Reg where
  | id | cfg | ctrl | status | cmd | eid | pip | len | lfsr | crc | crcrx | manu | prod | sensor | nrec
  | tfmt | vfmt | vdesc | fvalLo | fvalHi | vbuf0 | vbuf1 | vbuf2 | vbuf3
deriving DecidableEq, Repr

/-- The register at a word offset of the register window; 0x60 to 0xFC are reserved (R32, R53). -/
def regAt (a : Nat) : Option Reg :=
  match a / 4 with
  | 0 => some .id
  | 1 => some .cfg
  | 2 => some .ctrl
  | 3 => some .status
  | 4 => some .cmd
  | 5 => some .eid
  | 6 => some .pip
  | 7 => some .len
  | 8 => some .lfsr
  | 9 => some .crc
  | 10 => some .crcrx
  | 11 => some .manu
  | 12 => some .prod
  | 13 => some .sensor
  | 14 => some .nrec
  | 15 => some .tfmt
  | 16 => some .vfmt
  | 17 => some .vdesc
  | 18 => some .fvalLo
  | 19 => some .fvalHi
  | 20 => some .vbuf0
  | 21 => some .vbuf1
  | 22 => some .vbuf2
  | 23 => some .vbuf3
  | _ => none

/-- CFG: MAX_RECORDS in bits 31 to 16, BUF_BYTES in bits 15 to 0 (R34). -/
def State.cfgWord (s : State) : Word := BitVec.ofNat 16 s.maxRecords ++ BitVec.ofNat 16 s.bufBytes

/-- What a register reads while the block is idle: its fields, reserved bits 0 (R31); CMD reads 0 (R37). -/
def State.readReg (s : State) : Reg → Word
  | .id => Config.idValue
  | .cfg => s.cfgWord
  | .ctrl => s.ctrlWord
  | .status => s.statusWord
  | .cmd => 0#32
  | .eid => s.eid.setWidth 32
  | .pip => s.pip.setWidth 32
  | .len => s.len.setWidth 32
  | .lfsr => s.lfsr.setWidth 32
  | .crc => s.crc.setWidth 32
  | .crcrx => s.crcrx.setWidth 32
  | .manu => s.manu.setWidth 32
  | .prod => s.prod.setWidth 32
  | .sensor => s.sensor.setWidth 32
  | .nrec => s.nrec.setWidth 32
  | .tfmt => s.tfmt.setWidth 32
  | .vfmt => s.vfmt.setWidth 32
  | .vdesc => s.vdesc.setWidth 32
  | .fvalLo => s.fval.extractLsb' 0 32
  | .fvalHi => s.fval.extractLsb' 32 32
  | .vbuf0 => s.vbuf.extractLsb' 0 32
  | .vbuf1 => s.vbuf.extractLsb' 32 32
  | .vbuf2 => s.vbuf.extractLsb' 64 32
  | .vbuf3 => s.vbuf.extractLsb' 96 32

/-- The bits of a register that are not reserved: where a busy read may return any value (R351). -/
def regBits : Reg → Word
  | .id => 0xFFFFFFFF#32
  | .cfg => 0xFFFFFFFF#32
  | .ctrl => 0x00000003#32
  | .status => 0x000003F3#32
  | .cmd => 0#32
  | .eid => 0x000000FF#32
  | .pip => 0x0000FFFF#32
  | .len => 0x0000FFFF#32
  | .lfsr => 0x0000FFFF#32
  | .crc => 0x0000FFFF#32
  | .crcrx => 0x0000FFFF#32
  | .manu => 0x000000FF#32
  | .prod => 0x000000FF#32
  | .sensor => 0x00FFFFFF#32
  | .nrec => 0x0000FFFF#32
  | .tfmt => 0x000000FF#32
  | .vfmt => 0x000000FF#32
  | .vdesc => 0x000000FF#32
  | .fvalLo => 0xFFFFFFFF#32
  | .fvalHi => 0xFFFFFFFF#32
  | .vbuf0 => 0xFFFFFFFF#32
  | .vbuf1 => 0xFFFFFFFF#32
  | .vbuf2 => 0xFFFFFFFF#32
  | .vbuf3 => 0xFFFFFFFF#32

/-- A write of CTRL (R35), accepted whether or not the core is busy: SRST = 1 performs the soft reset, which leaves IE at
0 whatever was written to it; otherwise IE is written. -/
def State.writeCtrl (d : Word) (s : State) : State :=
  if d.getLsbD 1 then s.softReset else { s with ie := d.getLsbD 0 }

/-- A WARL format write (R48, R49): a value that is not legal leaves the old one. -/
def warl (new old : Byte) : Byte := if legalFormat new then new else old

/-- Word n of VBUF replaced (R52). -/
def State.writeVbuf (n : Nat) (d : Word) (s : State) : State :=
  { s with
    vbuf := (s.vbuf &&& ~~~ (0xFFFFFFFF#128 <<< (32 * n))) ||| (d.setWidth 128 <<< (32 * n)) }

/-- A write of a register while the core is idle: reserved bits and read-only registers ignore it (R31). -/
def State.writeReg (d : Word) (s : State) : Reg → State
  | .id => s
  | .cfg => s
  | .ctrl => s.writeCtrl d
  | .status => s.clearStatus d
  | .cmd => s.accept d
  | .eid => { s with eid := d.extractLsb' 0 8 }
  | .pip => { s with pip := d.extractLsb' 0 16 }
  | .len => { s with len := d.extractLsb' 0 16 }
  | .lfsr => s
  | .crc => s
  | .crcrx => s
  | .manu => { s with manu := d.extractLsb' 0 8 }
  | .prod => { s with prod := d.extractLsb' 0 8 }
  | .sensor => { s with sensor := d.extractLsb' 0 24 }
  | .nrec => { s with nrec := d.extractLsb' 0 16 }
  | .tfmt => { s with tfmt := warl (d.extractLsb' 0 8) s.tfmt }
  | .vfmt => { s with vfmt := warl (d.extractLsb' 0 8) s.vfmt }
  | .vdesc => { s with vdesc := d.extractLsb' 0 8 }
  | .fvalLo => { s with fval := s.fval.extractLsb' 32 32 ++ d }
  | .fvalHi => { s with fval := d ++ s.fval.extractLsb' 0 32 }
  | .vbuf0 => s.writeVbuf 0 d
  | .vbuf1 => s.writeVbuf 1 d
  | .vbuf2 => s.writeVbuf 2 d
  | .vbuf3 => s.writeVbuf 3 d

/-! ## The address map -/

/-- What a word offset of the block is (R80 to R83). -/
inductive Location where
  | reg (r : Reg)
  /-- A word of the PBUF or RECTAB window. -/
  | buffer
  /-- A reserved register offset, or unimplemented space. -/
  | unimplemented
deriving DecidableEq, Repr

/-- The word an access acts on: address bits 1 to 0 are ignored (R88). -/
def wordOffset (addr : BusAddr) : Nat := addr.toNat / 4 * 4

/-- The block's address map (R80 to R83). -/
def locate (a : Nat) : Location :=
  if a < Config.regWindow then
    match regAt a with
    | some r => .reg r
    | none => .unimplemented
  else if Config.pbufBase ≤ a ∧ a < 0x2000 then .buffer
  else if Config.recBase ≤ a then .buffer
  else .unimplemented

/-- The word at `a` of a buffer window is at least partly implemented (R81, R82). -/
def State.implemented (s : State) (a : Nat) : Bool :=
  (Config.pbufBase ≤ a && a < Config.pbufBase + s.bufBytes)
    || (Config.recBase ≤ a && a < Config.recBase + 32 * s.maxRecords)

/-- A byte of a buffer window as the host reads it: bits without storage read 0 (R81, R82, R240). -/
def State.hostByte (s : State) (a : Nat) : Byte := s.byteAt a &&& s.storedBits a

/-- The word at `a` of a buffer window, the lower offset in the less significant bits (R81, R86). -/
def State.bufferWord (s : State) (a : Nat) : Word :=
  s.hostByte (a + 3) ++ s.hostByte (a + 2) ++ s.hostByte (a + 1) ++ s.hostByte a

/-- The bits of the word at `a` of a buffer window that hold storage. -/
def State.bufferBits (s : State) (a : Nat) : Word :=
  s.storedBits (a + 3) ++ s.storedBits (a + 2) ++ s.storedBits (a + 1) ++ s.storedBits a

/-- A host write to the word at `a` of a buffer window while the core is idle: four bytes change together, those that
hold storage (R81, R82, R90). -/
def State.writeBuffer (a : Nat) (d : Word) (s : State) : State :=
  (((s.putByte a (wordByte d 0)).putByte (a + 1) (wordByte d 1)).putByte (a + 2) (wordByte d 2)).putByte (a + 3)
    (wordByte d 3)

/-- The word a host read returns while the core is idle (R31, R53, R81 to R83). -/
def State.readWord (s : State) (a : Nat) : Word :=
  match locate a with
  | .reg r => s.readReg r
  | .buffer => s.bufferWord a
  | .unimplemented => 0#32

/-- The bits of the word at `a` that a busy read draws (R351). -/
def State.readBits (s : State) (a : Nat) : Word :=
  match locate a with
  | .reg r => regBits r
  | .buffer => s.bufferBits a
  | .unimplemented => 0#32

/-- The reads that stay exact while BUSY = 1 (R351). -/
def exactWhileBusy : Location → Bool
  | .reg r => r == .id || r == .cfg || r == .ctrl || r == .status || r == .cmd
  | .buffer => false
  | .unimplemented => true

/-! ## The two host actions -/

/-- A host read (R88, R91): it changes nothing but the read data, and a draw advances the draw counter. While `rst` is
asserted it returns any value (R340); while busy, any value where R351 says so. -/
def State.hostRead (addr : BusAddr) (s : State) : State :=
  if s.rst then { s with rdata := Config.resetReadWord s.draws, draws := s.draws + 1 }
  else if !s.busy || exactWhileBusy (locate (wordOffset addr)) then { s with rdata := s.readWord (wordOffset addr) }
  else
    { s with
      rdata := Config.busyReadWord s.draws &&& s.readBits (wordOffset addr)
      draws := s.draws + 1 }

/-- A host write while BUSY = 1 (R350): CTRL and STATUS take effect; any other register, read-only ones too, and any
implemented buffer word ignore it and set WBUSY; the rest ignores it. -/
def State.writeWhileBusy (a : Nat) (d : Word) (s : State) : State :=
  match locate a with
  | .reg .ctrl => s.writeCtrl d
  | .reg .status => s.clearStatus d
  | .reg _ => s.markWbusy
  | .buffer => if s.implemented a then s.markWbusy else s
  | .unimplemented => s

/-- A host write while the core is idle (R31, R37, R81 to R83). -/
def State.writeWhileIdle (a : Nat) (d : Word) (s : State) : State :=
  match locate a with
  | .reg r => s.writeReg d r
  | .buffer => s.writeBuffer a d
  | .unimplemented => s

/-- A host write (R88); ignored while `rst` is asserted (R340). -/
def State.hostWrite (addr : BusAddr) (d : Word) (s : State) : State :=
  if s.rst then s
  else if s.busy then s.writeWhileBusy (wordOffset addr) d
  else s.writeWhileIdle (wordOffset addr) d

/-- A command word placed where the engine takes its next one: accepted (R37), `rst` released, and the engine's turn
next. -/
def State.placeCommand (w : Word) (s : State) : State :=
  { s.accept w with rst := false, events := .engine :: s.events }

end Sys2Proof.Machine
end

