-- ==== Sys2Proof/Machine/Engine.lean ====
section
/-! DEFINITION. The two agents of spec/00_scope.md R23 and the events of the total order (spec/20_memory.md R94;
spec/60_exceptions.md R317). -/

namespace Sys2Proof.Machine

/-- Executing an accepted command word (R113): an illegal word raises ILLCMD and changes nothing but STATUS. -/
def runCommand (w : Word) (s : State) : Host.Outcome State Fault Refusal :=
  match decode w with
  | .ok i => exec i s
  | .error _ => raise .illcmd s

/-- The engine's turn: a running command completes (R355); an idle engine, or one held in reset, waits (R340, R344). -/
def engineTurn (s : State) : Host.Outcome State Fault Refusal :=
  if s.rst then .next s
  else
    match s.latch with
    | none => .next s
    | some w => runCommand w s

/-- One event of the total order takes effect. -/
def applyEvent (e : Event) (s : State) : Host.Outcome State Fault Refusal :=
  match e with
  | .write addr d => .next (s.hostWrite addr d)
  | .read addr => .next (s.hostRead addr)
  | .engine => engineTurn s
  | .rstAssert => .next s.hardReset
  | .rstRelease => .next { s with rst := false }

/-- The next event, taken off the front. With none to come the engine has its turn, so a running command always
completes: the weak fairness of R355. -/
def stepEvents (s : State) : Host.Outcome State Fault Refusal :=
  match s.events with
  | [] => engineTurn s
  | e :: rest => applyEvent e { s with events := rest }

end Sys2Proof.Machine
end

