-- ==== Sys2Proof/Machine/Step.lean ====
section
/-! DEFINITION. The machine's step: one event of the block's total order, and the placing of a command word for the
host's checks (log entry 5). -/

namespace Sys2Proof.Machine

/-- One step: the next event takes effect, or the engine has its turn. -/
def step (s : State) : Host.Outcome State Fault Refusal := stepEvents s

/-- `s` with a table word of `nbits` bits accepted through `CMD` (R37) and the engine's turn next, so that `step` runs
exactly it. -/
def State.withFetchWord (s : State) (nbits w : Nat) : State := s.placeCommand (BitVec.ofNat 32 (w % 2 ^ nbits))

end Sys2Proof.Machine
end

