-- ==== Sys2Proof/Safety.lean ====
section
/-! DEFINITION. The terms claims use: the invariant of the block's states, the reset value of every register, the error
codes each command may end with, the format codes and the encoder's rule for numbers without sign, and what it means that
PBUF holds a list of wire records. -/

namespace Sys2Proof.Machine

/-- The invariant every step keeps: BUF_BYTES in its range (R11); the buffers' storage in canonical form, holding only
implemented bytes and no reserved bit (R54, R81, R82, R240); TFMT and VFMT legal (R48, R49); the framer cursor within
PBUF (R58); every draw used is below the draw counter; while BUSY = 1, DONE = 0 and ERR = 0 (R36, R37); and while
`rst` is asserted every register at its reset value (R340). -/
structure State.Inv (s : State) : Prop where
  bufRange : Config.minBufBytes ≤ s.bufBytes ∧ s.bufBytes ≤ Config.maxBufBytes
  memWf : s.mem.wf
  memStored : ∀ c ∈ s.mem, s.storedBits c.1 ≠ 0x00#8 ∧ c.2 &&& s.storedBits c.1 = c.2
  tfmtLegal : legalFormat s.tfmt = true
  vfmtLegal : legalFormat s.vfmt = true
  cursorIn : s.cursor ≤ s.bufBytes
  epochDrawn : s.epoch < s.draws
  busyFlags : s.busy = true → s.done = false ∧ s.err = .ok
  rstHeld : s.rst = true → s.resetRegs = s

/-- The reset column of R32. -/
def resetWord (bufBytes : Nat) : Reg → Word
  | .id => 0x03140007#32
  | .cfg => BitVec.ofNat 16 ((bufBytes - 9) / 2) ++ BitVec.ofNat 16 bufBytes
  | .ctrl => 0#32
  | .status => 0#32
  | .cmd => 0#32
  | .eid => 0x000000F2#32
  | .pip => 0#32
  | .len => 0#32
  | .lfsr => 0#32
  | .crc => 0#32
  | .crcrx => 0#32
  | .manu => 0#32
  | .prod => 0#32
  | .sensor => 0#32
  | .nrec => 0#32
  | .tfmt => 0x00000092#32
  | .vfmt => 0x00000022#32
  | .vdesc => 0#32
  | .fvalLo => 0#32
  | .fvalHi => 0#32
  | .vbuf0 => 0#32
  | .vbuf1 => 0#32
  | .vbuf2 => 0#32
  | .vbuf3 => 0#32

/-- The codes a command may end with once its word is legal (R316, R318). -/
def mayEndWith : Instr → ErrCode → Bool
  | .cipher _ _, e => e == .ok || e == .range
  | .crc _ _, e => e == .ok || e == .range
  | .vdec, e => e == .ok
  | .venc, e => e == .ok || e == .badfmt
  | .parse, e => e == .ok || e == .range || e == .short || e == .crcfail
  | .build, e => e == .ok || e == .badrec || e == .overflow
  | .decode, e => e == .ok || e == .range || e == .short || e == .crcfail
  | .encode, e => e == .ok || e == .badrec || e == .overflow

/-- The host has kept the wait rule so far (R352): no write was ignored since WBUSY was last clear. -/
def State.waitRuleKept (s : State) : Bool := !s.wbusy

/-- The codes of UNSIGNED with their mantissa bits, as the table of R125 and the lists of R191 give them. -/
def unsignedCodes : List (Nat × Nat) :=
  [(0x0, 0), (0x1, 4), (0x2, 8), (0x3, 12), (0x4, 16), (0x5, 20), (0x6, 24), (0xC, 0)]

/-- The codes of SIGNED with their mantissa bits (R125, R191). -/
def signedCodes : List (Nat × Nat) := [(0x8, 0), (0x9, 8), (0xA, 16), (0xB, 24)]

/-- The format code of a typeDesc, its high nibble (R124), stands in a list of codes with m mantissa bits. -/
abbrev hasCode (codes : List (Nat × Nat)) (td : Byte) (m : Nat) : Prop := (td.toNat / 16, m) ∈ codes

/-- The rule R211 and R214 share, case by case: n is the number encoded for x with m mantissa bits where `most` is the
greatest, and `sat` says whether it saturated. A NaN and a negative value, -inf included, give 0 and +inf gives `most`,
each saturating; any other value, -0.0 included, gives rne_int(|x| · 2^m), or `most` and a saturation where that is
greater. -/
def encodesNatural (m most : Nat) (x : Float64Bits) (n : Nat) (sat : Bool) : Prop :=
  (isNaN64 x = true → n = 0 ∧ sat = true)
    ∧ (signbit x = true → isInf64 x = true ∨ (isFinite64 x = true ∧ magnitude64 x ≠ 0) → n = 0 ∧ sat = true)
    ∧ (signbit x = false → isInf64 x = true → n = most ∧ sat = true)
    ∧ (isFinite64 x = true → signbit x = false ∨ magnitude64 x = 0 →
        (most < scaledInt x m → n = most ∧ sat = true) ∧ (scaledInt x m ≤ most → n = scaledInt x m ∧ sat = false))

/-- A record field on the wire (R123). -/
structure WireRecord where
  pid : Byte
  tdesc : Byte
  val : List Byte
deriving DecidableEq, Repr

/-- The bytes of a record field (R123). -/
def WireRecord.bytes (r : WireRecord) : List Byte := r.pid :: r.tdesc :: r.val

/-- A record the scan accepts: its paramId is not the terminator, its value has the length its typeDesc says, and a
Temperature or Voltage has a value (R123, R234, R266). -/
def WireRecord.accepted (r : WireRecord) : Bool :=
  r.pid != 0x00#8 && r.val.length == dlen r.tdesc
    && !((r.pid == Config.idTemperature || r.pid == Config.idVoltage) && r.val.isEmpty)

/-- The RECTAB entry a wire record decodes to (R231, R241). -/
def WireRecord.entry (r : WireRecord) : Entry where
  kind := (kindOfPid r.pid).bits
  pid := r.pid
  tdesc := r.tdesc
  raw := (r.val ++ List.replicate 16 0x00#8).take 16
  fval :=
    if r.pid = Config.idTemperature ∨ r.pid = Config.idVoltage then dec r.tdesc r.val else 0#64

/-- The bytes of a list of wire records, in order. -/
def wireBytes (rs : List WireRecord) : List Byte := (rs.map WireRecord.bytes).flatten

/-- PBUF[0..L) holds exactly these records from offset 7 on, up to a zero paramId that lies at or before offset L - 2
(R266 to R270). -/
def State.holdsRecords (s : State) (L : Nat) (rs : List WireRecord) : Prop :=
  s.pbufRead 7 ((wireBytes rs).length + 1) = wireBytes rs ++ [0x00#8] ∧ 7 + (wireBytes rs).length + 2 ≤ L
    ∧ ∀ r ∈ rs, r.accepted = true

/-- An entry BUILD and ENCODE refuse (R244): KIND 5, 6 or 7, or an Unhandled with PID 0x00. -/
def Entry.refused (e : Entry) : Prop :=
  e.kind = 5#3 ∨ e.kind = 6#3 ∨ e.kind = 7#3 ∨ (e.kind = 4#3 ∧ e.pid = 0x00#8)

/-- The Message registers hold a valid Message (R276): at most MAX_RECORDS records, none refused. -/
def State.messageValid (s : State) : Prop :=
  s.nrec.toNat ≤ (s.bufBytes - 9) / 2 ∧ ∀ k < s.nrec.toNat, ¬ (s.recEntry k).refused

/-- The length of the packet to build, n of R277. -/
def State.packetLength (s : State) : Nat :=
  7 + ((List.range s.nrec.toNat).map (fun k => (s.recEntry k).encodedLen s.tfmt s.vfmt)).sum + 3

/-- A record that comes back as sent: not an Unhandled whose PID is a known id (R239, R292). -/
def Entry.keepsKind (e : Entry) : Prop :=
  e.kind = 4#3 → e.pid ≠ Config.idJoin ∧ e.pid ≠ Config.idIdentify ∧ e.pid ≠ Config.idTemperature
    ∧ e.pid ≠ Config.idVoltage

/-- What a record comes back as after BUILD and PARSE, or ENCODE and DECODE (R292): the KIND of every record; PID, TDESC
and the value bytes of an Unhandled; the value of a Temperature or Voltage, as its format holds it. -/
def Entry.comesBackAs (tfmt vfmt : Byte) (e f : Entry) : Prop :=
  f.kind = e.kind
    ∧ (e.kind = 4#3 → f.pid = e.pid ∧ f.tdesc = e.tdesc ∧ f.raw.take (dlen e.tdesc) = e.raw.take (dlen e.tdesc))
    ∧ (e.kind = 2#3 → f.fval = dec tfmt (enc tfmt e.fval).1)
    ∧ (e.kind = 3#3 → f.fval = dec vfmt (enc vfmt e.fval).1)

/-- The packet in PBUF passes the length checks of R262. -/
def State.lengthOk (s : State) : Prop := Config.minPacket ≤ s.len.toNat ∧ s.len.toNat ≤ s.bufBytes

end Sys2Proof.Machine
end

