-- ==== Sys2Proof/Certificates/Slice0/Obligations.lean ====
section
/-! DEFINITION. The statements about the codec core. Each one's docstring names the rules of spec/ it formalises. A result
statement gives the whole next state, so it is its own frame: what the record update does not name is unchanged, and
where the buffers change, every byte outside the bytes written is said to be as it was. -/

open Sys2Proof Sys2Proof.Machine

/-! ## Command words -/

/-- Words written out from the field layout of R110 and the opcode map of R112 (95_test_vectors.md section 2.1). -/
def Obligations.SpecWordsDecode : Prop :=
  decode 0x00800401#32 = .ok (.cipher 4 8) ∧ decode 0x00600402#32 = .ok (.crc 4 6)
    ∧ decode 0x10000101#32 = .ok (.cipher 1 256) ∧ decode 0x0020FF02#32 = .ok (.crc 255 2)
    ∧ decode 0x00000003#32 = .ok .vdec ∧ decode 0x00000004#32 = .ok .venc ∧ decode 0x00000005#32 = .ok .parse
    ∧ decode 0x00000006#32 = .ok .build ∧ decode 0x00000007#32 = .ok .decode ∧ decode 0x00000008#32 = .ok .encode

/-- Decoding the assembled word of a well-formed command gives the command back, with OFF and CNT at every 12-bit value
(R110 to R116). -/
def Obligations.EncodeThenDecodeGivesCommand : Prop :=
  ∀ i : Instr, i.wellFormed = true → decode (encode i) = .ok i

/-- A word the decoder accepts is the assembled word of what it decodes to, and that command is well formed: each
command has one word for its operands (R110, R113, R116). -/
def Obligations.DecodedWordIsItsEncoding : Prop :=
  ∀ (w : Word) (i : Instr), decode w = .ok i → encode i = w ∧ i.wellFormed = true

/-- R113 in full: the engine's turn (its event is next, or no event is left) with word w latched raises ILLCMD, changing
only STATUS, for an opcode outside 0x01..0x08 and for a nonzero OFF or CNT under opcodes 0x03..0x08, and otherwise runs
the command of the opcode. u is the state without the engine's event. -/
def Obligations.LatchedWordRunsByOpcode : Prop :=
  ∀ (s u : State) (w : Word), s.rst = false → s.latch = some w →
    (s.events = [] ∧ u = s) ∨ (∃ rest, s.events = .engine :: rest ∧ u = { s with events := rest }) →
    let op := w.toNat % 256
    let off := w.toNat / 256 % 4096
    let cnt := w.toNat / 1048576
    let illegal : Host.Outcome State Fault Refusal := .next { u with err := .illcmd, latch := none, done := true }
    ((op = 0 ∨ 9 ≤ op) → step s = illegal)
      ∧ (3 ≤ op ∧ op ≤ 8 ∧ (off ≠ 0 ∨ cnt ≠ 0) → step s = illegal)
      ∧ (op = 1 → step s = exec (.cipher off cnt) u)
      ∧ (op = 2 → step s = exec (.crc off cnt) u)
      ∧ (off = 0 ∧ cnt = 0 →
          (op = 3 → step s = exec .vdec u) ∧ (op = 4 → step s = exec .venc u) ∧ (op = 5 → step s = exec .parse u)
          ∧ (op = 6 → step s = exec .build u) ∧ (op = 7 → step s = exec .decode u)
          ∧ (op = 8 → step s = exec .encode u))

/-- A step runs the decoded command: when the engine's turn comes (its event is next, or no event is left) and the
latched word decodes to i, the step is exec of i, at the state without that event. And a step whose event is something
else does exactly that: a host write, a host read, an edge of `rst`; an engine with nothing to run waits (R94, R317,
R340, R344). -/
def Obligations.StepRunsDecodedCommand : Prop :=
  (∀ (s : State) (w : Word) (i : Instr), s.rst = false → s.latch = some w → decode w = .ok i →
    (s.events = [] → step s = exec i s)
      ∧ ∀ rest, s.events = .engine :: rest → step s = exec i { s with events := rest })
  ∧ ∀ (s : State) (rest : List Event),
      let u : State := { s with events := rest }
      (∀ addr d, s.events = .write addr d :: rest → step s = .next (u.hostWrite addr d))
        ∧ (∀ addr, s.events = .read addr :: rest → step s = .next (u.hostRead addr))
        ∧ (s.events = .rstAssert :: rest → step s = .next u.hardReset)
        ∧ (s.events = .rstRelease :: rest → step s = .next { u with rst := false })
        ∧ (s.rst = true ∨ s.latch = none →
            (s.events = [] → step s = .next s) ∧ (s.events = .engine :: rest → step s = .next u))

/-! ## Stream cipher -/

/-- CIPHER (R165), with the seed of R151 and the in-place rule R155: in a legal range, byte j becomes itself XOR 0x5A
XOR the low byte of the register after 5(j+1) rounds of the seed, LFSR (and the keystream register) gets the state after
5 CNT rounds, the seed itself when CNT = 0, every other byte stays; a range past BUF_BYTES raises RANGE and changes only
STATUS. That the keystream register keeps that state once the command has ended is the model's choice (log entry 21). -/
def Obligations.CipherXorsKeystream : Prop :=
  ∀ (off cnt : Nat) (s : State),
    (off + cnt ≤ s.bufBytes →
      ∃ t, exec (.cipher off cnt) s = .next t
        ∧ t = { s with
                  mem := t.mem
                  lfsr := ksRound^[5 * cnt] ((s.eid.setWidth 16 <<< 8) ^^^ s.pip)
                  keystream := ksRound^[5 * cnt] ((s.eid.setWidth 16 <<< 8) ^^^ s.pip)
                  err := .ok, latch := none, done := true }
        ∧ (∀ j < cnt,
            t.pbuf (off + j) =
              (ksRound^[5 * (j + 1)] ((s.eid.setWidth 16 <<< 8) ^^^ s.pip)).extractLsb' 0 8 ^^^ s.pbuf (off + j)
                ^^^ 0x5A#8)
        ∧ ∀ x, x < Config.pbufBase + off ∨ Config.pbufBase + off + cnt ≤ x → t.byteAt x = s.byteAt x)
    ∧ (s.bufBytes < off + cnt →
      exec (.cipher off cnt) s = .next { s with err := .range, latch := none, done := true })

/-- Applying CIPHER twice with unchanged EID, PIP, OFF and CNT restores every byte: the spec's own inference R158. -/
def Obligations.CipherTwiceRestoresBytes : Prop :=
  ∀ (off cnt : Nat) (s : State), off + cnt ≤ s.bufBytes →
    ∃ t u, exec (.cipher off cnt) s = .next t ∧ exec (.cipher off cnt) t = .next u
      ∧ u.lfsr = t.lfsr ∧ ∀ x, u.byteAt x = s.byteAt x

/-- The keystream round loses nothing, so a nonzero state never reaches 0, and 0 and 0xA6D9 are its only fixed points:
the spec's own inference R159. That the polynomial is 0xF5B5 and not 62965 (0xF5F5) is the model's inference (log entry
20). -/
def Obligations.KeystreamRoundInjectiveWithTwoFixedPoints : Prop :=
  (∀ x y : Half, ksRound x = ksRound y → x = y) ∧ ∀ x : Half, ksRound x = x ↔ x = 0x0000#16 ∨ x = 0xA6D9#16

/-! ## CRC-16 -/

/-- CRC (R175): a legal range's checksum goes to CRC (and the remainder register) and nothing else but STATUS changes; a
range past BUF_BYTES raises RANGE. That the remainder register keeps the checksum is the model's choice (log entry 21). -/
def Obligations.CrcCommandResult : Prop :=
  ∀ (off cnt : Nat) (s : State),
    (off + cnt ≤ s.bufBytes →
      exec (.crc off cnt) s =
        .next { s with
          crc := crc16 (s.pbufRead off cnt), crcRem := crc16 (s.pbufRead off cnt)
          err := .ok, latch := none, done := true })
    ∧ (s.bufBytes < off + cnt →
      exec (.crc off cnt) s = .next { s with err := .range, latch := none, done := true })

/-- The checksum is a remainder: the message as a polynomial over GF(2), times x^16, differs from the checksum by a sum
of shifts of the generator x^16 + x^12 + x^5 + 1, 0x11021 (the parameters of R171, the steps of R172). -/
def Obligations.CrcIsPolynomialRemainder : Prop :=
  ∀ bs : List Byte, ∃ shifts : List Nat,
    (beNat bs * 2 ^ 16) ^^^ (crc16 bs).toNat = shifts.foldl (fun acc k => acc ^^^ (0x11021 <<< k)) 0

/-- The checksum is linear over XOR for sequences of equal length: the spec's own inference R174. -/
def Obligations.CrcLinearOverXor : Prop :=
  ∀ xs ys : List Byte, xs.length = ys.length →
    crc16 (List.zipWith (fun x y => x ^^^ y) xs ys) = crc16 xs ^^^ crc16 ys

/-- Flipping one bit of the checked bytes changes the checksum: the spec's own inference R177. -/
def Obligations.CrcDetectsSingleBitFlip : Prop :=
  ∀ (pre post : List Byte) (b : Byte) (i : Nat), i < 8 →
    crc16 (pre ++ (b ^^^ (1#8 <<< i)) :: post) ≠ crc16 (pre ++ b :: post)

/-! ## Value decoding -/

/-- VDEC (R204): FVAL gets dec of the first VDESC & 0x0F bytes of VBUF, and nothing else but STATUS changes. -/
def Obligations.VdecCompletesWithDecodedValue : Prop :=
  ∀ s : State,
    exec .vdec s =
      .next { s with
        fval := dec s.vdesc ((List.range (s.vdesc.toNat % 16)).map (fun i => s.vbuf.extractLsb' (8 * i) 8))
        err := .ok, latch := none, done := true }

/-- R193, with round_f64 spelled out (R21): under a code of UNSIGNED, its mantissa bits those of R125 and R191, up to 15
bytes decode to the finite nonnegative binary64 nearest to be(v) / 2^mant, and of two nearest ones to that with the even
significand. -/
def Obligations.UnsignedDecodeRoundsToNearestEven : Prop :=
  ∀ (td : Byte) (m : Nat) (v : List Byte), hasCode unsignedCodes td m → v.length ≤ 15 →
    isFinite64 (dec td v) = true ∧ signbit (dec td v) = false
      ∧ ∀ z : Float64Bits, isFinite64 z = true →
          |((magnitude64 (dec td v) * 2 ^ m : Nat) : Int) - ((beNat v * 2 ^ 1074 : Nat) : Int)|
              ≤ |((magnitude64 z * 2 ^ m : Nat) : Int) - ((beNat v * 2 ^ 1074 : Nat) : Int)|
            ∧ (|((magnitude64 (dec td v) * 2 ^ m : Nat) : Int) - ((beNat v * 2 ^ 1074 : Nat) : Int)|
                  = |((magnitude64 z * 2 ^ m : Nat) : Int) - ((beNat v * 2 ^ 1074 : Nat) : Int)| →
                magnitude64 z ≠ magnitude64 (dec td v) → (dec td v).getLsbD 0 = false)

/-- R195: under a code of SIGNED (R125, R191) a value is sign and magnitude. The top bit of the first byte is the sign;
with that bit cleared the bytes are an unsigned value under the same mantissa bits (R193), and the sign flips bit 63
alone; so (R197) a value whose only set bit is that one decodes to -0.0. -/
def Obligations.SignedDecodeIsSignAndMagnitude : Prop :=
  ∀ (td tu : Byte) (m : Nat), hasCode signedCodes td m → hasCode unsignedCodes tu m →
    dec td [] = 0#64
      ∧ (∀ n : Nat, dec td (0x80#8 :: List.replicate n 0x00#8) = 0x8000000000000000#64)
      ∧ ∀ (b : Byte) (rest : List Byte),
          dec td (b :: rest) =
            if b.getLsbD 7 then dec tu ((b &&& 0x7F#8) :: rest) ^^^ 0x8000000000000000#64
            else dec tu (b :: rest)

/-- R198: up to 15 ASCII digits decode to exactly their decimal value; no bytes, and any byte that is no digit, give
+0.0. -/
def Obligations.DecimalTextDecodesExactly : Prop :=
  ∀ (td : Byte) (v : List Byte), td.extractLsb' 4 4 = 0x7#4 → v.length ≤ 15 →
    ((∀ b ∈ v, 0x30 ≤ b.toNat ∧ b.toNat ≤ 0x39) →
        isFinite64 (dec td v) = true ∧ signbit (dec td v) = false
          ∧ magnitude64 (dec td v) = Nat.ofDigits 10 (v.reverse.map (fun b => b.toNat - 0x30)) * 2 ^ 1074)
      ∧ (v = [] → dec td v = 0#64)
      ∧ ((∃ b ∈ v, b.toNat < 0x30 ∨ 0x39 < b.toNat) → dec td v = 0#64)

/-- R199 and R202: the reserved formats decode to +0.0 for every value, and so does a float whose length is neither 4 nor
8. -/
def Obligations.ReservedAndOddFloatsDecodeToZero : Prop :=
  ∀ (td : Byte) (v : List Byte),
    (td.extractLsb' 4 4 = 0xD#4 ∨ td.extractLsb' 4 4 = 0xE#4 → dec td v = 0#64)
      ∧ (td.extractLsb' 4 4 = 0xF#4 → v.length ≠ 4 → v.length ≠ 8 → dec td v = 0#64)

/-- R200: four bytes are a binary32, little-endian, widened exactly when it is finite, to the infinity of its sign when
it is infinite, and to a quiet NaN with its sign and its payload shifted up when it is a NaN. -/
def Obligations.Binary32WidensExactly : Prop :=
  ∀ (td b0 b1 b2 b3 : Byte), td.extractLsb' 4 4 = 0xF#4 →
    let u : Word := b3 ++ b2 ++ b1 ++ b0
    let y := dec td [b0, b1, b2, b3]
    (exponent32 u ≠ 0xFF →
        isFinite64 y = true ∧ signbit y = u.getLsbD 31 ∧ magnitude64 y = magnitude32 u * 2 ^ 925)
      ∧ (exponent32 u = 0xFF → fraction32 u = 0 →
          y = if u.getLsbD 31 then 0xFFF0000000000000#64 else 0x7FF0000000000000#64)
      ∧ (exponent32 u = 0xFF → fraction32 u ≠ 0 →
          signbit y = u.getLsbD 31 ∧ exponent64 y = 0x7FF ∧ y.getLsbD 51 = true
            ∧ y.extractLsb' 29 22 = u.extractLsb' 0 22 ∧ y.extractLsb' 0 29 = 0#29)

/-- Eight bytes are a binary64, little-endian, bit for bit (R201); and the encoder's eight bytes decode back to the same
encoding, NaNs included, which is the spec's own inference in R217 ("Under 0xF8 it is x bit for bit"). -/
def Obligations.Binary64BytesAreBitForBit : Prop :=
  ∀ td : Byte, td.extractLsb' 4 4 = 0xF#4 →
    (∀ b0 b1 b2 b3 b4 b5 b6 b7 : Byte,
        dec td [b0, b1, b2, b3, b4, b5, b6, b7] = b7 ++ b6 ++ b5 ++ b4 ++ b3 ++ b2 ++ b1 ++ b0)
      ∧ (td.extractLsb' 0 4 = 8#4 → ∀ x : Float64Bits, dec td (enc td x).1 = x ∧ (enc td x).2 = false)

/-! ## Value encoding -/

/-- VENC (R216): with an encodable VDESC, VBUF gets the encoded bytes and then zeros, SAT is set where the encoding
saturated, and nothing else but STATUS changes; otherwise BADFMT, with VBUF and SAT unchanged. -/
def Obligations.VencCompletesOrRaisesBadfmt : Prop :=
  ∀ s : State,
    (encodable s.vdesc = true →
      ∃ t, exec .venc s = .next t
        ∧ t = { s with
                  vbuf := t.vbuf, sat := s.sat || (enc s.vdesc s.fval).2
                  err := .ok, latch := none, done := true }
        ∧ (enc s.vdesc s.fval).1.length = s.vdesc.toNat % 16
        ∧ ∀ i < 16, t.vbuf.extractLsb' (8 * i) 8 = (enc s.vdesc s.fval).1[i]?.getD 0x00#8)
    ∧ (encodable s.vdesc = false →
      exec .venc s = .next { s with err := .badfmt, latch := none, done := true })

/-- rne_int of R21: the nearest integer to n / 2^k, and the even one of two nearest. -/
def Obligations.RneIsNearestTiesToEven : Prop :=
  ∀ n k : Nat,
    2 * |(n : Int) - ((rneShift n k * 2 ^ k : Nat) : Int)| ≤ 2 ^ k
      ∧ (2 * |(n : Int) - ((rneShift n k * 2 ^ k : Nat) : Int)| = 2 ^ k → rneShift n k % 2 = 0)

/-- R211 and R214: what the formats without a sign encode. Under a code of UNSIGNED the L bytes are big-endian, at most
2^(8L) - 1; under decimal text they are L ASCII digits, most significant first, at most 10^L - 1, which decode to that
very number. `encodesNatural` is the rule the two share. -/
def Obligations.UnsignedEncodeRoundsAndSaturates : Prop :=
  ∀ (td : Byte) (x : Float64Bits),
    let len := td.toNat % 16
    let bytes := (enc td x).1
    let sat := (enc td x).2
    (∀ m, hasCode unsignedCodes td m → bytes.length = len ∧ encodesNatural m (2 ^ (8 * len) - 1) x (beNat bytes) sat)
      ∧ (td.toNat / 16 = 0x7 →
          let digits := Nat.ofDigits 10 (bytes.reverse.map (fun b => b.toNat - 0x30))
          bytes.length = len ∧ (∀ b ∈ bytes, 0x30 ≤ b.toNat ∧ b.toNat ≤ 0x39)
            ∧ encodesNatural 0 (10 ^ len - 1) x digits sat
            ∧ isFinite64 (dec td bytes) = true ∧ signbit (dec td bytes) = false
            ∧ magnitude64 (dec td bytes) = digits * 2 ^ 1074)

/-- R212: what the codes of SIGNED (R125, R191) encode: the sign of x in bit 7 of the first byte, the magnitude in the
other bits. -/
def Obligations.SignedEncodeRoundsAndSaturates : Prop :=
  ∀ (td : Byte) (m : Nat) (x : Float64Bits), hasCode signedCodes td m →
    let len := td.toNat % 16
    let most := if len = 0 then 0 else 2 ^ (8 * len - 1) - 1
    let bytes := (enc td x).1
    let sat := (enc td x).2
    bytes.length = len
      ∧ (isNaN64 x = true → bytes = List.replicate len 0x00#8 ∧ sat = true)
      ∧ (isNaN64 x = false → signOf bytes = (signbit x && len != 0))
      ∧ (isInf64 x = true → beNat (clearSign bytes) = most ∧ sat = true)
      ∧ (isFinite64 x = true →
          (most < scaledInt x m → beNat (clearSign bytes) = most ∧ sat = true)
            ∧ (scaledInt x m ≤ most → beNat (clearSign bytes) = scaledInt x m ∧ sat = false))

/-- R215: under 0xF8 the encoder gives the eight bytes of x, little-endian; under 0xF4 the four bytes, little-endian, of a
binary32 y: 0x7FC00000 for a NaN, the infinity of x's sign for an infinity and, saturating, for a finite magnitude from
the midpoint 2^128 - 2^103 on; below it the finite binary32 of x's sign nearest to x, of two nearest ones that with the
even significand, subnormals and zeros kept. -/
def Obligations.Binary32EncodeSaturatesFromMidpoint : Prop :=
  ∀ x : Float64Bits,
    enc 0xF8#8 x = ((List.range 8).map (fun i => x.extractLsb' (8 * i) 8), false)
    ∧ ∃ y : Word,
      let overflows := (2 ^ 128 - 2 ^ 103) * 2 ^ 1074 ≤ magnitude64 x
      (enc 0xF4#8 x).1 = (List.range 4).map (fun i => y.extractLsb' (8 * i) 8)
      ∧ ((enc 0xF4#8 x).2 = true ↔ isFinite64 x = true ∧ overflows)
      ∧ (isNaN64 x = true → y = 0x7FC00000#32)
      ∧ (isInf64 x = true ∨ (isFinite64 x = true ∧ overflows) →
          y = if signbit x then 0xFF800000#32 else 0x7F800000#32)
      ∧ (isFinite64 x = true → ¬ overflows →
          exponent32 y ≠ 0xFF ∧ y.getLsbD 31 = signbit x
            ∧ ∀ z : Word, exponent32 z ≠ 0xFF →
                |((magnitude32 y * 2 ^ 925 : Nat) : Int) - (magnitude64 x : Int)|
                    ≤ |((magnitude32 z * 2 ^ 925 : Nat) : Int) - (magnitude64 x : Int)|
                  ∧ (|((magnitude32 y * 2 ^ 925 : Nat) : Int) - (magnitude64 x : Int)|
                        = |((magnitude32 z * 2 ^ 925 : Nat) : Int) - (magnitude64 x : Int)| →
                      magnitude32 z ≠ magnitude32 y → y.getLsbD 0 = false))

/-- The fixed-point round trip (the spec's own inference R217): under a code of UNSIGNED or SIGNED (R125, R191) an
unsaturated encode decodes to exactly rne_int(|x| · 2^m) / 2^m, and under a signed format with a byte to hold it, with the
sign of x. -/
def Obligations.FixedPointRoundTrip : Prop :=
  ∀ (td : Byte) (m : Nat) (x : Float64Bits), hasCode unsignedCodes td m ∨ hasCode signedCodes td m →
    isFinite64 x = true → (enc td x).2 = false →
      isFinite64 (dec td (enc td x).1) = true
        ∧ magnitude64 (dec td (enc td x).1) * 2 ^ m = scaledInt x m * 2 ^ 1074
        ∧ (hasCode signedCodes td m → td.toNat % 16 ≠ 0 → signbit (dec td (enc td x).1) = signbit x)
        ∧ (hasCode unsignedCodes td m ∨ td.toNat % 16 = 0 → signbit (dec td (enc td x).1) = false)

/-! ## Records -/

/-- A record with an unknown paramId is carried opaquely and re-encoded byte for byte (the source's property in the
spec's own inference R239; R233, R238). -/
def Obligations.UnknownRecordRelaysUnchanged : Prop :=
  ∀ (p t tfmt vfmt : Byte) (v : List Byte), p ≠ 0x00#8 → p ≠ 0xEA#8 → p ≠ 0xBF#8 → p ≠ 0x74#8 → p ≠ 0x76#8 →
    v.length = t.toNat % 16 →
    ∃ e, decodeRecord p t v = .ok e ∧ e.valid = true ∧ e.encoded tfmt vfmt = (p :: t :: v, false)

/-- R242: the bytes each valid KIND of entry encodes to, and no others are read: Temperature and Voltage take their
typeDesc from TFMT and VFMT, an Unhandled entry is emitted as stored. -/
def Obligations.RecordEncodingsByKind : Prop :=
  ∀ (e : Entry) (tfmt vfmt : Byte),
    (e.kind = 0#3 → e.encoded tfmt vfmt = ([0xEA#8, 0x00#8], false))
      ∧ (e.kind = 1#3 → e.encoded tfmt vfmt = ([0xBF#8, 0x00#8], false))
      ∧ (e.kind = 2#3 → e.encoded tfmt vfmt = (0x74#8 :: tfmt :: (enc tfmt e.fval).1, (enc tfmt e.fval).2))
      ∧ (e.kind = 3#3 → e.encoded tfmt vfmt = (0x76#8 :: vfmt :: (enc vfmt e.fval).1, (enc vfmt e.fval).2))
      ∧ (e.kind = 4#3 → e.encoded tfmt vfmt = (e.pid :: e.tdesc :: e.raw.take (e.tdesc.toNat % 16), false))

/-! ## Parse and decode -/

/-- R262: PARSE and DECODE check LEN against BUF_BYTES, then against 10; a failing check sets NREC to 0 and changes
nothing else but STATUS. -/
def Obligations.ParseAndDecodeCheckLengthFirst : Prop :=
  ∀ (i : Instr) (s : State), i = .parse ∨ i = .decode →
    (s.bufBytes < s.len.toNat →
        exec i s = .next { s with nrec := 0#16, err := .range, latch := none, done := true })
      ∧ (s.len.toNat ≤ s.bufBytes → s.len.toNat < 10 →
        exec i s = .next { s with nrec := 0#16, err := .short, latch := none, done := true })

/-- R263: after the length checks PARSE writes the computed and the received checksum whether or not they agree, and
where they differ ends with CRCFAIL and NREC = 0, changing nothing else but STATUS. That the remainder register keeps the
computed checksum is the model's choice (log entry 21). -/
def Obligations.ParseChecksCrc : Prop :=
  ∀ s : State, s.lengthOk →
    let c := crc16 (s.pbufRead 4 (s.len.toNat - 6))
    let rx : Half := s.pbuf (s.len.toNat - 2) ++ s.pbuf (s.len.toNat - 1)
    (∃ t, exec .parse s = .next t ∧ t.crc = c ∧ t.crcRem = c ∧ t.crcrx = rx)
      ∧ (c ≠ rx →
        exec .parse s =
          .next { s with
            crc := c, crcRem := c, crcrx := rx, nrec := 0#16, err := .crcfail, latch := none, done := true })

/-- R269 and R270 with the results of R264 and R271: a packet whose checksums agree and whose bytes from offset 7 are
accepted records up to a zero paramId parses to exactly those records, whatever follows the zero paramId, which may lie
anywhere up to the CRC's high byte. That they are at most MAX_RECORDS is the spec's own inference R12; that the cursor
keeps the offset where the scan stopped, and the remainder register the checksum, is the model's choice (log entries 13
and 21). -/
def Obligations.ParseReadsRecords : Prop :=
  ∀ (s : State) (rs : List WireRecord), s.bufBytes ≤ 4096 → s.lengthOk → s.packetCrc s.len.toNat = s.packetCrcRx s.len.toNat →
    s.holdsRecords s.len.toNat rs →
    ∃ t, exec .parse s = .next t
      ∧ t = { s with
                mem := t.mem
                crc := s.packetCrc s.len.toNat, crcRem := s.packetCrc s.len.toNat, crcrx := s.packetCrc s.len.toNat
                manu := s.pbuf 0, prod := s.pbuf 1, sensor := s.pbuf 4 ++ s.pbuf 5 ++ s.pbuf 6
                nrec := BitVec.ofNat 16 rs.length, cursor := 7 + (wireBytes rs).length
                err := .ok, latch := none, done := true }
      ∧ t.nrec.toNat = rs.length ∧ rs.length ≤ s.maxRecords
      ∧ (∀ k (h : k < rs.length), t.recEntry k = rs[k].entry)
      ∧ ∀ x, x < Config.recBase ∨ Config.recBase + 32 * rs.length ≤ x → t.byteAt x = s.byteAt x

/-- The failing scan (R267, R268 and R234 with the failure results of R271): after accepted records, a nonzero paramId
with fewer than 4 bytes left, or whose value and two more bytes do not fit, or of a Temperature or Voltage of length 0,
ends PARSE with SHORT and NREC = 0; the header is read and the records before it stand in RECTAB. That the cursor keeps
the offset where the scan stopped, and the remainder register the checksum, is the model's choice (log entries 13 and
21). -/
def Obligations.ParseShortKeepsEarlierRecords : Prop :=
  ∀ (s : State) (rs : List WireRecord), s.bufBytes ≤ 4096 → s.lengthOk → s.packetCrc s.len.toNat = s.packetCrcRx s.len.toNat →
    let cur := 7 + (wireBytes rs).length
    let p := s.pbuf cur
    let n := (s.pbuf (cur + 1)).toNat % 16
    s.pbufRead 7 (wireBytes rs).length = wireBytes rs → cur + 2 ≤ s.len.toNat → (∀ r ∈ rs, r.accepted = true) →
    p ≠ 0x00#8 →
    (s.len.toNat - cur < 4 ∨ s.len.toNat < cur + 2 + n + 2 ∨ ((p = 0x74#8 ∨ p = 0x76#8) ∧ n = 0)) →
    ∃ t, exec .parse s = .next t
      ∧ t = { s with
                mem := t.mem
                crc := s.packetCrc s.len.toNat, crcRem := s.packetCrc s.len.toNat, crcrx := s.packetCrc s.len.toNat
                manu := s.pbuf 0, prod := s.pbuf 1, sensor := s.pbuf 4 ++ s.pbuf 5 ++ s.pbuf 6
                nrec := 0#16, cursor := cur, err := .short, latch := none, done := true }
      ∧ (∀ k (h : k < rs.length), t.recEntry k = rs[k].entry)
      ∧ ∀ x, x < Config.recBase ∨ Config.recBase + 32 * rs.length ≤ x → t.byteAt x = s.byteAt x

/-- R285: DECODE takes the pip from offsets 2 and 3, deciphers offsets 4 to LEN-1 as CIPHER does, and then parses as
PARSE does. -/
def Obligations.DecodeIsDecipherThenParse : Prop :=
  ∀ s : State, s.lengthOk →
    ∃ t, exec (.cipher 4 (s.len.toNat - 4)) { s with pip := s.pbuf 2 ++ s.pbuf 3 } = .next t
      ∧ exec .decode s = exec .parse t

/-- DECODE completes: a packet that, deciphered, has agreeing checksums and accepted records up to a zero paramId decodes
to those records, with the deciphered bytes left in PBUF (R286, R287, R271). That the cursor keeps the offset where the scan
stopped, the keystream register its last state and the remainder register the checksum, is the model's choice (log
entries 13 and 21). -/
def Obligations.DecodeReadsRecords : Prop :=
  ∀ (s d : State) (rs : List WireRecord), s.bufBytes ≤ 4096 → s.lengthOk → d = s.decrypt s.len.toNat →
    d.packetCrc s.len.toNat = d.packetCrcRx s.len.toNat → d.holdsRecords s.len.toNat rs →
    ∃ t, exec .decode s = .next t
      ∧ t = { s with
                mem := t.mem
                pip := s.pbuf 2 ++ s.pbuf 3
                lfsr := ksRound^[5 * (s.len.toNat - 4)] ((s.eid.setWidth 16 <<< 8) ^^^ (s.pbuf 2 ++ s.pbuf 3))
                keystream := ksRound^[5 * (s.len.toNat - 4)] ((s.eid.setWidth 16 <<< 8) ^^^ (s.pbuf 2 ++ s.pbuf 3))
                crc := d.packetCrc s.len.toNat, crcRem := d.packetCrc s.len.toNat, crcrx := d.packetCrc s.len.toNat
                manu := s.pbuf 0, prod := s.pbuf 1, sensor := d.pbuf 4 ++ d.pbuf 5 ++ d.pbuf 6
                nrec := BitVec.ofNat 16 rs.length, cursor := 7 + (wireBytes rs).length
                err := .ok, latch := none, done := true }
      ∧ (∀ k (h : k < rs.length), t.recEntry k = rs[k].entry)
      ∧ (∀ x, x < Config.recBase ∨ Config.recBase + 32 * rs.length ≤ x → t.byteAt x = d.byteAt x)
      ∧ ∀ x, x < Config.pbufBase + 4 ∨ Config.pbufBase + s.len.toNat ≤ x → d.byteAt x = s.byteAt x

/-- After a DECODE that passed the length checks, whatever its outcome, PBUF holds the deciphered bytes and PIP and LFSR
the values of R286: the spec's own inference R288. -/
def Obligations.DecodeLeavesPlaintext : Prop :=
  ∀ s t : State, s.bufBytes ≤ 4096 → s.lengthOk → exec .decode s = .next t →
    t.pip = s.pbuf 2 ++ s.pbuf 3
      ∧ t.lfsr = ksRound^[5 * (s.len.toNat - 4)] ((s.eid.setWidth 16 <<< 8) ^^^ t.pip)
      ∧ (∀ j < s.len.toNat - 4,
          t.pbuf (4 + j) =
            (ksRound^[5 * (j + 1)] ((s.eid.setWidth 16 <<< 8) ^^^ t.pip)).extractLsb' 0 8 ^^^ s.pbuf (4 + j) ^^^ 0x5A#8)
      ∧ ∀ x < s.bufBytes, x < 4 ∨ s.len.toNat ≤ x → t.pbuf x = s.pbuf x

/-! ## Build and encode -/

/-- R276: BUILD and ENCODE raise BADREC, changing only STATUS, for NREC above MAX_RECORDS and for an invalid entry among
the first NREC. -/
def Obligations.BuildAndEncodeRefuseInvalidMessage : Prop :=
  ∀ (i : Instr) (s : State), i = .build ∨ i = .encode → ¬ s.messageValid →
    exec i s = .next { s with err := .badrec, latch := none, done := true }

/-- R277: with a valid Message, a packet longer than BUF_BYTES raises OVERFLOW, changing only STATUS. -/
def Obligations.BuildAndEncodeRefuseLongPacket : Prop :=
  ∀ (i : Instr) (s : State), i = .build ∨ i = .encode → s.messageValid → s.bufBytes < s.packetLength →
    exec i s = .next { s with err := .overflow, latch := none, done := true }

/-- R278 and R280: with a valid Message that fits, BUILD writes the header, pip, sensorId, records in order, terminator
and the checksum of offsets 4 to n-3 at PBUF[0..n), sets LEN and CRC, sets SAT where a value saturated, and leaves every
other byte and register as it was. That the remainder register keeps the checksum is the model's choice (log entry 21). -/
def Obligations.BuildWritesPacket : Prop :=
  ∀ s : State, s.bufBytes ≤ 4096 → s.messageValid → s.packetLength ≤ s.bufBytes →
    ∃ t, exec .build s = .next t
      ∧ t = { s with
                mem := t.mem
                len := BitVec.ofNat 16 s.packetLength
                crc := crc16 (t.pbufRead 4 (s.packetLength - 6)), crcRem := crc16 (t.pbufRead 4 (s.packetLength - 6))
                sat := s.sat || (List.range s.nrec.toNat).any (fun k => ((s.recEntry k).encoded s.tfmt s.vfmt).2)
                err := .ok, latch := none, done := true }
      ∧ t.len.toNat = s.packetLength
      ∧ t.pbufRead 0 s.packetLength =
          [s.manu, s.prod, s.pip.extractLsb' 8 8, s.pip.extractLsb' 0 8, s.sensor.extractLsb' 16 8,
              s.sensor.extractLsb' 8 8, s.sensor.extractLsb' 0 8]
            ++ ((List.range s.nrec.toNat).map (fun k => ((s.recEntry k).encoded s.tfmt s.vfmt).1)).flatten
            ++ [0x00#8, t.crc.extractLsb' 8 8, t.crc.extractLsb' 0 8]
      ∧ ∀ x, x < Config.pbufBase ∨ Config.pbufBase + s.packetLength ≤ x → t.byteAt x = s.byteAt x

/-- R290: ENCODE is BUILD and then CIPHER over offsets 4 to n-1; where BUILD's checks fail it ends as BUILD does, with
nothing encrypted. -/
def Obligations.EncodeIsBuildThenCipher : Prop :=
  ∀ s : State, s.bufBytes ≤ 4096 →
    (s.messageValid → s.packetLength ≤ s.bufBytes →
      ∃ t u, exec .build s = .next t ∧ exec (.cipher 4 (t.len.toNat - 4)) t = .next u ∧ exec .encode s = .next u)
    ∧ (¬ s.messageValid ∨ s.bufBytes < s.packetLength → exec .encode s = exec .build s)

/-- BUILD then PARSE gives the Message back (the plaintext half of the spec's own inference R292). -/
def Obligations.BuildThenParseRestoresMessage : Prop :=
  ∀ s : State, s.Inv → s.messageValid → s.packetLength ≤ s.bufBytes →
    (∀ k < s.nrec.toNat, (s.recEntry k).keepsKind) →
    ∃ t u, exec .build s = .next t ∧ exec .parse t = .next u ∧ u.err = .ok
      ∧ u.manu = s.manu ∧ u.prod = s.prod ∧ u.sensor = s.sensor ∧ u.nrec = s.nrec
      ∧ ∀ k < s.nrec.toNat, (s.recEntry k).comesBackAs s.tfmt s.vfmt (u.recEntry k)

/-- ENCODE then DECODE gives the Message and the pip back (the spec's own inference R292): the field-for-field round trip,
with Temperature and Voltage values as their formats hold them. -/
def Obligations.EncodeThenDecodeRestoresMessage : Prop :=
  ∀ s : State, s.Inv → s.messageValid → s.packetLength ≤ s.bufBytes →
    (∀ k < s.nrec.toNat, (s.recEntry k).keepsKind) →
    ∃ t u, exec .encode s = .next t ∧ exec .decode t = .next u ∧ u.err = .ok
      ∧ u.manu = s.manu ∧ u.prod = s.prod ∧ u.sensor = s.sensor ∧ u.nrec = s.nrec ∧ u.pip = s.pip
      ∧ ∀ k < s.nrec.toNat, (s.recEntry k).comesBackAs s.tfmt s.vfmt (u.recEntry k)

/-! ## All commands -/

/-- Every command completes, once, from every state, with one of the codes its rules allow; completion leaves CTRL and
WBUSY alone (R310, R314, R316, R318). -/
def Obligations.EveryCommandCompletes : Prop :=
  ∀ (i : Instr) (s : State), ∃ t, exec i s = .next t ∧ t.latch = none ∧ t.done = true ∧ mayEndWith i t.err = true
    ∧ t.ie = s.ie ∧ t.wbusy = s.wbusy

/-- Operand registers keep their values: each command writes only the registers its rule lists (the spec's own inference
R346; R41 to R52). That the working registers keep their values under the other commands is the model's choice (log
entries 13 and 21). -/
def Obligations.CommandsWriteOnlyTheirRegisters : Prop :=
  ∀ (i : Instr) (s t : State), exec i s = .next t →
    t.bufBytes = s.bufBytes ∧ t.ie = s.ie ∧ t.wbusy = s.wbusy ∧ t.eid = s.eid ∧ t.tfmt = s.tfmt ∧ t.vfmt = s.vfmt
      ∧ t.vdesc = s.vdesc ∧ t.epoch = s.epoch ∧ t.draws = s.draws ∧ t.rst = s.rst ∧ t.rdata = s.rdata
      ∧ t.events = s.events
      ∧ (i ≠ .decode → t.pip = s.pip)
      ∧ (i ≠ .build → i ≠ .encode → t.len = s.len)
      ∧ (i ≠ .parse → i ≠ .decode →
          t.nrec = s.nrec ∧ t.manu = s.manu ∧ t.prod = s.prod ∧ t.sensor = s.sensor ∧ t.crcrx = s.crcrx
            ∧ t.cursor = s.cursor)
      ∧ (i ≠ .vdec → t.fval = s.fval)
      ∧ (i ≠ .venc → t.vbuf = s.vbuf)
      ∧ (i ≠ .venc → i ≠ .build → i ≠ .encode → t.sat = s.sat)
      ∧ ((∀ off cnt, i ≠ .cipher off cnt) → i ≠ .decode → i ≠ .encode → t.lfsr = s.lfsr ∧ t.keystream = s.keystream)
      ∧ (∀ off cnt, i = .cipher off cnt → t.crc = s.crc ∧ t.crcRem = s.crcRem)
      ∧ (i = .vdec ∨ i = .venc → t.crc = s.crc ∧ t.crcRem = s.crcRem)

/-- The buffers outside a command's write set (the table of R343) are unchanged by it. -/
def Obligations.CommandsWriteOnlyTheirWriteSet : Prop :=
  ∀ (i : Instr) (s t : State), exec i s = .next t →
    ∀ x, (∀ r ∈ s.writeSet i, x < r.1 ∨ r.1 + r.2 ≤ x) → t.byteAt x = s.byteAt x

/-- SAT is sticky and competes with no error: only VENC, BUILD and ENCODE set it, and only when they end with OK
(R36; the spec's own inference in R317). -/
def Obligations.SatOnlyWithSuccess : Prop :=
  ∀ (i : Instr) (s t : State), exec i s = .next t →
    (s.sat = true → t.sat = true)
      ∧ (t.sat ≠ s.sat → t.err = .ok ∧ (i = .venc ∨ i = .build ∨ i = .encode))

/-! ## The host bus -/

/-- Host writes to CMD, STATUS and CTRL while idle (clauses of R35, R36 and R37), at any address of the word (R88): a word
written to CMD is latched with DONE and ERR cleared; a 1 clears DONE, SAT or WBUSY and a 0 keeps it; a CTRL write without
SRST sets IE. -/
def Obligations.ControlRegisterWrites : Prop :=
  ∀ (s : State) (addr : BusAddr) (d : Word), s.rst = false → s.latch = none →
    let a := addr.toNat / 4 * 4
    (a = 0x10 → s.hostWrite addr d = { s with latch := some d, done := false, err := .ok })
      ∧ (a = 0x0C → s.hostWrite addr d =
          { s with
            done := s.done && !d.getLsbD 1, sat := s.sat && !d.getLsbD 8, wbusy := s.wbusy && !d.getLsbD 9 })
      ∧ (a = 0x08 → d.getLsbD 1 = false → s.hostWrite addr d = { s with ie := d.getLsbD 0 })

/-- R48 and R49: a host write of TFMT or VFMT, at any address of the word (R88), takes effect only for an encodable
typeDesc of length at least 1, and otherwise leaves the old value; at reset they hold 0x92 and 0x22. That the write is
judged by bits 7 to 0 alone, whatever the reserved bits above, is the model's inference (log entry 17). -/
def Obligations.FormatRegistersTakeLegalValuesOnly : Prop :=
  (State.reset.tfmt = 0x92#8 ∧ State.reset.vfmt = 0x22#8)
    ∧ ∀ (s : State) (addr : BusAddr) (d : Word), s.rst = false → s.latch = none →
      let a := addr.toNat / 4 * 4
      let t : Byte := d.extractLsb' 0 8
      let legal := 1 ≤ t.toNat % 16
        ∧ (t.toNat / 16 ≤ 0xC ∨ (t.toNat / 16 = 0xF ∧ (t.toNat % 16 = 4 ∨ t.toNat % 16 = 8)))
      (legal → (a = 0x3C → s.hostWrite addr d = { s with tfmt := t })
            ∧ (a = 0x40 → s.hostWrite addr d = { s with vfmt := t }))
        ∧ (¬ legal → a = 0x3C ∨ a = 0x40 → s.hostWrite addr d = s)

/-- A plain read-write register reads back what was written, less its reserved bits, and the write changes no other
register (R31, and the sentence of R60 that no register has aliases). And the register window as the idle host sees it, at
any address of a word (R88): at each offset of R32 a read returns the fields its rule gives (R33 to R52), changing
nothing; a write of a plain register stores its field and nothing else; a write of a read-only register (ID, CFG, LFSR,
CRC, CRCRX) is ignored (R31). -/
def Obligations.RegisterReadsBackItsWrite : Prop :=
  (∀ (s : State) (d : Word) (r : Reg),
    r ∈ [Reg.eid, .pip, .len, .manu, .prod, .sensor, .nrec, .vdesc, .fvalLo, .fvalHi, .vbuf0, .vbuf1, .vbuf2, .vbuf3] →
    (s.writeReg d r).readReg r = d &&& regBits r ∧ ∀ q, q ≠ r → (s.writeReg d r).readReg q = s.readReg q)
  ∧ ∀ (s : State) (addr : BusAddr) (d : Word), s.rst = false → s.latch = none →
      let reads : List (Nat × Word) :=
        [(0x00, 0x03140007#32), (0x04, BitVec.ofNat 16 ((s.bufBytes - 9) / 2) ++ BitVec.ofNat 16 s.bufBytes),
          (0x08, 0#31 ++ BitVec.ofBool s.ie),
          (0x0C, 0#22 ++ BitVec.ofBool s.wbusy ++ BitVec.ofBool s.sat ++ s.err.code ++ 0#2 ++ BitVec.ofBool s.done ++ 0#1),
          (0x10, 0#32), (0x14, 0#24 ++ s.eid), (0x18, 0#16 ++ s.pip), (0x1C, 0#16 ++ s.len), (0x20, 0#16 ++ s.lfsr),
          (0x24, 0#16 ++ s.crc), (0x28, 0#16 ++ s.crcrx), (0x2C, 0#24 ++ s.manu), (0x30, 0#24 ++ s.prod),
          (0x34, 0#8 ++ s.sensor), (0x38, 0#16 ++ s.nrec), (0x3C, 0#24 ++ s.tfmt), (0x40, 0#24 ++ s.vfmt),
          (0x44, 0#24 ++ s.vdesc), (0x48, s.fval.extractLsb' 0 32), (0x4C, s.fval.extractLsb' 32 32),
          (0x50, s.vbuf.extractLsb' 0 32), (0x54, s.vbuf.extractLsb' 32 32), (0x58, s.vbuf.extractLsb' 64 32),
          (0x5C, s.vbuf.extractLsb' 96 32)]
      let writes : List (Nat × State) :=
        [(0x00, s), (0x04, s), (0x14, { s with eid := d.extractLsb' 0 8 }), (0x18, { s with pip := d.extractLsb' 0 16 }),
          (0x1C, { s with len := d.extractLsb' 0 16 }), (0x20, s), (0x24, s), (0x28, s),
          (0x2C, { s with manu := d.extractLsb' 0 8 }), (0x30, { s with prod := d.extractLsb' 0 8 }),
          (0x34, { s with sensor := d.extractLsb' 0 24 }), (0x38, { s with nrec := d.extractLsb' 0 16 }),
          (0x44, { s with vdesc := d.extractLsb' 0 8 }), (0x48, { s with fval := s.fval.extractLsb' 32 32 ++ d }),
          (0x4C, { s with fval := d ++ s.fval.extractLsb' 0 32 }),
          (0x50, { s with vbuf := s.vbuf.extractLsb' 32 96 ++ d }),
          (0x54, { s with vbuf := s.vbuf.extractLsb' 64 64 ++ d ++ s.vbuf.extractLsb' 0 32 }),
          (0x58, { s with vbuf := s.vbuf.extractLsb' 96 32 ++ d ++ s.vbuf.extractLsb' 0 64 }),
          (0x5C, { s with vbuf := d ++ s.vbuf.extractLsb' 0 96 })]
      (∀ p ∈ reads, addr.toNat / 4 * 4 = p.1 → s.hostRead addr = { s with rdata := p.2 })
        ∧ ∀ p ∈ writes, addr.toNat / 4 * 4 = p.1 → s.hostWrite addr d = p.2

/-- R53: reserved register offsets read 0 and ignore writes with no side effect, also while BUSY = 1. R83: so do the
unimplemented offsets 0x0100 to 0x0FFF and 0x2000 to 0xFFFF. And so do the offsets of the record-table window from
0x10000 + 32 · MAX_RECORDS on (a clause of R82; a busy read of them is in `HostReadsWhileBusy`). -/
def Obligations.ReservedOffsetsReadZeroIgnoreWrites : Prop :=
  (∀ (s : State) (addr : BusAddr) (d : Word), s.rst = false →
    (0x60 ≤ addr.toNat ∧ addr.toNat ≤ 0xFF) ∨ (0x100 ≤ addr.toNat ∧ addr.toNat ≤ 0xFFF)
      ∨ (0x2000 ≤ addr.toNat ∧ addr.toNat ≤ 0xFFFF) →
    s.hostRead addr = { s with rdata := 0#32 } ∧ s.hostWrite addr d = s)
  ∧ ∀ (s : State) (addr : BusAddr) (d : Word), s.rst = false → s.bufBytes ≤ 4096 →
      0x10000 + 32 * ((s.bufBytes - 9) / 2) ≤ addr.toNat →
      s.hostWrite addr d = s ∧ (s.latch = none → s.hostRead addr = { s with rdata := 0#32 })

/-- R81: word w of the packet-buffer window holds PBUF bytes 4w to 4w+3, the lowest in bits 7 to 0; a byte position at or
above BUF_BYTES reads 0 and ignores writes. An access at any address of the word acts on it (R88). -/
def Obligations.PacketBufferWindow : Prop :=
  ∀ (s : State) (addr : BusAddr) (w : Nat) (d : Word), s.rst = false → s.latch = none → s.bufBytes ≤ 4096 → w < 1024 →
    addr.toNat / 4 * 4 = 0x1000 + 4 * w →
    let held := fun k => if 4 * w + k < s.bufBytes then s.pbuf (4 * w + k) else 0x00#8
    s.hostRead addr = { s with rdata := held 3 ++ held 2 ++ held 1 ++ held 0 }
      ∧ s.hostWrite addr d = { s with mem := (s.hostWrite addr d).mem }
      ∧ (∀ k < 4, 4 * w + k < s.bufBytes → (s.hostWrite addr d).pbuf (4 * w + k) = d.extractLsb' (8 * k) 8)
      ∧ ∀ x, (∀ k < 4, 4 * w + k < s.bufBytes → x ≠ 0x1000 + (4 * w + k)) →
          (s.hostWrite addr d).byteAt x = s.byteAt x

/-- R240 through the window of R82: the eight words of a RECTAB entry as the idle host reads them, and a write of each:
the bits that are not reserved are stored, the others stay 0, and no other byte changes. b is the byte of the word that
the address names, which no access heeds (R88). -/
def Obligations.RecordTableWordFormat : Prop :=
  ∀ (s : State) (k b : Nat), s.rst = false → s.latch = none → s.bufBytes ≤ 4096 → k < (s.bufBytes - 9) / 2 → b < 4 →
    let addrOf : Nat → BusAddr := fun j => BitVec.ofNat 17 (0x10000 + 32 * k + 4 * j + b)
    let word := fun j => (s.hostRead (addrOf j)).rdata
    let e := s.recEntry k
    let raw := fun i => e.raw[i]?.getD 0x00#8
    let named : Nat → Word := fun j => if j = 0 then 0x00FFFF07#32 else if j = 7 then 0#32 else 0xFFFFFFFF#32
    word 0 = 0x00#8 ++ e.tdesc ++ e.pid ++ 0#5 ++ e.kind
      ∧ (∀ j < 4, word (1 + j) = raw (4 * j + 3) ++ raw (4 * j + 2) ++ raw (4 * j + 1) ++ raw (4 * j))
      ∧ word 5 = e.fval.extractLsb' 0 32 ∧ word 6 = e.fval.extractLsb' 32 32 ∧ word 7 = 0#32
      ∧ ∀ j < 8, ∀ d : Word,
          let a := 0x10000 + 32 * k + 4 * j
          let t := s.hostWrite (addrOf j) d
          t = { s with mem := t.mem } ∧ (t.hostRead (addrOf j)).rdata = d &&& named j
            ∧ ∀ x, x < a ∨ a + 4 ≤ x → t.byteAt x = s.byteAt x

/-- R350: host writes while BUSY = 1, by word offset: CTRL and STATUS take effect normally; CMD and any other register, and
any implemented buffer word, ignore the write and set WBUSY; reserved offsets and unimplemented space ignore it
without setting WBUSY. That a write to a read-only register, to a reserved-only word of an implemented RECTAB entry or to
a partly implemented PBUF word counts as one that sets WBUSY is the model's reading of R350 beside R31 (log entry 7). -/
def Obligations.HostWritesWhileBusy : Prop :=
  ∀ (s : State) (addr : BusAddr) (d : Word), s.rst = false → s.busy = true → s.bufBytes ≤ 4096 →
    let a := addr.toNat / 4 * 4
    let flagged : State := { s with wbusy := true }
    let recEnd := 0x10000 + 32 * ((s.bufBytes - 9) / 2)
    (a = 0x08 → s.hostWrite addr d = if d.getLsbD 1 then s.softReset else { s with ie := d.getLsbD 0 })
      ∧ (a = 0x0C → s.hostWrite addr d =
          { s with
            done := s.done && !d.getLsbD 1, sat := s.sat && !d.getLsbD 8, wbusy := s.wbusy && !d.getLsbD 9 })
      ∧ (a < 0x60 ∧ a ≠ 0x08 ∧ a ≠ 0x0C → s.hostWrite addr d = flagged)
      ∧ (0x60 ≤ a ∧ a < 0x1000 → s.hostWrite addr d = s)
      ∧ (0x1000 ≤ a ∧ a < 0x1000 + s.bufBytes → s.hostWrite addr d = flagged)
      ∧ (0x1000 + s.bufBytes ≤ a ∧ a < 0x10000 → s.hostWrite addr d = s)
      ∧ (0x10000 ≤ a ∧ a < recEnd → s.hostWrite addr d = flagged)
      ∧ (recEnd ≤ a → s.hostWrite addr d = s)

/-- R351: host reads while BUSY = 1, by word offset: ID, CFG, CTRL and STATUS are exact, CMD and reserved and
unimplemented offsets read 0, anything else reads some value with its reserved bits 0, and no read has a side effect on
the block. -/
def Obligations.HostReadsWhileBusy : Prop :=
  ∀ (s : State) (addr : BusAddr), s.rst = false → s.busy = true → s.bufBytes ≤ 4096 →
    let a := addr.toNat / 4 * 4
    let got := (s.hostRead addr).rdata
    let recEnd := 0x10000 + 32 * ((s.bufBytes - 9) / 2)
    s.hostRead addr = { s with rdata := got, draws := (s.hostRead addr).draws }
      ∧ (a = 0x00 → got = 0x03140007#32) ∧ (a = 0x04 → got = s.readReg .cfg)
      ∧ (a = 0x08 → got = s.readReg .ctrl) ∧ (a = 0x0C → got = s.readReg .status)
      ∧ (a = 0x10 ∨ (0x60 ≤ a ∧ a < 0x1000) ∨ (0x1000 + s.bufBytes ≤ a ∧ a < 0x10000) ∨ recEnd ≤ a → got = 0#32)
      ∧ (∀ r, regAt a = some r → a < 0x60 → got &&& ~~~ regBits r = 0#32)
      ∧ (∀ k < 4, 0x1000 ≤ a → a < 0x2000 → 0x1000 + s.bufBytes ≤ a + k → got.extractLsb' (8 * k) 8 = 0x00#8)
      ∧ ∀ k < 4, 0x10000 ≤ a → a < recEnd → got.extractLsb' (8 * k) 8 &&& ~~~ recMask ((a + k) % 32) = 0x00#8

/-- WBUSY is set by nothing but a host write while BUSY = 1 (R36). -/
def Obligations.WbusyMeansWriteWhileBusy : Prop :=
  ∀ s t : State, step s = .next t → s.wbusy = false → t.wbusy = true →
    s.busy = true ∧ s.rst = false ∧ ∃ addr d rest, s.events = .write addr d :: rest

/-- R320: irq is the level CTRL.IE & STATUS.DONE: it follows IE after every completion whatever the error code, that of an
illegal word too, changes at once with IE, and falls with a DONE clear, the next acceptance and a reset; a host write acts
at any address of the word (R88). -/
def Obligations.IrqFollowsDoneAndEnable : Prop :=
  ∀ s : State,
    (∀ i t, exec i s = .next t → t.irq = s.ie)
      ∧ (∀ w, s.rst = false → s.latch = some w → s.events = [] ∨ (∃ rest, s.events = .engine :: rest) →
          ∃ t, step s = .next t ∧ t.latch = none ∧ t.irq = s.ie)
      ∧ (∀ (addr : BusAddr) (d : Word), s.rst = false → addr.toNat / 4 * 4 = 0x08 → d.getLsbD 1 = false →
          (s.hostWrite addr d).irq = (d.getLsbD 0 && s.done) ∧ (s.hostWrite addr d).done = s.done)
      ∧ (∀ (addr : BusAddr) (d : Word), s.rst = false → addr.toNat / 4 * 4 = 0x0C ∨ addr.toNat / 4 * 4 = 0x08 →
          d.getLsbD 1 = true → (s.hostWrite addr d).irq = false)
      ∧ (∀ (addr : BusAddr) (d : Word), s.rst = false → s.latch = none → addr.toNat / 4 * 4 = 0x10 →
          (s.hostWrite addr d).irq = false)
      ∧ s.hardReset.irq = false

/-! ## Reset -/

/-- R340: while `rst` is asserted every register holds its reset value, no command runs, irq is low, writes are ignored and
a read changes nothing in the block; when it is released the block is idle and every register reads its table value. -/
def Obligations.HardResetHoldsBlockInReset : Prop :=
  ∀ s : State,
    let t := s.hardReset
    (∀ r, t.readReg r = resetWord s.bufBytes r) ∧ t.latch = none ∧ t.irq = false
      ∧ (∀ addr d, t.hostWrite addr d = t)
      ∧ (∀ addr, t.hostRead addr = { t with rdata := (t.hostRead addr).rdata, draws := (t.hostRead addr).draws })
      ∧ (∀ rest, s.events = .rstAssert :: .rstRelease :: rest →
          ∃ u v, step s = .next u ∧ step u = .next v ∧ v.rst = false ∧ v.busy = false ∧ v.irq = false
            ∧ ∀ r, v.readReg r = resetWord s.bufBytes r)

/-- A CTRL write with SRST = 1 (R342), at any address of the word (R88), busy or not, resets every register, leaves no
command running and irq low, whatever was written to IE, and keeps every buffer byte outside the running command's write
set (R343); while idle it changes no buffer byte. What an aborted command's write set is, and that an illegal latched word
has none, is the model's reading of R343 (log entry 9). -/
def Obligations.SoftResetRestoresRegisters : Prop :=
  ∀ (s : State) (addr : BusAddr) (d : Word), s.rst = false → addr.toNat / 4 * 4 = 0x08 → d.getLsbD 1 = true →
    let t := s.hostWrite addr d
    (∀ r, t.readReg r = resetWord s.bufBytes r) ∧ t.latch = none ∧ t.done = false ∧ t.irq = false
      ∧ (s.latch = none → ∀ x, t.byteAt x = s.byteAt x)
      ∧ (∀ x, (∀ w i, s.latch = some w → decode w = .ok i → ∀ r ∈ s.writeSet i, x < r.1 ∨ r.1 + r.2 ≤ x) →
          t.byteAt x = s.byteAt x)

/-! ## Runs -/

/-- A running command completes unless a reset aborts it (R355): from a busy state whose remaining events are host reads,
as many steps as there are reads, and one more, end in its completion. -/
def Obligations.RunningCommandCompletes : Prop :=
  ∀ s : State, s.rst = false → s.busy = true → (∀ e ∈ s.events, ∃ addr, e = .read addr) →
    ∃ t, Host.Core.run core (s.events.length + 1) s = .next t ∧ t.busy = false ∧ t.done = true

/-- The invariant holds right after reset. Its clauses on the reset values rest on R32 and, for the cursor and the draw
counters, on the model's choices of log entries 2 and 4. -/
def Obligations.InvariantAtReset : Prop := State.reset.Inv

/-- Every step keeps the invariant (`State.Inv`): the buffers stay in canonical form and within the implemented bytes, TFMT
and VFMT stay legal, the cursor stays within PBUF (R58), STATUS is consistent with BUSY, and registers stay at their reset
values while `rst` is asserted. That the working registers are then 0 is the model's choice of log entry 2, and the draw
counters (`epochDrawn`) are the model's own of log entries 3 and 4. -/
def Obligations.StepKeepsInvariant : Prop :=
  ∀ s t : State, s.Inv → step s = .next t → t.Inv

/-- No step ever stops: from every state, a step answers a next state (R310: no input, buffer content or register value
makes the core hang or fault). And BUF_BYTES never changes: R34 calls it constant for an instance, and that a field of
State holds it is the model's choice (log entry 1). -/
def Obligations.StepNeverStops : Prop :=
  ∀ s : State, ∃ t, step s = .next t ∧ t.bufBytes = s.bufBytes
end

