-- ==== Sys2Proof/Laws/Memory.lean ====
section
/-! SUPPORT. What the memory operations do: read after write, the canonical form kept, and the same for runs of bytes. -/

namespace Sys2Proof.Laws

open Sys2Proof.Machine

variable {m : Memory} {a x : Nat} {b : Byte}

@[simp] theorem read_nil : Memory.read [] x = none := rfl

theorem read_write (m : Memory) (a x : Nat) (b : Byte) :
    Memory.read (Memory.write m a b) x = if x = a then some b else Memory.read m x := by
  induction m with
  | nil => simp only [Memory.write, Memory.read]; split <;> rename_i h <;> simp_all [eq_comm]
  | cons c rest ih =>
    simp only [Memory.write]
    split
    · simp only [Memory.read]
      by_cases hx : x = a
      · subst hx; simp
      · simp [hx, Ne.symm hx]
    · split
      · simp only [Memory.read]
        by_cases hx : x = a
        · subst hx; simp
        · have : c.1 ≠ x := by omega
          simp [hx, Ne.symm hx, this]
      · simp only [Memory.read, ih]
        by_cases hc : c.1 = x
        · have : x ≠ a := by omega
          simp [hc, this]
        · simp [hc]

@[simp] theorem read_write_same : Memory.read (Memory.write m a b) a = some b := by simp [read_write]

theorem read_write_other (h : x ≠ a) : Memory.read (Memory.write m a b) x = Memory.read m x := by
  simp [read_write, h]

/-- Every offset a write lists is the new one or was listed before. -/
theorem mem_write {c : Host.Cell} (h : c ∈ Memory.write m a b) : c = (a, b) ∨ c ∈ m := by
  induction m with
  | nil => simpa [Memory.write] using h
  | cons d rest ih =>
    simp only [Memory.write] at h
    split at h
    · simpa using h
    · split at h
      · rcases List.mem_cons.1 h with h | h <;> simp [h]
      · rcases List.mem_cons.1 h with h | h
        · simp [h]
        · rcases ih h with h | h <;> simp [h]

/-- A write keeps the canonical form. -/
theorem write_wf (h : m.wf) : (Memory.write m a b).wf := by
  induction m with
  | nil => simp [Memory.write, Memory.wf]
  | cons c rest ih =>
    rw [Memory.wf, List.pairwise_cons] at h
    simp only [Memory.write]
    split
    · rename_i hlt
      refine List.pairwise_cons.2 ⟨fun y hy => ?_, List.pairwise_cons.2 h⟩
      rcases List.mem_cons.1 hy with rfl | hy
      · exact hlt
      · exact lt_trans hlt (h.1 y hy)
    · split
      · rename_i heq
        refine List.pairwise_cons.2 ⟨fun y hy => ?_, h.2⟩
        have := h.1 y hy
        simp only; omega
      · refine List.pairwise_cons.2 ⟨fun y hy => ?_, ih h.2⟩
        rcases mem_write hy with rfl | hy
        · simp only; omega
        · exact h.1 y hy

@[simp] theorem writeAll_nil : Memory.writeAll m a [] = m := rfl

theorem writeAll_wf (h : m.wf) (bs : List Byte) : (Memory.writeAll m a bs).wf := by
  induction bs generalizing m a with
  | nil => exact h
  | cons b rest ih => exact ih (write_wf h)

/-- What a run of writes leaves at every offset. -/
theorem read_writeAll (m : Memory) (a : Nat) (bs : List Byte) (x : Nat) :
    Memory.read (Memory.writeAll m a bs) x = if a ≤ x ∧ x < a + bs.length then bs[x - a]? else Memory.read m x := by
  induction bs generalizing m a with
  | nil => simp
  | cons b rest ih =>
    rw [Memory.writeAll, ih, read_write]
    by_cases hx : x = a
    · subst hx
      have h1 : ¬ (x + 1 ≤ x ∧ x < x + 1 + rest.length) := by omega
      have h2 : x ≤ x ∧ x < x + (b :: rest).length := by simp
      rw [if_neg h1, if_pos h2]; simp
    · by_cases hr : a + 1 ≤ x ∧ x < a + 1 + rest.length
      · have h2 : a ≤ x ∧ x < a + (b :: rest).length := by simp; omega
        rw [if_pos hr, if_pos h2]
        obtain ⟨k, rfl⟩ : ∃ k, x = a + 1 + k := ⟨x - (a + 1), by omega⟩
        rw [show a + 1 + k - (a + 1) = k by omega, show a + 1 + k - a = k + 1 by omega]
        simp
      · have h2 : ¬ (a ≤ x ∧ x < a + (b :: rest).length) := by simp; omega
        rw [if_neg hr, if_neg h2, if_neg hx]

theorem read_writeAll_outside {bs : List Byte} (h : x < a ∨ a + bs.length ≤ x) :
    Memory.read (Memory.writeAll m a bs) x = Memory.read m x := by
  rw [read_writeAll, if_neg (by omega)]

theorem mem_writeAll {c : Host.Cell} {bs : List Byte} (h : c ∈ Memory.writeAll m a bs) :
    (∃ j, ∃ hj : j < bs.length, c = (a + j, bs[j])) ∨ c ∈ m := by
  induction bs generalizing m a with
  | nil => exact .inr h
  | cons b rest ih =>
    rcases ih h with ⟨j, hj, rfl⟩ | h
    · exact .inl ⟨j + 1, by simpa using hj, by simp; omega⟩
    · rcases mem_write h with rfl | h
      · exact .inl ⟨0, by simp, by simp⟩
      · exact .inr h

end Sys2Proof.Laws
end

