-- ==== Sys2Proof/Laws/State.lean ====
section
/-! SUPPORT. One lemma per field per named update of the state, and one per view of the buffers for each update that
leaves them alone, each true by definition, so that no proof unfolds a record update. -/

namespace Sys2Proof.Laws

open Sys2Proof.Machine

variable (s : State)

/-! ### accept -/

@[simp] theorem accept_bufBytes (w : Word) : (s.accept w).bufBytes = s.bufBytes := rfl
@[simp] theorem accept_ie (w : Word) : (s.accept w).ie = s.ie := rfl
@[simp] theorem accept_done (w : Word) : (s.accept w).done = false := rfl
@[simp] theorem accept_err (w : Word) : (s.accept w).err = .ok := rfl
@[simp] theorem accept_sat (w : Word) : (s.accept w).sat = s.sat := rfl
@[simp] theorem accept_wbusy (w : Word) : (s.accept w).wbusy = s.wbusy := rfl
@[simp] theorem accept_latch (w : Word) : (s.accept w).latch = some w := rfl
@[simp] theorem accept_eid (w : Word) : (s.accept w).eid = s.eid := rfl
@[simp] theorem accept_pip (w : Word) : (s.accept w).pip = s.pip := rfl
@[simp] theorem accept_len (w : Word) : (s.accept w).len = s.len := rfl
@[simp] theorem accept_lfsr (w : Word) : (s.accept w).lfsr = s.lfsr := rfl
@[simp] theorem accept_crc (w : Word) : (s.accept w).crc = s.crc := rfl
@[simp] theorem accept_crcrx (w : Word) : (s.accept w).crcrx = s.crcrx := rfl
@[simp] theorem accept_manu (w : Word) : (s.accept w).manu = s.manu := rfl
@[simp] theorem accept_prod (w : Word) : (s.accept w).prod = s.prod := rfl
@[simp] theorem accept_sensor (w : Word) : (s.accept w).sensor = s.sensor := rfl
@[simp] theorem accept_nrec (w : Word) : (s.accept w).nrec = s.nrec := rfl
@[simp] theorem accept_tfmt (w : Word) : (s.accept w).tfmt = s.tfmt := rfl
@[simp] theorem accept_vfmt (w : Word) : (s.accept w).vfmt = s.vfmt := rfl
@[simp] theorem accept_vdesc (w : Word) : (s.accept w).vdesc = s.vdesc := rfl
@[simp] theorem accept_fval (w : Word) : (s.accept w).fval = s.fval := rfl
@[simp] theorem accept_vbuf (w : Word) : (s.accept w).vbuf = s.vbuf := rfl
@[simp] theorem accept_keystream (w : Word) : (s.accept w).keystream = s.keystream := rfl
@[simp] theorem accept_crcRem (w : Word) : (s.accept w).crcRem = s.crcRem := rfl
@[simp] theorem accept_cursor (w : Word) : (s.accept w).cursor = s.cursor := rfl
@[simp] theorem accept_mem (w : Word) : (s.accept w).mem = s.mem := rfl
@[simp] theorem accept_epoch (w : Word) : (s.accept w).epoch = s.epoch := rfl
@[simp] theorem accept_draws (w : Word) : (s.accept w).draws = s.draws := rfl
@[simp] theorem accept_rst (w : Word) : (s.accept w).rst = s.rst := rfl
@[simp] theorem accept_rdata (w : Word) : (s.accept w).rdata = s.rdata := rfl
@[simp] theorem accept_events (w : Word) : (s.accept w).events = s.events := rfl
@[simp] theorem accept_maxRecords (w : Word) : (s.accept w).maxRecords = s.maxRecords := rfl
@[simp] theorem accept_byteAt (w : Word) (x : Nat) : (s.accept w).byteAt x = s.byteAt x := rfl
@[simp] theorem accept_pbuf (w : Word) (x : Nat) : (s.accept w).pbuf x = s.pbuf x := rfl
@[simp] theorem accept_pbufRead (w : Word) (x y : Nat) : (s.accept w).pbufRead x y = s.pbufRead x y := rfl
@[simp] theorem accept_recEntry (w : Word) (x : Nat) : (s.accept w).recEntry x = s.recEntry x := rfl
@[simp] theorem accept_storedBits (w : Word) (x : Nat) : (s.accept w).storedBits x = s.storedBits x := rfl

/-! ### complete -/

@[simp] theorem complete_bufBytes (code : ErrCode) : (s.complete code).bufBytes = s.bufBytes := rfl
@[simp] theorem complete_ie (code : ErrCode) : (s.complete code).ie = s.ie := rfl
@[simp] theorem complete_done (code : ErrCode) : (s.complete code).done = true := rfl
@[simp] theorem complete_err (code : ErrCode) : (s.complete code).err = code := rfl
@[simp] theorem complete_sat (code : ErrCode) : (s.complete code).sat = s.sat := rfl
@[simp] theorem complete_wbusy (code : ErrCode) : (s.complete code).wbusy = s.wbusy := rfl
@[simp] theorem complete_latch (code : ErrCode) : (s.complete code).latch = none := rfl
@[simp] theorem complete_eid (code : ErrCode) : (s.complete code).eid = s.eid := rfl
@[simp] theorem complete_pip (code : ErrCode) : (s.complete code).pip = s.pip := rfl
@[simp] theorem complete_len (code : ErrCode) : (s.complete code).len = s.len := rfl
@[simp] theorem complete_lfsr (code : ErrCode) : (s.complete code).lfsr = s.lfsr := rfl
@[simp] theorem complete_crc (code : ErrCode) : (s.complete code).crc = s.crc := rfl
@[simp] theorem complete_crcrx (code : ErrCode) : (s.complete code).crcrx = s.crcrx := rfl
@[simp] theorem complete_manu (code : ErrCode) : (s.complete code).manu = s.manu := rfl
@[simp] theorem complete_prod (code : ErrCode) : (s.complete code).prod = s.prod := rfl
@[simp] theorem complete_sensor (code : ErrCode) : (s.complete code).sensor = s.sensor := rfl
@[simp] theorem complete_nrec (code : ErrCode) : (s.complete code).nrec = s.nrec := rfl
@[simp] theorem complete_tfmt (code : ErrCode) : (s.complete code).tfmt = s.tfmt := rfl
@[simp] theorem complete_vfmt (code : ErrCode) : (s.complete code).vfmt = s.vfmt := rfl
@[simp] theorem complete_vdesc (code : ErrCode) : (s.complete code).vdesc = s.vdesc := rfl
@[simp] theorem complete_fval (code : ErrCode) : (s.complete code).fval = s.fval := rfl
@[simp] theorem complete_vbuf (code : ErrCode) : (s.complete code).vbuf = s.vbuf := rfl
@[simp] theorem complete_keystream (code : ErrCode) : (s.complete code).keystream = s.keystream := rfl
@[simp] theorem complete_crcRem (code : ErrCode) : (s.complete code).crcRem = s.crcRem := rfl
@[simp] theorem complete_cursor (code : ErrCode) : (s.complete code).cursor = s.cursor := rfl
@[simp] theorem complete_mem (code : ErrCode) : (s.complete code).mem = s.mem := rfl
@[simp] theorem complete_epoch (code : ErrCode) : (s.complete code).epoch = s.epoch := rfl
@[simp] theorem complete_draws (code : ErrCode) : (s.complete code).draws = s.draws := rfl
@[simp] theorem complete_rst (code : ErrCode) : (s.complete code).rst = s.rst := rfl
@[simp] theorem complete_rdata (code : ErrCode) : (s.complete code).rdata = s.rdata := rfl
@[simp] theorem complete_events (code : ErrCode) : (s.complete code).events = s.events := rfl
@[simp] theorem complete_maxRecords (code : ErrCode) : (s.complete code).maxRecords = s.maxRecords := rfl
@[simp] theorem complete_byteAt (code : ErrCode) (x : Nat) : (s.complete code).byteAt x = s.byteAt x := rfl
@[simp] theorem complete_pbuf (code : ErrCode) (x : Nat) : (s.complete code).pbuf x = s.pbuf x := rfl
@[simp] theorem complete_pbufRead (code : ErrCode) (x y : Nat) : (s.complete code).pbufRead x y = s.pbufRead x y := rfl
@[simp] theorem complete_recEntry (code : ErrCode) (x : Nat) : (s.complete code).recEntry x = s.recEntry x := rfl
@[simp] theorem complete_storedBits (code : ErrCode) (x : Nat) : (s.complete code).storedBits x = s.storedBits x := rfl

/-! ### markSat -/

@[simp] theorem markSat_bufBytes (b : Bool) : (s.markSat b).bufBytes = s.bufBytes := rfl
@[simp] theorem markSat_ie (b : Bool) : (s.markSat b).ie = s.ie := rfl
@[simp] theorem markSat_done (b : Bool) : (s.markSat b).done = s.done := rfl
@[simp] theorem markSat_err (b : Bool) : (s.markSat b).err = s.err := rfl
@[simp] theorem markSat_sat (b : Bool) : (s.markSat b).sat = (s.sat || b) := rfl
@[simp] theorem markSat_wbusy (b : Bool) : (s.markSat b).wbusy = s.wbusy := rfl
@[simp] theorem markSat_latch (b : Bool) : (s.markSat b).latch = s.latch := rfl
@[simp] theorem markSat_eid (b : Bool) : (s.markSat b).eid = s.eid := rfl
@[simp] theorem markSat_pip (b : Bool) : (s.markSat b).pip = s.pip := rfl
@[simp] theorem markSat_len (b : Bool) : (s.markSat b).len = s.len := rfl
@[simp] theorem markSat_lfsr (b : Bool) : (s.markSat b).lfsr = s.lfsr := rfl
@[simp] theorem markSat_crc (b : Bool) : (s.markSat b).crc = s.crc := rfl
@[simp] theorem markSat_crcrx (b : Bool) : (s.markSat b).crcrx = s.crcrx := rfl
@[simp] theorem markSat_manu (b : Bool) : (s.markSat b).manu = s.manu := rfl
@[simp] theorem markSat_prod (b : Bool) : (s.markSat b).prod = s.prod := rfl
@[simp] theorem markSat_sensor (b : Bool) : (s.markSat b).sensor = s.sensor := rfl
@[simp] theorem markSat_nrec (b : Bool) : (s.markSat b).nrec = s.nrec := rfl
@[simp] theorem markSat_tfmt (b : Bool) : (s.markSat b).tfmt = s.tfmt := rfl
@[simp] theorem markSat_vfmt (b : Bool) : (s.markSat b).vfmt = s.vfmt := rfl
@[simp] theorem markSat_vdesc (b : Bool) : (s.markSat b).vdesc = s.vdesc := rfl
@[simp] theorem markSat_fval (b : Bool) : (s.markSat b).fval = s.fval := rfl
@[simp] theorem markSat_vbuf (b : Bool) : (s.markSat b).vbuf = s.vbuf := rfl
@[simp] theorem markSat_keystream (b : Bool) : (s.markSat b).keystream = s.keystream := rfl
@[simp] theorem markSat_crcRem (b : Bool) : (s.markSat b).crcRem = s.crcRem := rfl
@[simp] theorem markSat_cursor (b : Bool) : (s.markSat b).cursor = s.cursor := rfl
@[simp] theorem markSat_mem (b : Bool) : (s.markSat b).mem = s.mem := rfl
@[simp] theorem markSat_epoch (b : Bool) : (s.markSat b).epoch = s.epoch := rfl
@[simp] theorem markSat_draws (b : Bool) : (s.markSat b).draws = s.draws := rfl
@[simp] theorem markSat_rst (b : Bool) : (s.markSat b).rst = s.rst := rfl
@[simp] theorem markSat_rdata (b : Bool) : (s.markSat b).rdata = s.rdata := rfl
@[simp] theorem markSat_events (b : Bool) : (s.markSat b).events = s.events := rfl
@[simp] theorem markSat_busy (b : Bool) : (s.markSat b).busy = s.busy := rfl
@[simp] theorem markSat_maxRecords (b : Bool) : (s.markSat b).maxRecords = s.maxRecords := rfl
@[simp] theorem markSat_byteAt (b : Bool) (x : Nat) : (s.markSat b).byteAt x = s.byteAt x := rfl
@[simp] theorem markSat_pbuf (b : Bool) (x : Nat) : (s.markSat b).pbuf x = s.pbuf x := rfl
@[simp] theorem markSat_pbufRead (b : Bool) (x y : Nat) : (s.markSat b).pbufRead x y = s.pbufRead x y := rfl
@[simp] theorem markSat_recEntry (b : Bool) (x : Nat) : (s.markSat b).recEntry x = s.recEntry x := rfl
@[simp] theorem markSat_storedBits (b : Bool) (x : Nat) : (s.markSat b).storedBits x = s.storedBits x := rfl

/-! ### markWbusy -/

@[simp] theorem markWbusy_bufBytes : s.markWbusy.bufBytes = s.bufBytes := rfl
@[simp] theorem markWbusy_ie : s.markWbusy.ie = s.ie := rfl
@[simp] theorem markWbusy_done : s.markWbusy.done = s.done := rfl
@[simp] theorem markWbusy_err : s.markWbusy.err = s.err := rfl
@[simp] theorem markWbusy_sat : s.markWbusy.sat = s.sat := rfl
@[simp] theorem markWbusy_wbusy : s.markWbusy.wbusy = true := rfl
@[simp] theorem markWbusy_latch : s.markWbusy.latch = s.latch := rfl
@[simp] theorem markWbusy_eid : s.markWbusy.eid = s.eid := rfl
@[simp] theorem markWbusy_pip : s.markWbusy.pip = s.pip := rfl
@[simp] theorem markWbusy_len : s.markWbusy.len = s.len := rfl
@[simp] theorem markWbusy_lfsr : s.markWbusy.lfsr = s.lfsr := rfl
@[simp] theorem markWbusy_crc : s.markWbusy.crc = s.crc := rfl
@[simp] theorem markWbusy_crcrx : s.markWbusy.crcrx = s.crcrx := rfl
@[simp] theorem markWbusy_manu : s.markWbusy.manu = s.manu := rfl
@[simp] theorem markWbusy_prod : s.markWbusy.prod = s.prod := rfl
@[simp] theorem markWbusy_sensor : s.markWbusy.sensor = s.sensor := rfl
@[simp] theorem markWbusy_nrec : s.markWbusy.nrec = s.nrec := rfl
@[simp] theorem markWbusy_tfmt : s.markWbusy.tfmt = s.tfmt := rfl
@[simp] theorem markWbusy_vfmt : s.markWbusy.vfmt = s.vfmt := rfl
@[simp] theorem markWbusy_vdesc : s.markWbusy.vdesc = s.vdesc := rfl
@[simp] theorem markWbusy_fval : s.markWbusy.fval = s.fval := rfl
@[simp] theorem markWbusy_vbuf : s.markWbusy.vbuf = s.vbuf := rfl
@[simp] theorem markWbusy_keystream : s.markWbusy.keystream = s.keystream := rfl
@[simp] theorem markWbusy_crcRem : s.markWbusy.crcRem = s.crcRem := rfl
@[simp] theorem markWbusy_cursor : s.markWbusy.cursor = s.cursor := rfl
@[simp] theorem markWbusy_mem : s.markWbusy.mem = s.mem := rfl
@[simp] theorem markWbusy_epoch : s.markWbusy.epoch = s.epoch := rfl
@[simp] theorem markWbusy_draws : s.markWbusy.draws = s.draws := rfl
@[simp] theorem markWbusy_rst : s.markWbusy.rst = s.rst := rfl
@[simp] theorem markWbusy_rdata : s.markWbusy.rdata = s.rdata := rfl
@[simp] theorem markWbusy_events : s.markWbusy.events = s.events := rfl
@[simp] theorem markWbusy_busy : s.markWbusy.busy = s.busy := rfl
@[simp] theorem markWbusy_maxRecords : s.markWbusy.maxRecords = s.maxRecords := rfl
@[simp] theorem markWbusy_byteAt (x : Nat) : s.markWbusy.byteAt x = s.byteAt x := rfl
@[simp] theorem markWbusy_pbuf (x : Nat) : s.markWbusy.pbuf x = s.pbuf x := rfl
@[simp] theorem markWbusy_pbufRead (x y : Nat) : s.markWbusy.pbufRead x y = s.pbufRead x y := rfl
@[simp] theorem markWbusy_recEntry (x : Nat) : s.markWbusy.recEntry x = s.recEntry x := rfl
@[simp] theorem markWbusy_storedBits (x : Nat) : s.markWbusy.storedBits x = s.storedBits x := rfl

/-! ### clearStatus -/

@[simp] theorem clearStatus_bufBytes (d : Word) : (s.clearStatus d).bufBytes = s.bufBytes := rfl
@[simp] theorem clearStatus_ie (d : Word) : (s.clearStatus d).ie = s.ie := rfl
@[simp] theorem clearStatus_done (d : Word) : (s.clearStatus d).done = (s.done && !d.getLsbD 1) := rfl
@[simp] theorem clearStatus_err (d : Word) : (s.clearStatus d).err = s.err := rfl
@[simp] theorem clearStatus_sat (d : Word) : (s.clearStatus d).sat = (s.sat && !d.getLsbD 8) := rfl
@[simp] theorem clearStatus_wbusy (d : Word) : (s.clearStatus d).wbusy = (s.wbusy && !d.getLsbD 9) := rfl
@[simp] theorem clearStatus_latch (d : Word) : (s.clearStatus d).latch = s.latch := rfl
@[simp] theorem clearStatus_eid (d : Word) : (s.clearStatus d).eid = s.eid := rfl
@[simp] theorem clearStatus_pip (d : Word) : (s.clearStatus d).pip = s.pip := rfl
@[simp] theorem clearStatus_len (d : Word) : (s.clearStatus d).len = s.len := rfl
@[simp] theorem clearStatus_lfsr (d : Word) : (s.clearStatus d).lfsr = s.lfsr := rfl
@[simp] theorem clearStatus_crc (d : Word) : (s.clearStatus d).crc = s.crc := rfl
@[simp] theorem clearStatus_crcrx (d : Word) : (s.clearStatus d).crcrx = s.crcrx := rfl
@[simp] theorem clearStatus_manu (d : Word) : (s.clearStatus d).manu = s.manu := rfl
@[simp] theorem clearStatus_prod (d : Word) : (s.clearStatus d).prod = s.prod := rfl
@[simp] theorem clearStatus_sensor (d : Word) : (s.clearStatus d).sensor = s.sensor := rfl
@[simp] theorem clearStatus_nrec (d : Word) : (s.clearStatus d).nrec = s.nrec := rfl
@[simp] theorem clearStatus_tfmt (d : Word) : (s.clearStatus d).tfmt = s.tfmt := rfl
@[simp] theorem clearStatus_vfmt (d : Word) : (s.clearStatus d).vfmt = s.vfmt := rfl
@[simp] theorem clearStatus_vdesc (d : Word) : (s.clearStatus d).vdesc = s.vdesc := rfl
@[simp] theorem clearStatus_fval (d : Word) : (s.clearStatus d).fval = s.fval := rfl
@[simp] theorem clearStatus_vbuf (d : Word) : (s.clearStatus d).vbuf = s.vbuf := rfl
@[simp] theorem clearStatus_keystream (d : Word) : (s.clearStatus d).keystream = s.keystream := rfl
@[simp] theorem clearStatus_crcRem (d : Word) : (s.clearStatus d).crcRem = s.crcRem := rfl
@[simp] theorem clearStatus_cursor (d : Word) : (s.clearStatus d).cursor = s.cursor := rfl
@[simp] theorem clearStatus_mem (d : Word) : (s.clearStatus d).mem = s.mem := rfl
@[simp] theorem clearStatus_epoch (d : Word) : (s.clearStatus d).epoch = s.epoch := rfl
@[simp] theorem clearStatus_draws (d : Word) : (s.clearStatus d).draws = s.draws := rfl
@[simp] theorem clearStatus_rst (d : Word) : (s.clearStatus d).rst = s.rst := rfl
@[simp] theorem clearStatus_rdata (d : Word) : (s.clearStatus d).rdata = s.rdata := rfl
@[simp] theorem clearStatus_events (d : Word) : (s.clearStatus d).events = s.events := rfl
@[simp] theorem clearStatus_busy (d : Word) : (s.clearStatus d).busy = s.busy := rfl
@[simp] theorem clearStatus_maxRecords (d : Word) : (s.clearStatus d).maxRecords = s.maxRecords := rfl
@[simp] theorem clearStatus_byteAt (d : Word) (x : Nat) : (s.clearStatus d).byteAt x = s.byteAt x := rfl
@[simp] theorem clearStatus_pbuf (d : Word) (x : Nat) : (s.clearStatus d).pbuf x = s.pbuf x := rfl
@[simp] theorem clearStatus_pbufRead (d : Word) (x y : Nat) : (s.clearStatus d).pbufRead x y = s.pbufRead x y := rfl
@[simp] theorem clearStatus_recEntry (d : Word) (x : Nat) : (s.clearStatus d).recEntry x = s.recEntry x := rfl
@[simp] theorem clearStatus_storedBits (d : Word) (x : Nat) : (s.clearStatus d).storedBits x = s.storedBits x := rfl

/-! ### setPip -/

@[simp] theorem setPip_bufBytes (v : Half) : (s.setPip v).bufBytes = s.bufBytes := rfl
@[simp] theorem setPip_ie (v : Half) : (s.setPip v).ie = s.ie := rfl
@[simp] theorem setPip_done (v : Half) : (s.setPip v).done = s.done := rfl
@[simp] theorem setPip_err (v : Half) : (s.setPip v).err = s.err := rfl
@[simp] theorem setPip_sat (v : Half) : (s.setPip v).sat = s.sat := rfl
@[simp] theorem setPip_wbusy (v : Half) : (s.setPip v).wbusy = s.wbusy := rfl
@[simp] theorem setPip_latch (v : Half) : (s.setPip v).latch = s.latch := rfl
@[simp] theorem setPip_eid (v : Half) : (s.setPip v).eid = s.eid := rfl
@[simp] theorem setPip_pip (v : Half) : (s.setPip v).pip = v := rfl
@[simp] theorem setPip_len (v : Half) : (s.setPip v).len = s.len := rfl
@[simp] theorem setPip_lfsr (v : Half) : (s.setPip v).lfsr = s.lfsr := rfl
@[simp] theorem setPip_crc (v : Half) : (s.setPip v).crc = s.crc := rfl
@[simp] theorem setPip_crcrx (v : Half) : (s.setPip v).crcrx = s.crcrx := rfl
@[simp] theorem setPip_manu (v : Half) : (s.setPip v).manu = s.manu := rfl
@[simp] theorem setPip_prod (v : Half) : (s.setPip v).prod = s.prod := rfl
@[simp] theorem setPip_sensor (v : Half) : (s.setPip v).sensor = s.sensor := rfl
@[simp] theorem setPip_nrec (v : Half) : (s.setPip v).nrec = s.nrec := rfl
@[simp] theorem setPip_tfmt (v : Half) : (s.setPip v).tfmt = s.tfmt := rfl
@[simp] theorem setPip_vfmt (v : Half) : (s.setPip v).vfmt = s.vfmt := rfl
@[simp] theorem setPip_vdesc (v : Half) : (s.setPip v).vdesc = s.vdesc := rfl
@[simp] theorem setPip_fval (v : Half) : (s.setPip v).fval = s.fval := rfl
@[simp] theorem setPip_vbuf (v : Half) : (s.setPip v).vbuf = s.vbuf := rfl
@[simp] theorem setPip_keystream (v : Half) : (s.setPip v).keystream = s.keystream := rfl
@[simp] theorem setPip_crcRem (v : Half) : (s.setPip v).crcRem = s.crcRem := rfl
@[simp] theorem setPip_cursor (v : Half) : (s.setPip v).cursor = s.cursor := rfl
@[simp] theorem setPip_mem (v : Half) : (s.setPip v).mem = s.mem := rfl
@[simp] theorem setPip_epoch (v : Half) : (s.setPip v).epoch = s.epoch := rfl
@[simp] theorem setPip_draws (v : Half) : (s.setPip v).draws = s.draws := rfl
@[simp] theorem setPip_rst (v : Half) : (s.setPip v).rst = s.rst := rfl
@[simp] theorem setPip_rdata (v : Half) : (s.setPip v).rdata = s.rdata := rfl
@[simp] theorem setPip_events (v : Half) : (s.setPip v).events = s.events := rfl
@[simp] theorem setPip_busy (v : Half) : (s.setPip v).busy = s.busy := rfl
@[simp] theorem setPip_maxRecords (v : Half) : (s.setPip v).maxRecords = s.maxRecords := rfl
@[simp] theorem setPip_byteAt (v : Half) (x : Nat) : (s.setPip v).byteAt x = s.byteAt x := rfl
@[simp] theorem setPip_pbuf (v : Half) (x : Nat) : (s.setPip v).pbuf x = s.pbuf x := rfl
@[simp] theorem setPip_pbufRead (v : Half) (x y : Nat) : (s.setPip v).pbufRead x y = s.pbufRead x y := rfl
@[simp] theorem setPip_recEntry (v : Half) (x : Nat) : (s.setPip v).recEntry x = s.recEntry x := rfl
@[simp] theorem setPip_storedBits (v : Half) (x : Nat) : (s.setPip v).storedBits x = s.storedBits x := rfl

/-! ### setLen -/

@[simp] theorem setLen_bufBytes (v : Half) : (s.setLen v).bufBytes = s.bufBytes := rfl
@[simp] theorem setLen_ie (v : Half) : (s.setLen v).ie = s.ie := rfl
@[simp] theorem setLen_done (v : Half) : (s.setLen v).done = s.done := rfl
@[simp] theorem setLen_err (v : Half) : (s.setLen v).err = s.err := rfl
@[simp] theorem setLen_sat (v : Half) : (s.setLen v).sat = s.sat := rfl
@[simp] theorem setLen_wbusy (v : Half) : (s.setLen v).wbusy = s.wbusy := rfl
@[simp] theorem setLen_latch (v : Half) : (s.setLen v).latch = s.latch := rfl
@[simp] theorem setLen_eid (v : Half) : (s.setLen v).eid = s.eid := rfl
@[simp] theorem setLen_pip (v : Half) : (s.setLen v).pip = s.pip := rfl
@[simp] theorem setLen_len (v : Half) : (s.setLen v).len = v := rfl
@[simp] theorem setLen_lfsr (v : Half) : (s.setLen v).lfsr = s.lfsr := rfl
@[simp] theorem setLen_crc (v : Half) : (s.setLen v).crc = s.crc := rfl
@[simp] theorem setLen_crcrx (v : Half) : (s.setLen v).crcrx = s.crcrx := rfl
@[simp] theorem setLen_manu (v : Half) : (s.setLen v).manu = s.manu := rfl
@[simp] theorem setLen_prod (v : Half) : (s.setLen v).prod = s.prod := rfl
@[simp] theorem setLen_sensor (v : Half) : (s.setLen v).sensor = s.sensor := rfl
@[simp] theorem setLen_nrec (v : Half) : (s.setLen v).nrec = s.nrec := rfl
@[simp] theorem setLen_tfmt (v : Half) : (s.setLen v).tfmt = s.tfmt := rfl
@[simp] theorem setLen_vfmt (v : Half) : (s.setLen v).vfmt = s.vfmt := rfl
@[simp] theorem setLen_vdesc (v : Half) : (s.setLen v).vdesc = s.vdesc := rfl
@[simp] theorem setLen_fval (v : Half) : (s.setLen v).fval = s.fval := rfl
@[simp] theorem setLen_vbuf (v : Half) : (s.setLen v).vbuf = s.vbuf := rfl
@[simp] theorem setLen_keystream (v : Half) : (s.setLen v).keystream = s.keystream := rfl
@[simp] theorem setLen_crcRem (v : Half) : (s.setLen v).crcRem = s.crcRem := rfl
@[simp] theorem setLen_cursor (v : Half) : (s.setLen v).cursor = s.cursor := rfl
@[simp] theorem setLen_mem (v : Half) : (s.setLen v).mem = s.mem := rfl
@[simp] theorem setLen_epoch (v : Half) : (s.setLen v).epoch = s.epoch := rfl
@[simp] theorem setLen_draws (v : Half) : (s.setLen v).draws = s.draws := rfl
@[simp] theorem setLen_rst (v : Half) : (s.setLen v).rst = s.rst := rfl
@[simp] theorem setLen_rdata (v : Half) : (s.setLen v).rdata = s.rdata := rfl
@[simp] theorem setLen_events (v : Half) : (s.setLen v).events = s.events := rfl
@[simp] theorem setLen_busy (v : Half) : (s.setLen v).busy = s.busy := rfl
@[simp] theorem setLen_maxRecords (v : Half) : (s.setLen v).maxRecords = s.maxRecords := rfl
@[simp] theorem setLen_byteAt (v : Half) (x : Nat) : (s.setLen v).byteAt x = s.byteAt x := rfl
@[simp] theorem setLen_pbuf (v : Half) (x : Nat) : (s.setLen v).pbuf x = s.pbuf x := rfl
@[simp] theorem setLen_pbufRead (v : Half) (x y : Nat) : (s.setLen v).pbufRead x y = s.pbufRead x y := rfl
@[simp] theorem setLen_recEntry (v : Half) (x : Nat) : (s.setLen v).recEntry x = s.recEntry x := rfl
@[simp] theorem setLen_storedBits (v : Half) (x : Nat) : (s.setLen v).storedBits x = s.storedBits x := rfl

/-! ### setNrec -/

@[simp] theorem setNrec_bufBytes (v : Half) : (s.setNrec v).bufBytes = s.bufBytes := rfl
@[simp] theorem setNrec_ie (v : Half) : (s.setNrec v).ie = s.ie := rfl
@[simp] theorem setNrec_done (v : Half) : (s.setNrec v).done = s.done := rfl
@[simp] theorem setNrec_err (v : Half) : (s.setNrec v).err = s.err := rfl
@[simp] theorem setNrec_sat (v : Half) : (s.setNrec v).sat = s.sat := rfl
@[simp] theorem setNrec_wbusy (v : Half) : (s.setNrec v).wbusy = s.wbusy := rfl
@[simp] theorem setNrec_latch (v : Half) : (s.setNrec v).latch = s.latch := rfl
@[simp] theorem setNrec_eid (v : Half) : (s.setNrec v).eid = s.eid := rfl
@[simp] theorem setNrec_pip (v : Half) : (s.setNrec v).pip = s.pip := rfl
@[simp] theorem setNrec_len (v : Half) : (s.setNrec v).len = s.len := rfl
@[simp] theorem setNrec_lfsr (v : Half) : (s.setNrec v).lfsr = s.lfsr := rfl
@[simp] theorem setNrec_crc (v : Half) : (s.setNrec v).crc = s.crc := rfl
@[simp] theorem setNrec_crcrx (v : Half) : (s.setNrec v).crcrx = s.crcrx := rfl
@[simp] theorem setNrec_manu (v : Half) : (s.setNrec v).manu = s.manu := rfl
@[simp] theorem setNrec_prod (v : Half) : (s.setNrec v).prod = s.prod := rfl
@[simp] theorem setNrec_sensor (v : Half) : (s.setNrec v).sensor = s.sensor := rfl
@[simp] theorem setNrec_nrec (v : Half) : (s.setNrec v).nrec = v := rfl
@[simp] theorem setNrec_tfmt (v : Half) : (s.setNrec v).tfmt = s.tfmt := rfl
@[simp] theorem setNrec_vfmt (v : Half) : (s.setNrec v).vfmt = s.vfmt := rfl
@[simp] theorem setNrec_vdesc (v : Half) : (s.setNrec v).vdesc = s.vdesc := rfl
@[simp] theorem setNrec_fval (v : Half) : (s.setNrec v).fval = s.fval := rfl
@[simp] theorem setNrec_vbuf (v : Half) : (s.setNrec v).vbuf = s.vbuf := rfl
@[simp] theorem setNrec_keystream (v : Half) : (s.setNrec v).keystream = s.keystream := rfl
@[simp] theorem setNrec_crcRem (v : Half) : (s.setNrec v).crcRem = s.crcRem := rfl
@[simp] theorem setNrec_cursor (v : Half) : (s.setNrec v).cursor = s.cursor := rfl
@[simp] theorem setNrec_mem (v : Half) : (s.setNrec v).mem = s.mem := rfl
@[simp] theorem setNrec_epoch (v : Half) : (s.setNrec v).epoch = s.epoch := rfl
@[simp] theorem setNrec_draws (v : Half) : (s.setNrec v).draws = s.draws := rfl
@[simp] theorem setNrec_rst (v : Half) : (s.setNrec v).rst = s.rst := rfl
@[simp] theorem setNrec_rdata (v : Half) : (s.setNrec v).rdata = s.rdata := rfl
@[simp] theorem setNrec_events (v : Half) : (s.setNrec v).events = s.events := rfl
@[simp] theorem setNrec_busy (v : Half) : (s.setNrec v).busy = s.busy := rfl
@[simp] theorem setNrec_maxRecords (v : Half) : (s.setNrec v).maxRecords = s.maxRecords := rfl
@[simp] theorem setNrec_byteAt (v : Half) (x : Nat) : (s.setNrec v).byteAt x = s.byteAt x := rfl
@[simp] theorem setNrec_pbuf (v : Half) (x : Nat) : (s.setNrec v).pbuf x = s.pbuf x := rfl
@[simp] theorem setNrec_pbufRead (v : Half) (x y : Nat) : (s.setNrec v).pbufRead x y = s.pbufRead x y := rfl
@[simp] theorem setNrec_recEntry (v : Half) (x : Nat) : (s.setNrec v).recEntry x = s.recEntry x := rfl
@[simp] theorem setNrec_storedBits (v : Half) (x : Nat) : (s.setNrec v).storedBits x = s.storedBits x := rfl

/-! ### setFval -/

@[simp] theorem setFval_bufBytes (v : Float64Bits) : (s.setFval v).bufBytes = s.bufBytes := rfl
@[simp] theorem setFval_ie (v : Float64Bits) : (s.setFval v).ie = s.ie := rfl
@[simp] theorem setFval_done (v : Float64Bits) : (s.setFval v).done = s.done := rfl
@[simp] theorem setFval_err (v : Float64Bits) : (s.setFval v).err = s.err := rfl
@[simp] theorem setFval_sat (v : Float64Bits) : (s.setFval v).sat = s.sat := rfl
@[simp] theorem setFval_wbusy (v : Float64Bits) : (s.setFval v).wbusy = s.wbusy := rfl
@[simp] theorem setFval_latch (v : Float64Bits) : (s.setFval v).latch = s.latch := rfl
@[simp] theorem setFval_eid (v : Float64Bits) : (s.setFval v).eid = s.eid := rfl
@[simp] theorem setFval_pip (v : Float64Bits) : (s.setFval v).pip = s.pip := rfl
@[simp] theorem setFval_len (v : Float64Bits) : (s.setFval v).len = s.len := rfl
@[simp] theorem setFval_lfsr (v : Float64Bits) : (s.setFval v).lfsr = s.lfsr := rfl
@[simp] theorem setFval_crc (v : Float64Bits) : (s.setFval v).crc = s.crc := rfl
@[simp] theorem setFval_crcrx (v : Float64Bits) : (s.setFval v).crcrx = s.crcrx := rfl
@[simp] theorem setFval_manu (v : Float64Bits) : (s.setFval v).manu = s.manu := rfl
@[simp] theorem setFval_prod (v : Float64Bits) : (s.setFval v).prod = s.prod := rfl
@[simp] theorem setFval_sensor (v : Float64Bits) : (s.setFval v).sensor = s.sensor := rfl
@[simp] theorem setFval_nrec (v : Float64Bits) : (s.setFval v).nrec = s.nrec := rfl
@[simp] theorem setFval_tfmt (v : Float64Bits) : (s.setFval v).tfmt = s.tfmt := rfl
@[simp] theorem setFval_vfmt (v : Float64Bits) : (s.setFval v).vfmt = s.vfmt := rfl
@[simp] theorem setFval_vdesc (v : Float64Bits) : (s.setFval v).vdesc = s.vdesc := rfl
@[simp] theorem setFval_fval (v : Float64Bits) : (s.setFval v).fval = v := rfl
@[simp] theorem setFval_vbuf (v : Float64Bits) : (s.setFval v).vbuf = s.vbuf := rfl
@[simp] theorem setFval_keystream (v : Float64Bits) : (s.setFval v).keystream = s.keystream := rfl
@[simp] theorem setFval_crcRem (v : Float64Bits) : (s.setFval v).crcRem = s.crcRem := rfl
@[simp] theorem setFval_cursor (v : Float64Bits) : (s.setFval v).cursor = s.cursor := rfl
@[simp] theorem setFval_mem (v : Float64Bits) : (s.setFval v).mem = s.mem := rfl
@[simp] theorem setFval_epoch (v : Float64Bits) : (s.setFval v).epoch = s.epoch := rfl
@[simp] theorem setFval_draws (v : Float64Bits) : (s.setFval v).draws = s.draws := rfl
@[simp] theorem setFval_rst (v : Float64Bits) : (s.setFval v).rst = s.rst := rfl
@[simp] theorem setFval_rdata (v : Float64Bits) : (s.setFval v).rdata = s.rdata := rfl
@[simp] theorem setFval_events (v : Float64Bits) : (s.setFval v).events = s.events := rfl
@[simp] theorem setFval_busy (v : Float64Bits) : (s.setFval v).busy = s.busy := rfl
@[simp] theorem setFval_maxRecords (v : Float64Bits) : (s.setFval v).maxRecords = s.maxRecords := rfl
@[simp] theorem setFval_byteAt (v : Float64Bits) (x : Nat) : (s.setFval v).byteAt x = s.byteAt x := rfl
@[simp] theorem setFval_pbuf (v : Float64Bits) (x : Nat) : (s.setFval v).pbuf x = s.pbuf x := rfl
@[simp] theorem setFval_pbufRead (v : Float64Bits) (x y : Nat) : (s.setFval v).pbufRead x y = s.pbufRead x y := rfl
@[simp] theorem setFval_recEntry (v : Float64Bits) (x : Nat) : (s.setFval v).recEntry x = s.recEntry x := rfl
@[simp] theorem setFval_storedBits (v : Float64Bits) (x : Nat) : (s.setFval v).storedBits x = s.storedBits x := rfl

/-! ### setCursor -/

@[simp] theorem setCursor_bufBytes (v : Nat) : (s.setCursor v).bufBytes = s.bufBytes := rfl
@[simp] theorem setCursor_ie (v : Nat) : (s.setCursor v).ie = s.ie := rfl
@[simp] theorem setCursor_done (v : Nat) : (s.setCursor v).done = s.done := rfl
@[simp] theorem setCursor_err (v : Nat) : (s.setCursor v).err = s.err := rfl
@[simp] theorem setCursor_sat (v : Nat) : (s.setCursor v).sat = s.sat := rfl
@[simp] theorem setCursor_wbusy (v : Nat) : (s.setCursor v).wbusy = s.wbusy := rfl
@[simp] theorem setCursor_latch (v : Nat) : (s.setCursor v).latch = s.latch := rfl
@[simp] theorem setCursor_eid (v : Nat) : (s.setCursor v).eid = s.eid := rfl
@[simp] theorem setCursor_pip (v : Nat) : (s.setCursor v).pip = s.pip := rfl
@[simp] theorem setCursor_len (v : Nat) : (s.setCursor v).len = s.len := rfl
@[simp] theorem setCursor_lfsr (v : Nat) : (s.setCursor v).lfsr = s.lfsr := rfl
@[simp] theorem setCursor_crc (v : Nat) : (s.setCursor v).crc = s.crc := rfl
@[simp] theorem setCursor_crcrx (v : Nat) : (s.setCursor v).crcrx = s.crcrx := rfl
@[simp] theorem setCursor_manu (v : Nat) : (s.setCursor v).manu = s.manu := rfl
@[simp] theorem setCursor_prod (v : Nat) : (s.setCursor v).prod = s.prod := rfl
@[simp] theorem setCursor_sensor (v : Nat) : (s.setCursor v).sensor = s.sensor := rfl
@[simp] theorem setCursor_nrec (v : Nat) : (s.setCursor v).nrec = s.nrec := rfl
@[simp] theorem setCursor_tfmt (v : Nat) : (s.setCursor v).tfmt = s.tfmt := rfl
@[simp] theorem setCursor_vfmt (v : Nat) : (s.setCursor v).vfmt = s.vfmt := rfl
@[simp] theorem setCursor_vdesc (v : Nat) : (s.setCursor v).vdesc = s.vdesc := rfl
@[simp] theorem setCursor_fval (v : Nat) : (s.setCursor v).fval = s.fval := rfl
@[simp] theorem setCursor_vbuf (v : Nat) : (s.setCursor v).vbuf = s.vbuf := rfl
@[simp] theorem setCursor_keystream (v : Nat) : (s.setCursor v).keystream = s.keystream := rfl
@[simp] theorem setCursor_crcRem (v : Nat) : (s.setCursor v).crcRem = s.crcRem := rfl
@[simp] theorem setCursor_cursor (v : Nat) : (s.setCursor v).cursor = v := rfl
@[simp] theorem setCursor_mem (v : Nat) : (s.setCursor v).mem = s.mem := rfl
@[simp] theorem setCursor_epoch (v : Nat) : (s.setCursor v).epoch = s.epoch := rfl
@[simp] theorem setCursor_draws (v : Nat) : (s.setCursor v).draws = s.draws := rfl
@[simp] theorem setCursor_rst (v : Nat) : (s.setCursor v).rst = s.rst := rfl
@[simp] theorem setCursor_rdata (v : Nat) : (s.setCursor v).rdata = s.rdata := rfl
@[simp] theorem setCursor_events (v : Nat) : (s.setCursor v).events = s.events := rfl
@[simp] theorem setCursor_busy (v : Nat) : (s.setCursor v).busy = s.busy := rfl
@[simp] theorem setCursor_maxRecords (v : Nat) : (s.setCursor v).maxRecords = s.maxRecords := rfl
@[simp] theorem setCursor_byteAt (v : Nat) (x : Nat) : (s.setCursor v).byteAt x = s.byteAt x := rfl
@[simp] theorem setCursor_pbuf (v : Nat) (x : Nat) : (s.setCursor v).pbuf x = s.pbuf x := rfl
@[simp] theorem setCursor_pbufRead (v : Nat) (x y : Nat) : (s.setCursor v).pbufRead x y = s.pbufRead x y := rfl
@[simp] theorem setCursor_recEntry (v : Nat) (x : Nat) : (s.setCursor v).recEntry x = s.recEntry x := rfl
@[simp] theorem setCursor_storedBits (v : Nat) (x : Nat) : (s.setCursor v).storedBits x = s.storedBits x := rfl

/-! ### pbufWrite -/

@[simp] theorem pbufWrite_bufBytes (i : Nat) (bs : List Byte) : (s.pbufWrite i bs).bufBytes = s.bufBytes := rfl
@[simp] theorem pbufWrite_ie (i : Nat) (bs : List Byte) : (s.pbufWrite i bs).ie = s.ie := rfl
@[simp] theorem pbufWrite_done (i : Nat) (bs : List Byte) : (s.pbufWrite i bs).done = s.done := rfl
@[simp] theorem pbufWrite_err (i : Nat) (bs : List Byte) : (s.pbufWrite i bs).err = s.err := rfl
@[simp] theorem pbufWrite_sat (i : Nat) (bs : List Byte) : (s.pbufWrite i bs).sat = s.sat := rfl
@[simp] theorem pbufWrite_wbusy (i : Nat) (bs : List Byte) : (s.pbufWrite i bs).wbusy = s.wbusy := rfl
@[simp] theorem pbufWrite_latch (i : Nat) (bs : List Byte) : (s.pbufWrite i bs).latch = s.latch := rfl
@[simp] theorem pbufWrite_eid (i : Nat) (bs : List Byte) : (s.pbufWrite i bs).eid = s.eid := rfl
@[simp] theorem pbufWrite_pip (i : Nat) (bs : List Byte) : (s.pbufWrite i bs).pip = s.pip := rfl
@[simp] theorem pbufWrite_len (i : Nat) (bs : List Byte) : (s.pbufWrite i bs).len = s.len := rfl
@[simp] theorem pbufWrite_lfsr (i : Nat) (bs : List Byte) : (s.pbufWrite i bs).lfsr = s.lfsr := rfl
@[simp] theorem pbufWrite_crc (i : Nat) (bs : List Byte) : (s.pbufWrite i bs).crc = s.crc := rfl
@[simp] theorem pbufWrite_crcrx (i : Nat) (bs : List Byte) : (s.pbufWrite i bs).crcrx = s.crcrx := rfl
@[simp] theorem pbufWrite_manu (i : Nat) (bs : List Byte) : (s.pbufWrite i bs).manu = s.manu := rfl
@[simp] theorem pbufWrite_prod (i : Nat) (bs : List Byte) : (s.pbufWrite i bs).prod = s.prod := rfl
@[simp] theorem pbufWrite_sensor (i : Nat) (bs : List Byte) : (s.pbufWrite i bs).sensor = s.sensor := rfl
@[simp] theorem pbufWrite_nrec (i : Nat) (bs : List Byte) : (s.pbufWrite i bs).nrec = s.nrec := rfl
@[simp] theorem pbufWrite_tfmt (i : Nat) (bs : List Byte) : (s.pbufWrite i bs).tfmt = s.tfmt := rfl
@[simp] theorem pbufWrite_vfmt (i : Nat) (bs : List Byte) : (s.pbufWrite i bs).vfmt = s.vfmt := rfl
@[simp] theorem pbufWrite_vdesc (i : Nat) (bs : List Byte) : (s.pbufWrite i bs).vdesc = s.vdesc := rfl
@[simp] theorem pbufWrite_fval (i : Nat) (bs : List Byte) : (s.pbufWrite i bs).fval = s.fval := rfl
@[simp] theorem pbufWrite_vbuf (i : Nat) (bs : List Byte) : (s.pbufWrite i bs).vbuf = s.vbuf := rfl
@[simp] theorem pbufWrite_keystream (i : Nat) (bs : List Byte) : (s.pbufWrite i bs).keystream = s.keystream := rfl
@[simp] theorem pbufWrite_crcRem (i : Nat) (bs : List Byte) : (s.pbufWrite i bs).crcRem = s.crcRem := rfl
@[simp] theorem pbufWrite_cursor (i : Nat) (bs : List Byte) : (s.pbufWrite i bs).cursor = s.cursor := rfl
@[simp] theorem pbufWrite_mem (i : Nat) (bs : List Byte) : (s.pbufWrite i bs).mem = Memory.writeAll s.mem (Config.pbufBase + i) bs := rfl
@[simp] theorem pbufWrite_epoch (i : Nat) (bs : List Byte) : (s.pbufWrite i bs).epoch = s.epoch := rfl
@[simp] theorem pbufWrite_draws (i : Nat) (bs : List Byte) : (s.pbufWrite i bs).draws = s.draws := rfl
@[simp] theorem pbufWrite_rst (i : Nat) (bs : List Byte) : (s.pbufWrite i bs).rst = s.rst := rfl
@[simp] theorem pbufWrite_rdata (i : Nat) (bs : List Byte) : (s.pbufWrite i bs).rdata = s.rdata := rfl
@[simp] theorem pbufWrite_events (i : Nat) (bs : List Byte) : (s.pbufWrite i bs).events = s.events := rfl
@[simp] theorem pbufWrite_busy (i : Nat) (bs : List Byte) : (s.pbufWrite i bs).busy = s.busy := rfl
@[simp] theorem pbufWrite_maxRecords (i : Nat) (bs : List Byte) : (s.pbufWrite i bs).maxRecords = s.maxRecords := rfl
@[simp] theorem pbufWrite_storedBits (i : Nat) (bs : List Byte) (x : Nat) : (s.pbufWrite i bs).storedBits x = s.storedBits x := rfl

/-! ### recWrite -/

@[simp] theorem recWrite_bufBytes (k : Nat) (e : Entry) : (s.recWrite k e).bufBytes = s.bufBytes := rfl
@[simp] theorem recWrite_ie (k : Nat) (e : Entry) : (s.recWrite k e).ie = s.ie := rfl
@[simp] theorem recWrite_done (k : Nat) (e : Entry) : (s.recWrite k e).done = s.done := rfl
@[simp] theorem recWrite_err (k : Nat) (e : Entry) : (s.recWrite k e).err = s.err := rfl
@[simp] theorem recWrite_sat (k : Nat) (e : Entry) : (s.recWrite k e).sat = s.sat := rfl
@[simp] theorem recWrite_wbusy (k : Nat) (e : Entry) : (s.recWrite k e).wbusy = s.wbusy := rfl
@[simp] theorem recWrite_latch (k : Nat) (e : Entry) : (s.recWrite k e).latch = s.latch := rfl
@[simp] theorem recWrite_eid (k : Nat) (e : Entry) : (s.recWrite k e).eid = s.eid := rfl
@[simp] theorem recWrite_pip (k : Nat) (e : Entry) : (s.recWrite k e).pip = s.pip := rfl
@[simp] theorem recWrite_len (k : Nat) (e : Entry) : (s.recWrite k e).len = s.len := rfl
@[simp] theorem recWrite_lfsr (k : Nat) (e : Entry) : (s.recWrite k e).lfsr = s.lfsr := rfl
@[simp] theorem recWrite_crc (k : Nat) (e : Entry) : (s.recWrite k e).crc = s.crc := rfl
@[simp] theorem recWrite_crcrx (k : Nat) (e : Entry) : (s.recWrite k e).crcrx = s.crcrx := rfl
@[simp] theorem recWrite_manu (k : Nat) (e : Entry) : (s.recWrite k e).manu = s.manu := rfl
@[simp] theorem recWrite_prod (k : Nat) (e : Entry) : (s.recWrite k e).prod = s.prod := rfl
@[simp] theorem recWrite_sensor (k : Nat) (e : Entry) : (s.recWrite k e).sensor = s.sensor := rfl
@[simp] theorem recWrite_nrec (k : Nat) (e : Entry) : (s.recWrite k e).nrec = s.nrec := rfl
@[simp] theorem recWrite_tfmt (k : Nat) (e : Entry) : (s.recWrite k e).tfmt = s.tfmt := rfl
@[simp] theorem recWrite_vfmt (k : Nat) (e : Entry) : (s.recWrite k e).vfmt = s.vfmt := rfl
@[simp] theorem recWrite_vdesc (k : Nat) (e : Entry) : (s.recWrite k e).vdesc = s.vdesc := rfl
@[simp] theorem recWrite_fval (k : Nat) (e : Entry) : (s.recWrite k e).fval = s.fval := rfl
@[simp] theorem recWrite_vbuf (k : Nat) (e : Entry) : (s.recWrite k e).vbuf = s.vbuf := rfl
@[simp] theorem recWrite_keystream (k : Nat) (e : Entry) : (s.recWrite k e).keystream = s.keystream := rfl
@[simp] theorem recWrite_crcRem (k : Nat) (e : Entry) : (s.recWrite k e).crcRem = s.crcRem := rfl
@[simp] theorem recWrite_cursor (k : Nat) (e : Entry) : (s.recWrite k e).cursor = s.cursor := rfl
@[simp] theorem recWrite_mem (k : Nat) (e : Entry) : (s.recWrite k e).mem = Memory.writeAll
      (Memory.writeAll s.mem (recAddr k) [e.kind.setWidth 8, e.pid, e.tdesc])
      (recAddr k + 4) ((e.raw ++ List.replicate 16 0x00#8).take 16 ++ toLE 8 e.fval.toNat) := rfl
@[simp] theorem recWrite_epoch (k : Nat) (e : Entry) : (s.recWrite k e).epoch = s.epoch := rfl
@[simp] theorem recWrite_draws (k : Nat) (e : Entry) : (s.recWrite k e).draws = s.draws := rfl
@[simp] theorem recWrite_rst (k : Nat) (e : Entry) : (s.recWrite k e).rst = s.rst := rfl
@[simp] theorem recWrite_rdata (k : Nat) (e : Entry) : (s.recWrite k e).rdata = s.rdata := rfl
@[simp] theorem recWrite_events (k : Nat) (e : Entry) : (s.recWrite k e).events = s.events := rfl
@[simp] theorem recWrite_busy (k : Nat) (e : Entry) : (s.recWrite k e).busy = s.busy := rfl
@[simp] theorem recWrite_maxRecords (k : Nat) (e : Entry) : (s.recWrite k e).maxRecords = s.maxRecords := rfl
@[simp] theorem recWrite_storedBits (k : Nat) (e : Entry) (x : Nat) : (s.recWrite k e).storedBits x = s.storedBits x := rfl

/-! ### vbufWrite -/

@[simp] theorem vbufWrite_bufBytes (bs : List Byte) : (s.vbufWrite bs).bufBytes = s.bufBytes := rfl
@[simp] theorem vbufWrite_ie (bs : List Byte) : (s.vbufWrite bs).ie = s.ie := rfl
@[simp] theorem vbufWrite_done (bs : List Byte) : (s.vbufWrite bs).done = s.done := rfl
@[simp] theorem vbufWrite_err (bs : List Byte) : (s.vbufWrite bs).err = s.err := rfl
@[simp] theorem vbufWrite_sat (bs : List Byte) : (s.vbufWrite bs).sat = s.sat := rfl
@[simp] theorem vbufWrite_wbusy (bs : List Byte) : (s.vbufWrite bs).wbusy = s.wbusy := rfl
@[simp] theorem vbufWrite_latch (bs : List Byte) : (s.vbufWrite bs).latch = s.latch := rfl
@[simp] theorem vbufWrite_eid (bs : List Byte) : (s.vbufWrite bs).eid = s.eid := rfl
@[simp] theorem vbufWrite_pip (bs : List Byte) : (s.vbufWrite bs).pip = s.pip := rfl
@[simp] theorem vbufWrite_len (bs : List Byte) : (s.vbufWrite bs).len = s.len := rfl
@[simp] theorem vbufWrite_lfsr (bs : List Byte) : (s.vbufWrite bs).lfsr = s.lfsr := rfl
@[simp] theorem vbufWrite_crc (bs : List Byte) : (s.vbufWrite bs).crc = s.crc := rfl
@[simp] theorem vbufWrite_crcrx (bs : List Byte) : (s.vbufWrite bs).crcrx = s.crcrx := rfl
@[simp] theorem vbufWrite_manu (bs : List Byte) : (s.vbufWrite bs).manu = s.manu := rfl
@[simp] theorem vbufWrite_prod (bs : List Byte) : (s.vbufWrite bs).prod = s.prod := rfl
@[simp] theorem vbufWrite_sensor (bs : List Byte) : (s.vbufWrite bs).sensor = s.sensor := rfl
@[simp] theorem vbufWrite_nrec (bs : List Byte) : (s.vbufWrite bs).nrec = s.nrec := rfl
@[simp] theorem vbufWrite_tfmt (bs : List Byte) : (s.vbufWrite bs).tfmt = s.tfmt := rfl
@[simp] theorem vbufWrite_vfmt (bs : List Byte) : (s.vbufWrite bs).vfmt = s.vfmt := rfl
@[simp] theorem vbufWrite_vdesc (bs : List Byte) : (s.vbufWrite bs).vdesc = s.vdesc := rfl
@[simp] theorem vbufWrite_fval (bs : List Byte) : (s.vbufWrite bs).fval = s.fval := rfl
@[simp] theorem vbufWrite_vbuf (bs : List Byte) : (s.vbufWrite bs).vbuf = BitVec.ofNat 128 (leNat bs) := rfl
@[simp] theorem vbufWrite_keystream (bs : List Byte) : (s.vbufWrite bs).keystream = s.keystream := rfl
@[simp] theorem vbufWrite_crcRem (bs : List Byte) : (s.vbufWrite bs).crcRem = s.crcRem := rfl
@[simp] theorem vbufWrite_cursor (bs : List Byte) : (s.vbufWrite bs).cursor = s.cursor := rfl
@[simp] theorem vbufWrite_mem (bs : List Byte) : (s.vbufWrite bs).mem = s.mem := rfl
@[simp] theorem vbufWrite_epoch (bs : List Byte) : (s.vbufWrite bs).epoch = s.epoch := rfl
@[simp] theorem vbufWrite_draws (bs : List Byte) : (s.vbufWrite bs).draws = s.draws := rfl
@[simp] theorem vbufWrite_rst (bs : List Byte) : (s.vbufWrite bs).rst = s.rst := rfl
@[simp] theorem vbufWrite_rdata (bs : List Byte) : (s.vbufWrite bs).rdata = s.rdata := rfl
@[simp] theorem vbufWrite_events (bs : List Byte) : (s.vbufWrite bs).events = s.events := rfl
@[simp] theorem vbufWrite_busy (bs : List Byte) : (s.vbufWrite bs).busy = s.busy := rfl
@[simp] theorem vbufWrite_maxRecords (bs : List Byte) : (s.vbufWrite bs).maxRecords = s.maxRecords := rfl
@[simp] theorem vbufWrite_byteAt (bs : List Byte) (x : Nat) : (s.vbufWrite bs).byteAt x = s.byteAt x := rfl
@[simp] theorem vbufWrite_pbuf (bs : List Byte) (x : Nat) : (s.vbufWrite bs).pbuf x = s.pbuf x := rfl
@[simp] theorem vbufWrite_pbufRead (bs : List Byte) (x y : Nat) : (s.vbufWrite bs).pbufRead x y = s.pbufRead x y := rfl
@[simp] theorem vbufWrite_recEntry (bs : List Byte) (x : Nat) : (s.vbufWrite bs).recEntry x = s.recEntry x := rfl
@[simp] theorem vbufWrite_storedBits (bs : List Byte) (x : Nat) : (s.vbufWrite bs).storedBits x = s.storedBits x := rfl

/-! ### ksApply -/

@[simp] theorem ksApply_bufBytes (seed : Half) (a n : Nat) : (s.ksApply seed a n).bufBytes = s.bufBytes := rfl
@[simp] theorem ksApply_ie (seed : Half) (a n : Nat) : (s.ksApply seed a n).ie = s.ie := rfl
@[simp] theorem ksApply_done (seed : Half) (a n : Nat) : (s.ksApply seed a n).done = s.done := rfl
@[simp] theorem ksApply_err (seed : Half) (a n : Nat) : (s.ksApply seed a n).err = s.err := rfl
@[simp] theorem ksApply_sat (seed : Half) (a n : Nat) : (s.ksApply seed a n).sat = s.sat := rfl
@[simp] theorem ksApply_wbusy (seed : Half) (a n : Nat) : (s.ksApply seed a n).wbusy = s.wbusy := rfl
@[simp] theorem ksApply_latch (seed : Half) (a n : Nat) : (s.ksApply seed a n).latch = s.latch := rfl
@[simp] theorem ksApply_eid (seed : Half) (a n : Nat) : (s.ksApply seed a n).eid = s.eid := rfl
@[simp] theorem ksApply_pip (seed : Half) (a n : Nat) : (s.ksApply seed a n).pip = s.pip := rfl
@[simp] theorem ksApply_len (seed : Half) (a n : Nat) : (s.ksApply seed a n).len = s.len := rfl
@[simp] theorem ksApply_lfsr (seed : Half) (a n : Nat) : (s.ksApply seed a n).lfsr = (ksBytes seed (s.pbufRead a n)).2 := rfl
@[simp] theorem ksApply_crc (seed : Half) (a n : Nat) : (s.ksApply seed a n).crc = s.crc := rfl
@[simp] theorem ksApply_crcrx (seed : Half) (a n : Nat) : (s.ksApply seed a n).crcrx = s.crcrx := rfl
@[simp] theorem ksApply_manu (seed : Half) (a n : Nat) : (s.ksApply seed a n).manu = s.manu := rfl
@[simp] theorem ksApply_prod (seed : Half) (a n : Nat) : (s.ksApply seed a n).prod = s.prod := rfl
@[simp] theorem ksApply_sensor (seed : Half) (a n : Nat) : (s.ksApply seed a n).sensor = s.sensor := rfl
@[simp] theorem ksApply_nrec (seed : Half) (a n : Nat) : (s.ksApply seed a n).nrec = s.nrec := rfl
@[simp] theorem ksApply_tfmt (seed : Half) (a n : Nat) : (s.ksApply seed a n).tfmt = s.tfmt := rfl
@[simp] theorem ksApply_vfmt (seed : Half) (a n : Nat) : (s.ksApply seed a n).vfmt = s.vfmt := rfl
@[simp] theorem ksApply_vdesc (seed : Half) (a n : Nat) : (s.ksApply seed a n).vdesc = s.vdesc := rfl
@[simp] theorem ksApply_fval (seed : Half) (a n : Nat) : (s.ksApply seed a n).fval = s.fval := rfl
@[simp] theorem ksApply_vbuf (seed : Half) (a n : Nat) : (s.ksApply seed a n).vbuf = s.vbuf := rfl
@[simp] theorem ksApply_keystream (seed : Half) (a n : Nat) : (s.ksApply seed a n).keystream = (ksBytes seed (s.pbufRead a n)).2 := rfl
@[simp] theorem ksApply_crcRem (seed : Half) (a n : Nat) : (s.ksApply seed a n).crcRem = s.crcRem := rfl
@[simp] theorem ksApply_cursor (seed : Half) (a n : Nat) : (s.ksApply seed a n).cursor = s.cursor := rfl
@[simp] theorem ksApply_mem (seed : Half) (a n : Nat) : (s.ksApply seed a n).mem = Memory.writeAll s.mem (Config.pbufBase + a) (ksBytes seed (s.pbufRead a n)).1 := rfl
@[simp] theorem ksApply_epoch (seed : Half) (a n : Nat) : (s.ksApply seed a n).epoch = s.epoch := rfl
@[simp] theorem ksApply_draws (seed : Half) (a n : Nat) : (s.ksApply seed a n).draws = s.draws := rfl
@[simp] theorem ksApply_rst (seed : Half) (a n : Nat) : (s.ksApply seed a n).rst = s.rst := rfl
@[simp] theorem ksApply_rdata (seed : Half) (a n : Nat) : (s.ksApply seed a n).rdata = s.rdata := rfl
@[simp] theorem ksApply_events (seed : Half) (a n : Nat) : (s.ksApply seed a n).events = s.events := rfl
@[simp] theorem ksApply_busy (seed : Half) (a n : Nat) : (s.ksApply seed a n).busy = s.busy := rfl
@[simp] theorem ksApply_maxRecords (seed : Half) (a n : Nat) : (s.ksApply seed a n).maxRecords = s.maxRecords := rfl
@[simp] theorem ksApply_storedBits (seed : Half) (a n : Nat) (x : Nat) : (s.ksApply seed a n).storedBits x = s.storedBits x := rfl

/-! ### noteCrc -/

@[simp] theorem noteCrc_bufBytes (c : Half) : (s.noteCrc c).bufBytes = s.bufBytes := rfl
@[simp] theorem noteCrc_ie (c : Half) : (s.noteCrc c).ie = s.ie := rfl
@[simp] theorem noteCrc_done (c : Half) : (s.noteCrc c).done = s.done := rfl
@[simp] theorem noteCrc_err (c : Half) : (s.noteCrc c).err = s.err := rfl
@[simp] theorem noteCrc_sat (c : Half) : (s.noteCrc c).sat = s.sat := rfl
@[simp] theorem noteCrc_wbusy (c : Half) : (s.noteCrc c).wbusy = s.wbusy := rfl
@[simp] theorem noteCrc_latch (c : Half) : (s.noteCrc c).latch = s.latch := rfl
@[simp] theorem noteCrc_eid (c : Half) : (s.noteCrc c).eid = s.eid := rfl
@[simp] theorem noteCrc_pip (c : Half) : (s.noteCrc c).pip = s.pip := rfl
@[simp] theorem noteCrc_len (c : Half) : (s.noteCrc c).len = s.len := rfl
@[simp] theorem noteCrc_lfsr (c : Half) : (s.noteCrc c).lfsr = s.lfsr := rfl
@[simp] theorem noteCrc_crc (c : Half) : (s.noteCrc c).crc = c := rfl
@[simp] theorem noteCrc_crcrx (c : Half) : (s.noteCrc c).crcrx = s.crcrx := rfl
@[simp] theorem noteCrc_manu (c : Half) : (s.noteCrc c).manu = s.manu := rfl
@[simp] theorem noteCrc_prod (c : Half) : (s.noteCrc c).prod = s.prod := rfl
@[simp] theorem noteCrc_sensor (c : Half) : (s.noteCrc c).sensor = s.sensor := rfl
@[simp] theorem noteCrc_nrec (c : Half) : (s.noteCrc c).nrec = s.nrec := rfl
@[simp] theorem noteCrc_tfmt (c : Half) : (s.noteCrc c).tfmt = s.tfmt := rfl
@[simp] theorem noteCrc_vfmt (c : Half) : (s.noteCrc c).vfmt = s.vfmt := rfl
@[simp] theorem noteCrc_vdesc (c : Half) : (s.noteCrc c).vdesc = s.vdesc := rfl
@[simp] theorem noteCrc_fval (c : Half) : (s.noteCrc c).fval = s.fval := rfl
@[simp] theorem noteCrc_vbuf (c : Half) : (s.noteCrc c).vbuf = s.vbuf := rfl
@[simp] theorem noteCrc_keystream (c : Half) : (s.noteCrc c).keystream = s.keystream := rfl
@[simp] theorem noteCrc_crcRem (c : Half) : (s.noteCrc c).crcRem = c := rfl
@[simp] theorem noteCrc_cursor (c : Half) : (s.noteCrc c).cursor = s.cursor := rfl
@[simp] theorem noteCrc_mem (c : Half) : (s.noteCrc c).mem = s.mem := rfl
@[simp] theorem noteCrc_epoch (c : Half) : (s.noteCrc c).epoch = s.epoch := rfl
@[simp] theorem noteCrc_draws (c : Half) : (s.noteCrc c).draws = s.draws := rfl
@[simp] theorem noteCrc_rst (c : Half) : (s.noteCrc c).rst = s.rst := rfl
@[simp] theorem noteCrc_rdata (c : Half) : (s.noteCrc c).rdata = s.rdata := rfl
@[simp] theorem noteCrc_events (c : Half) : (s.noteCrc c).events = s.events := rfl
@[simp] theorem noteCrc_busy (c : Half) : (s.noteCrc c).busy = s.busy := rfl
@[simp] theorem noteCrc_maxRecords (c : Half) : (s.noteCrc c).maxRecords = s.maxRecords := rfl
@[simp] theorem noteCrc_byteAt (c : Half) (x : Nat) : (s.noteCrc c).byteAt x = s.byteAt x := rfl
@[simp] theorem noteCrc_pbuf (c : Half) (x : Nat) : (s.noteCrc c).pbuf x = s.pbuf x := rfl
@[simp] theorem noteCrc_pbufRead (c : Half) (x y : Nat) : (s.noteCrc c).pbufRead x y = s.pbufRead x y := rfl
@[simp] theorem noteCrc_recEntry (c : Half) (x : Nat) : (s.noteCrc c).recEntry x = s.recEntry x := rfl
@[simp] theorem noteCrc_storedBits (c : Half) (x : Nat) : (s.noteCrc c).storedBits x = s.storedBits x := rfl

/-! ### noteChecksums -/

@[simp] theorem noteChecksums_bufBytes (L : Nat) : (s.noteChecksums L).bufBytes = s.bufBytes := rfl
@[simp] theorem noteChecksums_ie (L : Nat) : (s.noteChecksums L).ie = s.ie := rfl
@[simp] theorem noteChecksums_done (L : Nat) : (s.noteChecksums L).done = s.done := rfl
@[simp] theorem noteChecksums_err (L : Nat) : (s.noteChecksums L).err = s.err := rfl
@[simp] theorem noteChecksums_sat (L : Nat) : (s.noteChecksums L).sat = s.sat := rfl
@[simp] theorem noteChecksums_wbusy (L : Nat) : (s.noteChecksums L).wbusy = s.wbusy := rfl
@[simp] theorem noteChecksums_latch (L : Nat) : (s.noteChecksums L).latch = s.latch := rfl
@[simp] theorem noteChecksums_eid (L : Nat) : (s.noteChecksums L).eid = s.eid := rfl
@[simp] theorem noteChecksums_pip (L : Nat) : (s.noteChecksums L).pip = s.pip := rfl
@[simp] theorem noteChecksums_len (L : Nat) : (s.noteChecksums L).len = s.len := rfl
@[simp] theorem noteChecksums_lfsr (L : Nat) : (s.noteChecksums L).lfsr = s.lfsr := rfl
@[simp] theorem noteChecksums_crc (L : Nat) : (s.noteChecksums L).crc = s.packetCrc L := rfl
@[simp] theorem noteChecksums_crcrx (L : Nat) : (s.noteChecksums L).crcrx = s.packetCrcRx L := rfl
@[simp] theorem noteChecksums_manu (L : Nat) : (s.noteChecksums L).manu = s.manu := rfl
@[simp] theorem noteChecksums_prod (L : Nat) : (s.noteChecksums L).prod = s.prod := rfl
@[simp] theorem noteChecksums_sensor (L : Nat) : (s.noteChecksums L).sensor = s.sensor := rfl
@[simp] theorem noteChecksums_nrec (L : Nat) : (s.noteChecksums L).nrec = s.nrec := rfl
@[simp] theorem noteChecksums_tfmt (L : Nat) : (s.noteChecksums L).tfmt = s.tfmt := rfl
@[simp] theorem noteChecksums_vfmt (L : Nat) : (s.noteChecksums L).vfmt = s.vfmt := rfl
@[simp] theorem noteChecksums_vdesc (L : Nat) : (s.noteChecksums L).vdesc = s.vdesc := rfl
@[simp] theorem noteChecksums_fval (L : Nat) : (s.noteChecksums L).fval = s.fval := rfl
@[simp] theorem noteChecksums_vbuf (L : Nat) : (s.noteChecksums L).vbuf = s.vbuf := rfl
@[simp] theorem noteChecksums_keystream (L : Nat) : (s.noteChecksums L).keystream = s.keystream := rfl
@[simp] theorem noteChecksums_crcRem (L : Nat) : (s.noteChecksums L).crcRem = s.packetCrc L := rfl
@[simp] theorem noteChecksums_cursor (L : Nat) : (s.noteChecksums L).cursor = s.cursor := rfl
@[simp] theorem noteChecksums_mem (L : Nat) : (s.noteChecksums L).mem = s.mem := rfl
@[simp] theorem noteChecksums_epoch (L : Nat) : (s.noteChecksums L).epoch = s.epoch := rfl
@[simp] theorem noteChecksums_draws (L : Nat) : (s.noteChecksums L).draws = s.draws := rfl
@[simp] theorem noteChecksums_rst (L : Nat) : (s.noteChecksums L).rst = s.rst := rfl
@[simp] theorem noteChecksums_rdata (L : Nat) : (s.noteChecksums L).rdata = s.rdata := rfl
@[simp] theorem noteChecksums_events (L : Nat) : (s.noteChecksums L).events = s.events := rfl
@[simp] theorem noteChecksums_busy (L : Nat) : (s.noteChecksums L).busy = s.busy := rfl
@[simp] theorem noteChecksums_maxRecords (L : Nat) : (s.noteChecksums L).maxRecords = s.maxRecords := rfl
@[simp] theorem noteChecksums_byteAt (L : Nat) (x : Nat) : (s.noteChecksums L).byteAt x = s.byteAt x := rfl
@[simp] theorem noteChecksums_pbuf (L : Nat) (x : Nat) : (s.noteChecksums L).pbuf x = s.pbuf x := rfl
@[simp] theorem noteChecksums_pbufRead (L : Nat) (x y : Nat) : (s.noteChecksums L).pbufRead x y = s.pbufRead x y := rfl
@[simp] theorem noteChecksums_recEntry (L : Nat) (x : Nat) : (s.noteChecksums L).recEntry x = s.recEntry x := rfl
@[simp] theorem noteChecksums_storedBits (L : Nat) (x : Nat) : (s.noteChecksums L).storedBits x = s.storedBits x := rfl

/-! ### readHeader -/

@[simp] theorem readHeader_bufBytes : s.readHeader.bufBytes = s.bufBytes := rfl
@[simp] theorem readHeader_ie : s.readHeader.ie = s.ie := rfl
@[simp] theorem readHeader_done : s.readHeader.done = s.done := rfl
@[simp] theorem readHeader_err : s.readHeader.err = s.err := rfl
@[simp] theorem readHeader_sat : s.readHeader.sat = s.sat := rfl
@[simp] theorem readHeader_wbusy : s.readHeader.wbusy = s.wbusy := rfl
@[simp] theorem readHeader_latch : s.readHeader.latch = s.latch := rfl
@[simp] theorem readHeader_eid : s.readHeader.eid = s.eid := rfl
@[simp] theorem readHeader_pip : s.readHeader.pip = s.pip := rfl
@[simp] theorem readHeader_len : s.readHeader.len = s.len := rfl
@[simp] theorem readHeader_lfsr : s.readHeader.lfsr = s.lfsr := rfl
@[simp] theorem readHeader_crc : s.readHeader.crc = s.crc := rfl
@[simp] theorem readHeader_crcrx : s.readHeader.crcrx = s.crcrx := rfl
@[simp] theorem readHeader_manu : s.readHeader.manu = s.pbuf 0 := rfl
@[simp] theorem readHeader_prod : s.readHeader.prod = s.pbuf 1 := rfl
@[simp] theorem readHeader_sensor : s.readHeader.sensor = BitVec.ofNat 24 (beNat (s.pbufRead 4 3)) := rfl
@[simp] theorem readHeader_nrec : s.readHeader.nrec = s.nrec := rfl
@[simp] theorem readHeader_tfmt : s.readHeader.tfmt = s.tfmt := rfl
@[simp] theorem readHeader_vfmt : s.readHeader.vfmt = s.vfmt := rfl
@[simp] theorem readHeader_vdesc : s.readHeader.vdesc = s.vdesc := rfl
@[simp] theorem readHeader_fval : s.readHeader.fval = s.fval := rfl
@[simp] theorem readHeader_vbuf : s.readHeader.vbuf = s.vbuf := rfl
@[simp] theorem readHeader_keystream : s.readHeader.keystream = s.keystream := rfl
@[simp] theorem readHeader_crcRem : s.readHeader.crcRem = s.crcRem := rfl
@[simp] theorem readHeader_cursor : s.readHeader.cursor = s.cursor := rfl
@[simp] theorem readHeader_mem : s.readHeader.mem = s.mem := rfl
@[simp] theorem readHeader_epoch : s.readHeader.epoch = s.epoch := rfl
@[simp] theorem readHeader_draws : s.readHeader.draws = s.draws := rfl
@[simp] theorem readHeader_rst : s.readHeader.rst = s.rst := rfl
@[simp] theorem readHeader_rdata : s.readHeader.rdata = s.rdata := rfl
@[simp] theorem readHeader_events : s.readHeader.events = s.events := rfl
@[simp] theorem readHeader_busy : s.readHeader.busy = s.busy := rfl
@[simp] theorem readHeader_maxRecords : s.readHeader.maxRecords = s.maxRecords := rfl
@[simp] theorem readHeader_byteAt (x : Nat) : s.readHeader.byteAt x = s.byteAt x := rfl
@[simp] theorem readHeader_pbuf (x : Nat) : s.readHeader.pbuf x = s.pbuf x := rfl
@[simp] theorem readHeader_pbufRead (x y : Nat) : s.readHeader.pbufRead x y = s.pbufRead x y := rfl
@[simp] theorem readHeader_recEntry (x : Nat) : s.readHeader.recEntry x = s.recEntry x := rfl
@[simp] theorem readHeader_storedBits (x : Nat) : s.readHeader.storedBits x = s.storedBits x := rfl

/-! ### resetRegs -/

@[simp] theorem resetRegs_bufBytes : s.resetRegs.bufBytes = s.bufBytes := rfl
@[simp] theorem resetRegs_ie : s.resetRegs.ie = false := rfl
@[simp] theorem resetRegs_done : s.resetRegs.done = false := rfl
@[simp] theorem resetRegs_err : s.resetRegs.err = .ok := rfl
@[simp] theorem resetRegs_sat : s.resetRegs.sat = false := rfl
@[simp] theorem resetRegs_wbusy : s.resetRegs.wbusy = false := rfl
@[simp] theorem resetRegs_latch : s.resetRegs.latch = none := rfl
@[simp] theorem resetRegs_eid : s.resetRegs.eid = 0xF2#8 := rfl
@[simp] theorem resetRegs_pip : s.resetRegs.pip = 0#16 := rfl
@[simp] theorem resetRegs_len : s.resetRegs.len = 0#16 := rfl
@[simp] theorem resetRegs_lfsr : s.resetRegs.lfsr = 0#16 := rfl
@[simp] theorem resetRegs_crc : s.resetRegs.crc = 0#16 := rfl
@[simp] theorem resetRegs_crcrx : s.resetRegs.crcrx = 0#16 := rfl
@[simp] theorem resetRegs_manu : s.resetRegs.manu = 0#8 := rfl
@[simp] theorem resetRegs_prod : s.resetRegs.prod = 0#8 := rfl
@[simp] theorem resetRegs_sensor : s.resetRegs.sensor = 0#24 := rfl
@[simp] theorem resetRegs_nrec : s.resetRegs.nrec = 0#16 := rfl
@[simp] theorem resetRegs_tfmt : s.resetRegs.tfmt = 0x92#8 := rfl
@[simp] theorem resetRegs_vfmt : s.resetRegs.vfmt = 0x22#8 := rfl
@[simp] theorem resetRegs_vdesc : s.resetRegs.vdesc = 0#8 := rfl
@[simp] theorem resetRegs_fval : s.resetRegs.fval = 0#64 := rfl
@[simp] theorem resetRegs_vbuf : s.resetRegs.vbuf = 0#128 := rfl
@[simp] theorem resetRegs_keystream : s.resetRegs.keystream = 0#16 := rfl
@[simp] theorem resetRegs_crcRem : s.resetRegs.crcRem = 0#16 := rfl
@[simp] theorem resetRegs_cursor : s.resetRegs.cursor = 0 := rfl
@[simp] theorem resetRegs_mem : s.resetRegs.mem = s.mem := rfl
@[simp] theorem resetRegs_epoch : s.resetRegs.epoch = s.epoch := rfl
@[simp] theorem resetRegs_draws : s.resetRegs.draws = s.draws := rfl
@[simp] theorem resetRegs_rst : s.resetRegs.rst = s.rst := rfl
@[simp] theorem resetRegs_rdata : s.resetRegs.rdata = s.rdata := rfl
@[simp] theorem resetRegs_events : s.resetRegs.events = s.events := rfl
@[simp] theorem resetRegs_maxRecords : s.resetRegs.maxRecords = s.maxRecords := rfl
@[simp] theorem resetRegs_byteAt (x : Nat) : s.resetRegs.byteAt x = s.byteAt x := rfl
@[simp] theorem resetRegs_pbuf (x : Nat) : s.resetRegs.pbuf x = s.pbuf x := rfl
@[simp] theorem resetRegs_pbufRead (x y : Nat) : s.resetRegs.pbufRead x y = s.pbufRead x y := rfl
@[simp] theorem resetRegs_recEntry (x : Nat) : s.resetRegs.recEntry x = s.recEntry x := rfl
@[simp] theorem resetRegs_storedBits (x : Nat) : s.resetRegs.storedBits x = s.storedBits x := rfl

/-! ### hardReset -/

@[simp] theorem hardReset_bufBytes : s.hardReset.bufBytes = s.bufBytes := rfl
@[simp] theorem hardReset_ie : s.hardReset.ie = false := rfl
@[simp] theorem hardReset_done : s.hardReset.done = false := rfl
@[simp] theorem hardReset_err : s.hardReset.err = .ok := rfl
@[simp] theorem hardReset_sat : s.hardReset.sat = false := rfl
@[simp] theorem hardReset_wbusy : s.hardReset.wbusy = false := rfl
@[simp] theorem hardReset_latch : s.hardReset.latch = none := rfl
@[simp] theorem hardReset_eid : s.hardReset.eid = 0xF2#8 := rfl
@[simp] theorem hardReset_pip : s.hardReset.pip = 0#16 := rfl
@[simp] theorem hardReset_len : s.hardReset.len = 0#16 := rfl
@[simp] theorem hardReset_lfsr : s.hardReset.lfsr = 0#16 := rfl
@[simp] theorem hardReset_crc : s.hardReset.crc = 0#16 := rfl
@[simp] theorem hardReset_crcrx : s.hardReset.crcrx = 0#16 := rfl
@[simp] theorem hardReset_manu : s.hardReset.manu = 0#8 := rfl
@[simp] theorem hardReset_prod : s.hardReset.prod = 0#8 := rfl
@[simp] theorem hardReset_sensor : s.hardReset.sensor = 0#24 := rfl
@[simp] theorem hardReset_nrec : s.hardReset.nrec = 0#16 := rfl
@[simp] theorem hardReset_tfmt : s.hardReset.tfmt = 0x92#8 := rfl
@[simp] theorem hardReset_vfmt : s.hardReset.vfmt = 0x22#8 := rfl
@[simp] theorem hardReset_vdesc : s.hardReset.vdesc = 0#8 := rfl
@[simp] theorem hardReset_fval : s.hardReset.fval = 0#64 := rfl
@[simp] theorem hardReset_vbuf : s.hardReset.vbuf = 0#128 := rfl
@[simp] theorem hardReset_keystream : s.hardReset.keystream = 0#16 := rfl
@[simp] theorem hardReset_crcRem : s.hardReset.crcRem = 0#16 := rfl
@[simp] theorem hardReset_cursor : s.hardReset.cursor = 0 := rfl
@[simp] theorem hardReset_mem : s.hardReset.mem = [] := rfl
@[simp] theorem hardReset_epoch : s.hardReset.epoch = s.draws := rfl
@[simp] theorem hardReset_draws : s.hardReset.draws = s.draws + 1 := rfl
@[simp] theorem hardReset_rst : s.hardReset.rst = true := rfl
@[simp] theorem hardReset_rdata : s.hardReset.rdata = s.rdata := rfl
@[simp] theorem hardReset_events : s.hardReset.events = s.events := rfl
@[simp] theorem hardReset_maxRecords : s.hardReset.maxRecords = s.maxRecords := rfl
@[simp] theorem hardReset_storedBits (x : Nat) : s.hardReset.storedBits x = s.storedBits x := rfl

/-! ### placeCommand -/

@[simp] theorem placeCommand_bufBytes (w : Word) : (s.placeCommand w).bufBytes = s.bufBytes := rfl
@[simp] theorem placeCommand_ie (w : Word) : (s.placeCommand w).ie = s.ie := rfl
@[simp] theorem placeCommand_done (w : Word) : (s.placeCommand w).done = false := rfl
@[simp] theorem placeCommand_err (w : Word) : (s.placeCommand w).err = .ok := rfl
@[simp] theorem placeCommand_sat (w : Word) : (s.placeCommand w).sat = s.sat := rfl
@[simp] theorem placeCommand_wbusy (w : Word) : (s.placeCommand w).wbusy = s.wbusy := rfl
@[simp] theorem placeCommand_latch (w : Word) : (s.placeCommand w).latch = some w := rfl
@[simp] theorem placeCommand_eid (w : Word) : (s.placeCommand w).eid = s.eid := rfl
@[simp] theorem placeCommand_pip (w : Word) : (s.placeCommand w).pip = s.pip := rfl
@[simp] theorem placeCommand_len (w : Word) : (s.placeCommand w).len = s.len := rfl
@[simp] theorem placeCommand_lfsr (w : Word) : (s.placeCommand w).lfsr = s.lfsr := rfl
@[simp] theorem placeCommand_crc (w : Word) : (s.placeCommand w).crc = s.crc := rfl
@[simp] theorem placeCommand_crcrx (w : Word) : (s.placeCommand w).crcrx = s.crcrx := rfl
@[simp] theorem placeCommand_manu (w : Word) : (s.placeCommand w).manu = s.manu := rfl
@[simp] theorem placeCommand_prod (w : Word) : (s.placeCommand w).prod = s.prod := rfl
@[simp] theorem placeCommand_sensor (w : Word) : (s.placeCommand w).sensor = s.sensor := rfl
@[simp] theorem placeCommand_nrec (w : Word) : (s.placeCommand w).nrec = s.nrec := rfl
@[simp] theorem placeCommand_tfmt (w : Word) : (s.placeCommand w).tfmt = s.tfmt := rfl
@[simp] theorem placeCommand_vfmt (w : Word) : (s.placeCommand w).vfmt = s.vfmt := rfl
@[simp] theorem placeCommand_vdesc (w : Word) : (s.placeCommand w).vdesc = s.vdesc := rfl
@[simp] theorem placeCommand_fval (w : Word) : (s.placeCommand w).fval = s.fval := rfl
@[simp] theorem placeCommand_vbuf (w : Word) : (s.placeCommand w).vbuf = s.vbuf := rfl
@[simp] theorem placeCommand_keystream (w : Word) : (s.placeCommand w).keystream = s.keystream := rfl
@[simp] theorem placeCommand_crcRem (w : Word) : (s.placeCommand w).crcRem = s.crcRem := rfl
@[simp] theorem placeCommand_cursor (w : Word) : (s.placeCommand w).cursor = s.cursor := rfl
@[simp] theorem placeCommand_mem (w : Word) : (s.placeCommand w).mem = s.mem := rfl
@[simp] theorem placeCommand_epoch (w : Word) : (s.placeCommand w).epoch = s.epoch := rfl
@[simp] theorem placeCommand_draws (w : Word) : (s.placeCommand w).draws = s.draws := rfl
@[simp] theorem placeCommand_rst (w : Word) : (s.placeCommand w).rst = false := rfl
@[simp] theorem placeCommand_rdata (w : Word) : (s.placeCommand w).rdata = s.rdata := rfl
@[simp] theorem placeCommand_events (w : Word) : (s.placeCommand w).events = .engine :: s.events := rfl
@[simp] theorem placeCommand_maxRecords (w : Word) : (s.placeCommand w).maxRecords = s.maxRecords := rfl
@[simp] theorem placeCommand_byteAt (w : Word) (x : Nat) : (s.placeCommand w).byteAt x = s.byteAt x := rfl
@[simp] theorem placeCommand_pbuf (w : Word) (x : Nat) : (s.placeCommand w).pbuf x = s.pbuf x := rfl
@[simp] theorem placeCommand_pbufRead (w : Word) (x y : Nat) : (s.placeCommand w).pbufRead x y = s.pbufRead x y := rfl
@[simp] theorem placeCommand_recEntry (w : Word) (x : Nat) : (s.placeCommand w).recEntry x = s.recEntry x := rfl
@[simp] theorem placeCommand_storedBits (w : Word) (x : Nat) : (s.placeCommand w).storedBits x = s.storedBits x := rfl

@[simp] theorem failParse_fst (code : ErrCode) : (s.failParse code).1 = s.setNrec 0#16 := rfl
@[simp] theorem failParse_snd (code : ErrCode) : (s.failParse code).2 = code := rfl

end Sys2Proof.Laws
end

