-- ==== Sys2Proof/Laws/Ops.lean ====
section
/-! SUPPORT. What each shared operation over the buffers does: the bytes it changes, and that every other byte is as it
was. -/

namespace Sys2Proof.Laws

open Sys2Proof.Machine

variable {s t : State}

/-! ## Views of the buffers -/

/-- The view of a byte depends on the memory and the power-on draw alone. -/
theorem byteAt_congr (hm : t.mem = s.mem) (he : t.epoch = s.epoch) (x : Nat) : t.byteAt x = s.byteAt x := by
  simp [State.byteAt, hm, he]

@[simp] theorem pbufRead_length (s : State) (i n : Nat) : (s.pbufRead i n).length = n := by simp [State.pbufRead]

theorem pbufRead_getElem {i n j : Nat} (h : j < (s.pbufRead i n).length) : (s.pbufRead i n)[j] = s.pbuf (i + j) := by
  simp [State.pbufRead]

@[simp] theorem pbufRead_zero (s : State) (i : Nat) : s.pbufRead i 0 = [] := rfl

/-- Two states that agree on PBUF[i..i+n) read the same bytes there. -/
theorem pbufRead_congr {i n : Nat} (h : ∀ j < n, t.pbuf (i + j) = s.pbuf (i + j)) : t.pbufRead i n = s.pbufRead i n := by
  simpa [State.pbufRead] using h

theorem pbufRead_append (s : State) (i n k : Nat) : s.pbufRead i (n + k) = s.pbufRead i n ++ s.pbufRead (i + n) k := by
  simp [State.pbufRead, List.range_add, Function.comp_def, Nat.add_assoc]

theorem pbufRead_succ (s : State) (i n : Nat) : s.pbufRead i (n + 1) = s.pbuf i :: s.pbufRead (i + 1) n := by
  rw [Nat.add_comm n 1, pbufRead_append]
  simp [State.pbufRead]

/-! ## MemWrite -/

/-- MemWrite: the byte at every offset afterwards. -/
theorem byteAt_pbufWrite (s : State) (i : Nat) (bs : List Byte) (x : Nat) :
    (s.pbufWrite i bs).byteAt x =
      if h : Config.pbufBase + i ≤ x ∧ x < Config.pbufBase + i + bs.length then bs[x - (Config.pbufBase + i)]'(by omega)
      else s.byteAt x := by
  simp only [State.byteAt, pbufWrite_mem, pbufWrite_epoch, read_writeAll]
  split
  · rename_i h
    rw [List.getElem?_eq_getElem (by omega)]; rfl
  · rfl

theorem byteAt_pbufWrite_outside {i x : Nat} {bs : List Byte}
    (h : x < Config.pbufBase + i ∨ Config.pbufBase + i + bs.length ≤ x) :
    (s.pbufWrite i bs).byteAt x = s.byteAt x := by
  rw [byteAt_pbufWrite, dif_neg (by omega)]

theorem pbuf_pbufWrite (s : State) (i : Nat) (bs : List Byte) (x : Nat) :
    (s.pbufWrite i bs).pbuf x = if h : i ≤ x ∧ x < i + bs.length then bs[x - i]'(by omega) else s.pbuf x := by
  simp only [State.pbuf, byteAt_pbufWrite]
  by_cases h : i ≤ x ∧ x < i + bs.length
  · rw [dif_pos (by omega), dif_pos h]
    congr 1; omega
  · rw [dif_neg (by omega), dif_neg h]

/-- Reading back what MemWrite wrote. -/
theorem pbufRead_pbufWrite (s : State) (i : Nat) (bs : List Byte) :
    (s.pbufWrite i bs).pbufRead i bs.length = bs := by
  refine List.ext_getElem (by simp) fun j h1 h2 => ?_
  rw [pbufRead_getElem, pbuf_pbufWrite, dif_pos (by omega)]
  congr 1; omega

/-- A run of PBUF inside the run written. -/
theorem pbufRead_pbufWrite_inside (s : State) (i j n : Nat) (bs : List Byte) (h : j + n ≤ bs.length) :
    (s.pbufWrite i bs).pbufRead (i + j) n = (bs.drop j).take n := by
  refine List.ext_getElem (by simp; omega) fun k h1 h2 => ?_
  rw [pbufRead_getElem, pbuf_pbufWrite, dif_pos (by simp at h1; omega)]
  simp only [List.getElem_take, List.getElem_drop]
  congr 1; omega

/-! ## RECTAB entries -/

/-- The bytes of a record entry's write, by offset in the entry. -/
def entryBytes (e : Entry) : List Byte := (e.raw ++ List.replicate 16 0x00#8).take 16 ++ toLE 8 e.fval.toNat

@[simp] theorem toLE_length (len n : Nat) : (toLE len n).length = len := by
  induction len generalizing n with
  | zero => rfl
  | succ len ih => simp [toLE, ih]

@[simp] theorem entryBytes_length (e : Entry) : (entryBytes e).length = 24 := by
  simp [entryBytes]

/-- A record write leaves every byte outside its entry's stored bytes as it was. -/
theorem byteAt_recWrite_outside {k x : Nat} {e : Entry} (h : x < recAddr k ∨ recAddr k + 28 ≤ x) :
    (s.recWrite k e).byteAt x = s.byteAt x := by
  have h2 := entryBytes_length e
  simp only [entryBytes] at h2
  simp only [State.byteAt, recWrite_mem, recWrite_epoch]
  rw [read_writeAll_outside (by rw [h2]; omega), read_writeAll_outside (by simp; omega)]

/-- A record write reaches RECTAB only, so PBUF below it stays. -/
theorem pbuf_recWrite {k x : Nat} {e : Entry} (h : Config.pbufBase + x < Config.recBase) :
    (s.recWrite k e).pbuf x = s.pbuf x :=
  byteAt_recWrite_outside (.inl (by simp only [recAddr]; omega))

theorem pbufRead_recWrite {k i n : Nat} {e : Entry} (h : Config.pbufBase + i + n ≤ Config.recBase) :
    (s.recWrite k e).pbufRead i n = s.pbufRead i n :=
  pbufRead_congr fun j hj => pbuf_recWrite (by omega)

theorem byteAt_recWrite_low {k x : Nat} {e : Entry} (h : x < 3) :
    (s.recWrite k e).byteAt (recAddr k + x) = [e.kind.setWidth 8, e.pid, e.tdesc][x] := by
  have h2 := entryBytes_length e
  simp only [entryBytes] at h2
  simp only [State.byteAt, recWrite_mem, recWrite_epoch]
  rw [read_writeAll_outside (.inl (by omega)), read_writeAll, if_pos (by simp; omega),
    show recAddr k + x - recAddr k = x by omega, List.getElem?_eq_getElem (by simpa using h)]
  rfl

theorem byteAt_recWrite_high {k x : Nat} {e : Entry} (h : x < 24) :
    (s.recWrite k e).byteAt (recAddr k + 4 + x) = (entryBytes e)[x]'(by simpa using h) := by
  have h2 := entryBytes_length e
  simp only [entryBytes] at h2 ⊢
  simp only [State.byteAt, recWrite_mem, recWrite_epoch]
  rw [read_writeAll, if_pos (by rw [h2]; omega), show recAddr k + 4 + x - (recAddr k + 4) = x by omega,
    List.getElem?_eq_getElem (by rw [h2]; exact h)]
  rfl

theorem recMask_full {o : Nat} (h : 4 ≤ o) (h' : o < 28) : recMask o = 0xFF#8 := by
  simp [recMask, show o ≠ 0 by omega, show o ≠ 3 by omega, h']

theorem and_full (b : Byte) : b &&& 0xFF#8 = b := by
  rw [show (0xFF#8 : Byte) = BitVec.allOnes 8 from rfl, BitVec.and_allOnes]

theorem leNat_toLE (len n : Nat) : leNat (toLE len n) = n % 2 ^ (8 * len) := by
  induction len generalizing n with
  | zero => simp [toLE, leNat, Nat.mod_one]
  | succ len ih =>
    simp only [toLE, leNat, ih, BitVec.toNat_ofNat]
    rw [show 8 * (len + 1) = 8 + 8 * len by ring, pow_add, Nat.mod_mul]
    norm_num

/-- RECTAB[k] <- e, then reading the entry back: RAW comes back as 16 bytes, padded with zeros. -/
theorem recEntry_recWrite_same (s : State) (k : Nat) (e : Entry) :
    (s.recWrite k e).recEntry k = { e with raw := (e.raw ++ List.replicate 16 0x00#8).take 16 } := by
  have hb : ∀ x, x < 24 → (s.recWrite k e).recByte k (4 + x) = (entryBytes e)[x]! := by
    intro x hx
    rw [State.recByte, recMask_full (by omega) (by omega), and_full, ← Nat.add_assoc, byteAt_recWrite_high hx,
      getElem!_pos _ _ (by simpa using hx)]
  have hl : ((e.raw ++ List.replicate 16 0x00#8).take 16).length = 16 := by simp
  have hraw : (s.recWrite k e).recBytes k 4 16 = (e.raw ++ List.replicate 16 0x00#8).take 16 := by
    refine List.ext_getElem (by simp [State.recBytes]) fun j h1 h2 => ?_
    have hj : j < 16 := by simpa [State.recBytes] using h1
    simp only [State.recBytes, List.getElem_map, List.getElem_range]
    rw [hb j (by omega), getElem!_pos _ _ (by simp; omega)]
    simp only [entryBytes]
    rw [List.getElem_append_left (by omega)]
  have hf : (s.recWrite k e).recBytes k 20 8 = toLE 8 e.fval.toNat := by
    refine List.ext_getElem (by simp [State.recBytes]) fun j h1 h2 => ?_
    have hj : j < 8 := by simpa [State.recBytes] using h1
    simp only [State.recBytes, List.getElem_map, List.getElem_range]
    rw [show 20 + j = 4 + (16 + j) by omega, hb (16 + j) (by omega), getElem!_pos _ _ (by simp; omega)]
    simp only [entryBytes]
    rw [List.getElem_append_right (by omega)]
    congr 1; omega
  have h0 := byteAt_recWrite_low (s := s) (k := k) (e := e) (x := 0) (by omega)
  have h1 := byteAt_recWrite_low (s := s) (k := k) (e := e) (x := 1) (by omega)
  have h2 := byteAt_recWrite_low (s := s) (k := k) (e := e) (x := 2) (by omega)
  simp only [State.recEntry, hraw, hf, State.recByte, h0, h1, h2, leNat_toLE]
  have hk : (BitVec.setWidth 8 e.kind &&& recMask 0).extractLsb' 0 3 = e.kind := by
    ext i hi
    interval_cases i <;> simp [recMask]
  have h64 : BitVec.ofNat 64 (e.fval.toNat % 2 ^ (8 * 8)) = e.fval := by
    rw [Nat.mod_eq_of_lt e.fval.isLt]
    exact BitVec.ofNat_toNat 64 e.fval |>.trans (BitVec.setWidth_eq _)
  have m1 : recMask 1 = 0xFF#8 := rfl
  have m2 : recMask 2 = 0xFF#8 := rfl
  simp only [List.getElem_cons_zero, List.getElem_cons_succ, hk, h64, m1, m2, and_full]

/-- A record write leaves every other entry as it was. -/
theorem recEntry_recWrite_other {k j : Nat} (h : j ≠ k) (e : Entry) :
    (s.recWrite k e).recEntry j = s.recEntry j := by
  have hb : ∀ o, o < 28 → (s.recWrite k e).recByte j o = s.recByte j o := by
    intro o ho
    rw [State.recByte, State.recByte, byteAt_recWrite_outside]
    simp only [recAddr]; omega
  have hr : ∀ o n, o + n ≤ 28 → (s.recWrite k e).recBytes j o n = s.recBytes j o n := by
    intro o n hn
    simp only [State.recBytes, List.map_inj_left, List.mem_range]
    exact fun x hx => hb _ (by omega)
  simp [State.recEntry, hb, hr]

/-- An entry read from RECTAB has sixteen RAW bytes. -/
@[simp] theorem recEntry_raw_length (s : State) (k : Nat) : (s.recEntry k).raw.length = 16 := by
  simp [State.recEntry, State.recBytes]

/-! ## Outcomes -/

@[simp] theorem finish_eq (code : ErrCode) (s : State) : finish code s = .next (s.complete code) := rfl
@[simp] theorem raise_eq (code : ErrCode) (s : State) : raise code s = .next (s.complete code) := rfl

/-! ## Bytes with reserved bits -/

/-- Writing one host byte: what every offset holds afterwards. -/
theorem byteAt_putByte (s : State) (a : Nat) (b : Byte) (x : Nat) :
    (s.putByte a b).byteAt x =
      if x = a ∧ s.storedBits a ≠ 0x00#8 then b &&& s.storedBits a else s.byteAt x := by
  unfold State.putByte
  split
  · rename_i h; simp [h]
  · rename_i h
    simp only [State.byteAt, read_write]
    by_cases hx : x = a <;> simp [hx, h]

/-- A host byte write changes the memory and nothing else. -/
theorem putByte_frame (s : State) (a : Nat) (b : Byte) : s.putByte a b = { s with mem := (s.putByte a b).mem } := by
  unfold State.putByte; split <;> rfl

theorem redraw_frame (draw a n : Nat) (s : State) :
    State.redraw draw a n s = { s with mem := (State.redraw draw a n s).mem } := by
  induction n generalizing a s with
  | zero => rfl
  | succ n ih =>
    rw [State.redraw, ih, putByte_frame]

/-- Redrawing a run leaves every byte outside it as it was. -/
theorem byteAt_redraw_outside {draw a n x : Nat} (h : x < a ∨ a + n ≤ x) (s : State) :
    (State.redraw draw a n s).byteAt x = s.byteAt x := by
  induction n generalizing a s with
  | zero => rfl
  | succ n ih => rw [State.redraw, ih (by omega), byteAt_putByte, if_neg (by omega)]

end Sys2Proof.Laws
end

