-- ==== Sys2Proof/Laws/Bus.lean ====
section
/-! SUPPORT. What the host bus, the resets and the memory operations do to the buffers' storage: which bytes change, and
that the stored bytes stay within the implemented ones. -/

namespace Sys2Proof.Laws

open Sys2Proof.Machine

variable {s t : State}

/-! ## Updates of the memory alone -/

/-- `t` is `s` but for its memory. -/
def OnlyMem (s t : State) : Prop := ∃ m, t = { s with mem := m }

theorem onlyMem_trans {r : State} (h1 : OnlyMem r s) (h2 : OnlyMem s t) : OnlyMem r t := by
  obtain ⟨m, rfl⟩ := h1
  obtain ⟨m', rfl⟩ := h2
  exact ⟨m', rfl⟩

/-! ## Storage stays within the implemented bytes -/

/-- What `State.Inv` says of the stored bytes, as a property of the storage and BUF_BYTES. -/
def Stored (s : State) : Prop :=
  s.mem.wf ∧ ∀ c ∈ s.mem, s.storedBits c.1 ≠ 0x00#8 ∧ c.2 &&& s.storedBits c.1 = c.2

/-- The bits that hold storage depend on BUF_BYTES alone. -/
theorem storedBits_congr (h : t.bufBytes = s.bufBytes) (a : Nat) : t.storedBits a = s.storedBits a := by
  unfold State.storedBits State.maxRecords
  rw [h]

theorem stored_congr (hm : t.mem = s.mem) (hb : t.bufBytes = s.bufBytes) (h : Stored s) : Stored t := by
  refine ⟨hm ▸ h.1, fun c hc => ?_⟩
  rw [storedBits_congr hb]
  exact h.2 c (hm ▸ hc)

/-- After a hardware reset nothing is listed, which is canonical. -/
theorem reset_mem_wf : State.reset.mem.wf := List.Pairwise.nil

theorem hardReset_stored (s : State) : Stored s.hardReset := ⟨List.Pairwise.nil, fun _ h => nomatch h⟩

theorem putByte_stored (h : Stored s) (a : Nat) (b : Byte) : Stored (s.putByte a b) := by
  unfold State.putByte
  split
  · exact h
  · rename_i hne
    refine ⟨write_wf h.1, fun c hc => ?_⟩
    rcases mem_write hc with rfl | hc
    · refine ⟨hne, ?_⟩
      show b &&& s.storedBits a &&& s.storedBits a = b &&& s.storedBits a
      rw [BitVec.and_assoc, BitVec.and_self]
    · exact h.2 c hc

theorem redraw_stored (draw a n : Nat) (h : Stored s) : Stored (State.redraw draw a n s) := by
  induction n generalizing a s with
  | zero => exact h
  | succ n ih => exact ih _ (putByte_stored h _ _)

theorem storedBits_pbuf {i : Nat} (h : i < s.bufBytes) : s.storedBits (Config.pbufBase + i) = 0xFF#8 := by
  rw [State.storedBits, if_pos (by omega)]

/-- MemWrite inside PBUF keeps the storage within the implemented bytes. -/
theorem pbufWrite_stored {i : Nat} {bs : List Byte} (hfit : i + bs.length ≤ s.bufBytes) (h : Stored s) :
    Stored (s.pbufWrite i bs) := by
  refine ⟨writeAll_wf h.1 bs, fun c hc => ?_⟩
  rw [storedBits_congr (t := s.pbufWrite i bs) (s := s) rfl]
  rcases mem_writeAll hc with ⟨j, hj, rfl⟩ | hc
  · rw [show Config.pbufBase + i + j = Config.pbufBase + (i + j) by omega, storedBits_pbuf (by omega)]
    exact ⟨by decide, and_full _⟩
  · exact h.2 c hc

theorem storedBits_rec {k o : Nat} (hb : s.bufBytes ≤ Config.maxBufBytes) (hk : k < s.maxRecords) (ho : o < 32) :
    s.storedBits (recAddr k + o) = recMask o := by
  have h1 : Config.pbufBase = 4096 := rfl
  have h2 : Config.recBase = 65536 := rfl
  have h3 : Config.maxBufBytes = 4096 := rfl
  have h4 : recAddr k = Config.recBase + 32 * k := rfl
  rw [State.storedBits, if_neg (by omega), if_pos (by omega), show (recAddr k + o - Config.recBase) % 32 = o by omega]

/-- A record write at an entry of the table keeps the storage within the implemented bytes. -/
theorem recWrite_stored {k : Nat} {e : Entry} (hb : s.bufBytes ≤ Config.maxBufBytes) (hk : k < s.maxRecords)
    (h : Stored s) : Stored (s.recWrite k e) := by
  have hl := entryBytes_length e
  refine ⟨writeAll_wf (writeAll_wf h.1 _) _, fun c hc => ?_⟩
  rw [storedBits_congr (t := s.recWrite k e) (s := s) rfl]
  rcases mem_writeAll hc with ⟨j, hj, rfl⟩ | hc
  · have hj' : j < 24 := by
      have : j < (entryBytes e).length := hj
      omega
    rw [show recAddr k + 4 + j = recAddr k + (4 + j) by omega, storedBits_rec hb hk (by omega),
      recMask_full (by omega) (by omega)]
    exact ⟨by decide, and_full _⟩
  · rcases mem_writeAll hc with ⟨j, hj, rfl⟩ | hc
    · have hj' : j < 3 := by simpa using hj
      rw [storedBits_rec hb hk (by omega)]
      interval_cases j
      · refine ⟨by decide, ?_⟩
        simp only [List.getElem_cons_zero]
        ext i hi
        interval_cases i <;> simp [recMask]
      · exact ⟨by decide, and_full _⟩
      · exact ⟨by decide, and_full _⟩
    · exact h.2 c hc

/-! ## Aborting and resetting -/

theorem onlyMem_foldl_redraw (draw : Nat) (rs : List (Nat × Nat)) (s : State) :
    OnlyMem s (rs.foldl (fun t r => State.redraw draw r.1 r.2 t) s) := by
  induction rs generalizing s with
  | nil => exact ⟨_, rfl⟩
  | cons r rs ih => exact onlyMem_trans ⟨_, redraw_frame _ _ _ s⟩ (ih _)

/-- An abort changes the buffers and the draw counter (R343). -/
theorem abort_frame (s : State) : s.abort = { s with mem := s.abort.mem, draws := s.abort.draws } := by
  unfold State.abort
  split
  · rfl
  · rename_i i _
    obtain ⟨m, hm⟩ := onlyMem_foldl_redraw s.draws (s.writeSet i) s
    rw [hm]

theorem abort_draws_ge (s : State) : s.draws ≤ s.abort.draws := by
  unfold State.abort
  split
  · exact le_rfl
  · exact Nat.le_succ _

theorem abort_stored (h : Stored s) : Stored s.abort := by
  unfold State.abort
  split
  · exact h
  · rename_i i hi
    refine stored_congr (s := (s.writeSet i).foldl (fun t r => State.redraw s.draws r.1 r.2 t) s) rfl rfl ?_
    clear hi
    generalize s.writeSet i = rs
    generalize s.draws = d
    induction rs generalizing s with
    | nil => exact h
    | cons r rs ih => exact ih (redraw_stored _ _ _ h)

/-- An abort leaves every byte outside the running command's write set as it was (R343). -/
theorem byteAt_abort_outside {x : Nat} (h : ∀ i, s.running = some i → ∀ r ∈ s.writeSet i, x < r.1 ∨ r.1 + r.2 ≤ x) :
    s.abort.byteAt x = s.byteAt x := by
  unfold State.abort
  split
  · rfl
  · rename_i i hi
    replace h := h i hi
    refine (byteAt_congr (s := (s.writeSet i).foldl (fun t r => State.redraw s.draws r.1 r.2 t) s) rfl rfl x).trans ?_
    generalize s.writeSet i = rs at h
    generalize s.draws = d
    clear hi
    induction rs generalizing s with
    | nil => rfl
    | cons r rs ih =>
      rw [List.foldl_cons, ih (fun r hr => h r (by simp [hr])), byteAt_redraw_outside (h r (by simp))]

/-- A soft reset: the buffers as the abort leaves them, every register as reset (R342). -/
theorem softReset_eq (s : State) :
    s.softReset =
      { State.reset with
        bufBytes := s.bufBytes, mem := s.abort.mem, epoch := s.epoch, draws := s.abort.draws, rst := s.rst
        rdata := s.rdata, events := s.events } := by
  unfold State.softReset State.resetRegs
  rw [abort_frame]

/-! ## Host accesses -/

/-- A host word write to a buffer window changes the memory and nothing else. -/
theorem writeBuffer_frame (a : Nat) (d : Word) (s : State) :
    s.writeBuffer a d = { s with mem := (s.writeBuffer a d).mem } := by
  have h : OnlyMem s (s.writeBuffer a d) :=
    onlyMem_trans (onlyMem_trans (onlyMem_trans ⟨_, putByte_frame s _ _⟩ ⟨_, putByte_frame _ _ _⟩)
      ⟨_, putByte_frame _ _ _⟩) ⟨_, putByte_frame _ _ _⟩
  obtain ⟨m, hm⟩ := h
  rw [hm]

theorem writeBuffer_stored (a : Nat) (d : Word) (h : Stored s) : Stored (s.writeBuffer a d) :=
  putByte_stored (putByte_stored (putByte_stored (putByte_stored h _ _) _ _) _ _) _ _

/-- A host read changes the read data and the draw counter (R91). -/
theorem hostRead_frame (addr : BusAddr) (s : State) :
    s.hostRead addr = { s with rdata := (s.hostRead addr).rdata, draws := (s.hostRead addr).draws } := by
  unfold State.hostRead
  split_ifs <;> rfl

theorem hostRead_draws_ge (addr : BusAddr) (s : State) : s.draws ≤ (s.hostRead addr).draws := by
  unfold State.hostRead
  split_ifs
  · exact Nat.le_succ _
  · exact le_rfl
  · exact Nat.le_succ _

/-- An idle host read returns the word at its word offset and changes nothing else (R88, R91). -/
theorem hostRead_idle (h : s.rst = false) (hb : s.busy = false) (addr : BusAddr) :
    s.hostRead addr = { s with rdata := s.readWord (wordOffset addr) } := by
  simp [State.hostRead, h, hb]

/-- While `rst` is asserted a host write is ignored (R340). -/
theorem hostWrite_rst (h : s.rst = true) (addr : BusAddr) (d : Word) : s.hostWrite addr d = s := by
  rw [State.hostWrite, if_pos h]

theorem hostWrite_busy (h : s.rst = false) (hb : s.busy = true) (addr : BusAddr) (d : Word) :
    s.hostWrite addr d = s.writeWhileBusy (wordOffset addr) d := by
  simp [State.hostWrite, h, hb]

theorem hostWrite_idle (h : s.rst = false) (hb : s.busy = false) (addr : BusAddr) (d : Word) :
    s.hostWrite addr d = s.writeWhileIdle (wordOffset addr) d := by
  simp [State.hostWrite, h, hb]

/-- The register window's reserved offsets and the space outside the three windows (R53, R83). -/
theorem locate_unimplemented {a : Nat} (h : (0x60 ≤ a ∧ a < 0x1000) ∨ (0x2000 ≤ a ∧ a < 0x10000)) :
    locate a = .unimplemented := by
  have h1 : Config.regWindow = 256 := rfl
  have h2 : Config.pbufBase = 4096 := rfl
  have h3 : Config.recBase = 65536 := rfl
  unfold locate
  by_cases hw : a < Config.regWindow
  · rw [if_pos hw]
    have hr : regAt a = none := by
      have : 24 ≤ a / 4 := by omega
      unfold regAt
      split <;> first | omega | rfl
    rw [hr]
  · rw [if_neg hw, if_neg (by omega), if_neg (by omega)]

theorem locate_buffer {a : Nat} (h : (0x1000 ≤ a ∧ a < 0x2000) ∨ 0x10000 ≤ a) : locate a = .buffer := by
  have h1 : Config.regWindow = 256 := rfl
  have h2 : Config.pbufBase = 4096 := rfl
  have h3 : Config.recBase = 65536 := rfl
  unfold locate
  rw [if_neg (by omega)]
  by_cases hp : Config.pbufBase ≤ a ∧ a < 0x2000
  · rw [if_pos hp]
  · rw [if_neg hp, if_pos (by omega)]

/-! ## Placing a command -/

/-- The step after `withFetchWord` runs the word placed. -/
theorem step_withFetchWord (s : State) (nbits w : Nat) :
    step (s.withFetchWord nbits w) =
      runCommand (BitVec.ofNat 32 (w % 2 ^ nbits))
        { s.accept (BitVec.ofNat 32 (w % 2 ^ nbits)) with rst := false } := rfl

end Sys2Proof.Laws
end

