-- ==== Sys2Proof/Laws/Codec.lean ====
section
/-! SUPPORT. What the codec functions and procedures do: the keystream, the lengths of encoded values and records, one
record's decoding, and the record scan. -/

namespace Sys2Proof.Laws

open Sys2Proof.Machine

/-! ## Keystream -/

@[simp] theorem ksBytes_length (x : Half) (bs : List Byte) : (ksBytes x bs).1.length = bs.length := by
  induction bs generalizing x with
  | nil => rfl
  | cons b rest ih => simp [ksBytes, ih]

/-- The register after n bytes. -/
theorem ksBytes_last (x : Half) (bs : List Byte) : (ksBytes x bs).2 = ksRounds5^[bs.length] x := by
  induction bs generalizing x with
  | nil => rfl
  | cons b rest ih => simp [ksBytes, ih]

/-- Byte j of the result: data byte j with the state after j + 1 times five rounds. -/
theorem ksBytes_getElem (x : Half) (bs : List Byte) (j : Nat) (h : j < bs.length) :
    (ksBytes x bs).1[j]'(by simpa using h) = loByte (ksRounds5^[j + 1] x) ^^^ bs[j] ^^^ Config.keystreamMask := by
  induction bs generalizing x j with
  | nil => simp at h
  | cons b rest ih =>
    cases j with
    | zero => simp [ksBytes]
    | succ j => simp only [ksBytes, List.getElem_cons_succ]; rw [ih _ j (by simpa using h)]; rfl

/-- ks_apply as one memory write (R155). -/
theorem byteAt_ksApply_outside {s : State} {seed : Half} {a n x : Nat}
    (h : x < Config.pbufBase + a ∨ Config.pbufBase + a + n ≤ x) : (s.ksApply seed a n).byteAt x = s.byteAt x := by
  have : (s.ksApply seed a n).byteAt x = (s.pbufWrite a (ksBytes seed (s.pbufRead a n)).1).byteAt x := rfl
  rw [this, byteAt_pbufWrite_outside (by simpa using h)]

theorem pbufRead_ksApply (s : State) (seed : Half) (a n : Nat) :
    (s.ksApply seed a n).pbufRead a n = (ksBytes seed (s.pbufRead a n)).1 := by
  have h : (s.ksApply seed a n).pbufRead a n = (s.pbufWrite a (ksBytes seed (s.pbufRead a n)).1).pbufRead a n := rfl
  have h2 := pbufRead_pbufWrite s a (ksBytes seed (s.pbufRead a n)).1
  rw [h]; simpa using h2

/-- Five rounds n times over are 5n rounds. -/
theorem iterate_ksRounds5 (n : Nat) (x : Half) : ksRounds5^[n] x = ksRound^[5 * n] x := by
  rw [Function.iterate_mul]; rfl

/-- ks_apply changes the range's bytes, LFSR and the keystream register (R155). -/
theorem ksApply_frame (s : State) (seed : Half) (a n : Nat) :
    s.ksApply seed a n =
      { s with
        mem := (s.ksApply seed a n).mem, lfsr := ksRound^[5 * n] seed, keystream := ksRound^[5 * n] seed } := by
  simp only [State.ksApply, ksBytes_last, pbufRead_length, iterate_ksRounds5, State.pbufWrite]

/-- ks_apply's byte j (R154). -/
theorem pbuf_ksApply {s : State} {seed : Half} {a n j : Nat} (h : j < n) :
    (s.ksApply seed a n).pbuf (a + j) =
      loByte (ksRound^[5 * (j + 1)] seed) ^^^ s.pbuf (a + j) ^^^ Config.keystreamMask := by
  have hl : j < ((s.ksApply seed a n).pbufRead a n).length := by simpa using h
  rw [← pbufRead_getElem hl]
  simp only [pbufRead_ksApply]
  rw [ksBytes_getElem _ _ j (by simpa using h), pbufRead_getElem, iterate_ksRounds5]

/-! ## Format codes -/

/-- The high nibble of a typeDesc is its format code (R124). -/
theorem tdFormat_eq (td : Byte) : tdFormat td = formatOf (td.toNat / 16) := by
  have h := td.isLt
  rw [tdFormat, formatCode, BitVec.extractLsb'_toNat, Nat.shiftRight_eq_div_pow]
  congr 1
  omega

/-- The table of R125 for the formats without a sign: each of its codes selects its mantissa bits. -/
theorem tdFormat_of_unsignedCodes {td : Byte} {m : Nat} (h : hasCode unsignedCodes td m) : tdFormat td = .unsigned m := by
  rw [tdFormat_eq]
  simp only [hasCode, unsignedCodes, List.mem_cons, Prod.mk.injEq, List.not_mem_nil, or_false] at h
  rcases h with ⟨hc, rfl⟩ | ⟨hc, rfl⟩ | ⟨hc, rfl⟩ | ⟨hc, rfl⟩ | ⟨hc, rfl⟩ | ⟨hc, rfl⟩ | ⟨hc, rfl⟩ | ⟨hc, rfl⟩ <;>
    rw [hc] <;> rfl

/-- The table of R125 for the signed formats. -/
theorem tdFormat_of_signedCodes {td : Byte} {m : Nat} (h : hasCode signedCodes td m) : tdFormat td = .signed m := by
  rw [tdFormat_eq]
  simp only [hasCode, signedCodes, List.mem_cons, Prod.mk.injEq, List.not_mem_nil, or_false] at h
  rcases h with ⟨hc, rfl⟩ | ⟨hc, rfl⟩ | ⟨hc, rfl⟩ | ⟨hc, rfl⟩ <;> rw [hc] <;> rfl

/-- Code 0x7 is decimal text (R125). -/
theorem tdFormat_decimal {td : Byte} (h : td.toNat / 16 = 0x7) : tdFormat td = .decimal := by rw [tdFormat_eq, h]; rfl

/-! ## Lengths -/

@[simp] theorem toBE_length (len n : Nat) : (toBE len n).length = len := by simp [toBE]

@[simp] theorem digitsLE_length (len n : Nat) : (digitsLE len n).length = len := by
  induction len generalizing n with
  | zero => rfl
  | succ len ih => simp [digitsLE, ih]

@[simp] theorem toDecimal_length (len n : Nat) : (toDecimal len n).length = len := by simp [toDecimal]

@[simp] theorem putSign_length (neg : Bool) (v : List Byte) : (putSign neg v).length = v.length := by
  cases v <;> simp [putSign]

/-- A typeDesc's length is at most 15. -/
theorem dlen_le (td : Byte) : dlen td ≤ 15 := by
  have h : td &&& 0x0F#8 ≤ 0x0F#8 := by
    rw [BitVec.le_def, BitVec.toNat_and]; exact Nat.and_le_right
  simpa [dlen, BitVec.le_def] using h

/-- enc yields L = td[3:0] bytes (R209), whatever the format. -/
@[simp] theorem enc_length (td : Byte) (x : Float64Bits) : (enc td x).1.length = dlen td := by
  unfold enc
  split
  · simp [encUnsigned]
  · simp only [encSigned]; split <;> simp
  · simp [encDecimal]
  · simp
  · simp only [encFloat]
    split
    · rename_i h; simp [h]
    · split
      · rename_i h; split <;> simp [h]
      · simp

/-- rlen is the length of the encoded record (R243). -/
theorem encoded_length (tfmt vfmt : Byte) (e : Entry) (h : e.raw.length = 16) :
    (e.encoded tfmt vfmt).1.length = e.encodedLen tfmt vfmt := by
  have := dlen_le e.tdesc
  unfold Entry.encoded Entry.encodedLen
  split <;> simp [h] <;> omega

/-! ## One record -/

/-- The record codec's decode half, said once: a record the scan accepts gives its entry, and a Temperature or Voltage
without a value raises SHORT (R231, R234, R241). -/
theorem decodeRecord_eq (p t : Byte) (v : List Byte) :
    decodeRecord p t v =
      if (p = Config.idTemperature ∨ p = Config.idVoltage) ∧ v = [] then .error .short
      else .ok (WireRecord.entry ⟨p, t, v⟩) := by
  unfold decodeRecord WireRecord.entry kindOfPid
  by_cases h1 : p = Config.idJoin
  · subst h1; simp [decodedEntry, zero64, Config.idJoin, Config.idTemperature, Config.idVoltage]
  by_cases h2 : p = Config.idIdentify
  · subst h2
    simp [decodedEntry, zero64, Config.idJoin, Config.idIdentify, Config.idTemperature, Config.idVoltage]
  by_cases h3 : p = Config.idTemperature
  · subst h3
    simp [decodedEntry, decodeNumber, Config.idJoin, Config.idIdentify, Config.idTemperature, Config.idVoltage]
  by_cases h4 : p = Config.idVoltage
  · subst h4
    simp [decodedEntry, decodeNumber, Config.idJoin, Config.idIdentify, Config.idTemperature, Config.idVoltage]
  simp [h1, h2, h3, h4, decodedEntry, zero64]

/-! ## The record scan -/

/-- One turn of the scan loop (R266 to R269). -/
theorem scan_succ (L fuel cur k : Nat) (s : State) :
    State.scan L (fuel + 1) cur k s =
      if s.pbuf cur = 0x00#8 then ((s.setCursor cur).setNrec (BitVec.ofNat 16 k), .ok)
      else if L < cur + 4 ∨ L < cur + 2 + dlen (s.pbuf (cur + 1)) + 2 then ((s.setCursor cur).setNrec 0#16, .short)
      else if (s.pbuf cur = Config.idTemperature ∨ s.pbuf cur = Config.idVoltage) ∧ dlen (s.pbuf (cur + 1)) = 0 then
        ((s.setCursor cur).setNrec 0#16, .short)
      else
        State.scan L fuel (cur + 2 + dlen (s.pbuf (cur + 1))) (k + 1)
          ((s.setCursor cur).recWrite k
            (WireRecord.entry
              ⟨s.pbuf cur, s.pbuf (cur + 1), s.pbufRead (cur + 2) (dlen (s.pbuf (cur + 1)))⟩)) := by
  have hv : s.pbufRead (cur + 2) (dlen (s.pbuf (cur + 1))) = [] ↔ dlen (s.pbuf (cur + 1)) = 0 := by
    rw [← List.length_eq_zero_iff, pbufRead_length]
  rw [State.scan, decodeRecord_eq]
  simp only [hv]
  by_cases h0 : s.pbuf cur = 0x00#8
  · simp [h0]
  by_cases h1 : L < cur + 4
  · simp [h0, h1, State.failParse]
  by_cases h2 : L < cur + 2 + dlen (s.pbuf (cur + 1)) + 2
  · simp [h0, h1, h2, State.failParse]
  simp only [h0, h1, h2, if_false, or_self]
  split_ifs <;> simp [State.failParse]

/-- What the scan may change: NREC, the cursor and the memory. -/
theorem scan_frame (L fuel cur k : Nat) (s : State) :
    (State.scan L fuel cur k s).1 =
      { s with
        nrec := (State.scan L fuel cur k s).1.nrec
        cursor := (State.scan L fuel cur k s).1.cursor
        mem := (State.scan L fuel cur k s).1.mem } := by
  induction fuel generalizing cur k s with
  | zero => rfl
  | succ fuel ih =>
    rw [scan_succ]
    split
    · rfl
    · split
      · rfl
      · split
        · rfl
        · rw [ih]; rfl

/-- The scan ends with OK or SHORT (R312), and NREC = 0 unless it ends with OK (R271). -/
theorem scan_code (L fuel cur k : Nat) (s : State) :
    (State.scan L fuel cur k s).2 = .ok
      ∨ (State.scan L fuel cur k s).2 = .short ∧ (State.scan L fuel cur k s).1.nrec = 0#16 := by
  induction fuel generalizing cur k s with
  | zero => exact .inr ⟨rfl, rfl⟩
  | succ fuel ih =>
    rw [scan_succ]
    split
    · exact .inl rfl
    · split
      · exact .inr ⟨rfl, rfl⟩
      · split
        · exact .inr ⟨rfl, rfl⟩
        · exact ih ..

/-- An induction over the scan: what holds at the start, and is kept by the cursor's move and by each entry's write while
the cursor and the index stand where R266 says, holds at the end. `P` never looks at NREC. -/
theorem scan_induction {L : Nat} (P : State → Prop) (hn : ∀ s v, P s → P (s.setNrec v))
    (hc : ∀ s v, v ≤ L → P s → P (s.setCursor v))
    (hw : ∀ s k e, 7 + 2 * k + 4 ≤ L → P s → P (s.recWrite k e)) :
    ∀ (fuel cur k : Nat) (s : State), 7 + 2 * k ≤ cur → cur ≤ L → P s → P (State.scan L fuel cur k s).1 := by
  intro fuel
  induction fuel with
  | zero => intro cur k s _ hL h; exact hn _ _ (hc _ _ hL h)
  | succ fuel ih =>
    intro cur k s hk hL h
    rw [scan_succ]
    split
    · exact hn _ _ (hc _ _ hL h)
    · split
      · exact hn _ _ (hc _ _ hL h)
      · rename_i hfit
        split
        · exact hn _ _ (hc _ _ hL h)
        · exact ih _ _ _ (by omega) (by omega) (hw _ _ _ (by omega) (hc _ _ hL h))

end Sys2Proof.Laws
end

