-- ==== Sys2Proof/Laws/Encoding.lean ====
section
/-! SUPPORT. The three fields of an assembled command word (R110, R116). -/

namespace Sys2Proof.Laws

variable (c o : BitVec 12) (p : Byte)

/-- OP of CNT, OFF, OP put together. -/
theorem opField_append : opField (c ++ o ++ p) = p.toNat := by
  have h := p.isLt
  simp only [opField, BitVec.extractLsb'_toNat, BitVec.toNat_append, Nat.shiftRight_zero]
  rw [← Nat.shiftLeft_add_eq_or_of_lt h]
  simp only [Nat.shiftLeft_eq]
  omega

/-- OFF of CNT, OFF, OP put together. -/
theorem offField_append : offField (c ++ o ++ p) = o.toNat := by
  have h := p.isLt
  have h' := o.isLt
  simp only [offField, BitVec.extractLsb'_toNat, BitVec.toNat_append]
  rw [← Nat.shiftLeft_add_eq_or_of_lt h, ← Nat.shiftLeft_add_eq_or_of_lt h']
  simp only [Nat.shiftLeft_eq, Nat.shiftRight_eq_div_pow]
  omega

/-- CNT of CNT, OFF, OP put together. -/
theorem cntField_append : cntField (c ++ o ++ p) = c.toNat := by
  have h := p.isLt
  have h' := o.isLt
  have h'' := c.isLt
  simp only [cntField, BitVec.extractLsb'_toNat, BitVec.toNat_append]
  rw [← Nat.shiftLeft_add_eq_or_of_lt h, ← Nat.shiftLeft_add_eq_or_of_lt h']
  simp only [Nat.shiftLeft_eq, Nat.shiftRight_eq_div_pow]
  omega

/-- The fields of a command's assembled word. -/
theorem fields_encode (i : Instr) :
    opField (encode i) = (opcode i).toNat ∧ offField (encode i) = (operands i).1 % 4096
      ∧ cntField (encode i) = (operands i).2 % 4096 := by
  refine ⟨opField_append _ _ _, ?_, ?_⟩
  · rw [encode, offField_append, BitVec.toNat_ofNat]
  · rw [encode, cntField_append, BitVec.toNat_ofNat]

end Sys2Proof.Laws
end

