-- ==== Sys2Proof/Laws/Framer.lean ====
section
/-! SUPPORT. What the framer's procedures do: the scan over accepted records, the frames of PARSE's and BUILD's core, and
the checks before them. -/

namespace Sys2Proof.Laws

open Sys2Proof.Machine

variable {s : State}

/-! ## Runs of RECTAB entries -/

/-- Entries written from index k on, in order. -/
def writeEntries : Nat → List Entry → State → State
  | _, [], s => s
  | k, e :: rest, s => writeEntries (k + 1) rest (s.recWrite k e)

theorem writeEntries_frame (k : Nat) (es : List Entry) (s : State) :
    writeEntries k es s = { s with mem := (writeEntries k es s).mem } := by
  induction es generalizing k s with
  | nil => rfl
  | cons e rest ih => rw [writeEntries, ih]; rfl

theorem writeEntries_setCursor (k c : Nat) (es : List Entry) (s : State) :
    writeEntries k es (s.setCursor c) = (writeEntries k es s).setCursor c := by
  induction es generalizing k s with
  | nil => rfl
  | cons e rest ih => simp only [writeEntries]; rw [← ih]; rfl

/-- Writing entries leaves every byte outside those entries as it was. -/
theorem byteAt_writeEntries_outside {k x : Nat} {es : List Entry}
    (h : x < recAddr k ∨ recAddr (k + es.length) ≤ x) (s : State) : (writeEntries k es s).byteAt x = s.byteAt x := by
  induction es generalizing k s with
  | nil => rfl
  | cons e rest ih =>
    simp only [List.length_cons, recAddr] at h
    rw [writeEntries, ih (by simp only [recAddr]; omega), byteAt_recWrite_outside (by simp only [recAddr]; omega)]

/-- Writing entries leaves the other entries as they were. -/
theorem recEntry_writeEntries_other {k j : Nat} {es : List Entry} (h : j < k ∨ k + es.length ≤ j) (s : State) :
    (writeEntries k es s).recEntry j = s.recEntry j := by
  induction es generalizing k s with
  | nil => rfl
  | cons e rest ih =>
    simp only [List.length_cons] at h
    rw [writeEntries, ih (by omega), recEntry_recWrite_other (by omega)]

/-- An entry written among others reads back, its RAW padded to sixteen bytes. -/
theorem recEntry_writeEntries {k : Nat} {es : List Entry} {j : Nat} (h : j < es.length) (s : State) :
    (writeEntries k es s).recEntry (k + j) =
      { es[j] with raw := (es[j].raw ++ List.replicate 16 0x00#8).take 16 } := by
  induction es generalizing k j s with
  | nil => simp at h
  | cons e rest ih =>
    rw [writeEntries]
    cases j with
    | zero =>
      show (writeEntries (k + 1) rest (s.recWrite k e)).recEntry k = _
      rw [recEntry_writeEntries_other (by omega), recEntry_recWrite_same]; rfl
    | succ j =>
      rw [show k + (j + 1) = (k + 1) + j by omega, ih (by simpa using h)]; rfl

/-! ## The scan over wire records -/

/-- The scan sets the cursor before it uses it. -/
theorem scan_setCursor (L fuel cur k c : Nat) (s : State) :
    State.scan L fuel cur k (s.setCursor c) = State.scan L fuel cur k s := by
  cases fuel with
  | zero => rfl
  | succ fuel => rw [scan_succ, scan_succ]; rfl

@[simp] theorem wireBytes_nil : wireBytes [] = [] := rfl
@[simp] theorem wireBytes_cons (r : WireRecord) (rs : List WireRecord) :
    wireBytes (r :: rs) = r.pid :: r.tdesc :: (r.val ++ wireBytes rs) := rfl

/-- The scan over accepted records: each is written to its entry and the cursor moves past it (R269). -/
theorem scan_wire {L : Nat} (hL : L ≤ 0xF000) (rs : List WireRecord) (fuel cur k : Nat) (s : State)
    (ha : ∀ r ∈ rs, r.accepted = true) (hb : s.pbufRead cur (wireBytes rs).length = wireBytes rs)
    (hfit : cur + (wireBytes rs).length + 2 ≤ L) :
    State.scan L (fuel + rs.length) cur k s =
      State.scan L fuel (cur + (wireBytes rs).length) (k + rs.length)
        (writeEntries k (rs.map WireRecord.entry) s) := by
  induction rs generalizing cur k s with
  | nil => rfl
  | cons r rs ih =>
    have hr := ha r (by simp)
    simp only [WireRecord.accepted, Bool.and_eq_true, bne_iff_ne, ne_eq, beq_iff_eq, Bool.not_eq_true',
      Bool.and_eq_false_iff, Bool.or_eq_false_iff, beq_eq_false_iff_ne] at hr
    obtain ⟨⟨hp, hlen⟩, hval⟩ := hr
    have hl : (wireBytes (r :: rs)).length = r.val.length + (wireBytes rs).length + 2 := by
      simp
    rw [hl] at hb hfit ⊢
    rw [pbufRead_succ, pbufRead_succ, pbufRead_append] at hb
    simp only [wireBytes_cons, List.cons.injEq] at hb
    obtain ⟨h0, h1, h2⟩ := hb
    obtain ⟨h2, h3⟩ := List.append_inj h2 (by simp)
    rw [List.length_cons, ← Nat.add_assoc, scan_succ, h0, h1, ← hlen, show cur + 2 = cur + 1 + 1 by rfl, h2]
    rw [if_neg hp, if_neg (by omega), if_neg]
    · rw [show (⟨r.pid, r.tdesc, r.val⟩ : WireRecord) = r from rfl]
      rw [show cur + 1 + 1 + r.val.length = cur + 1 + 1 + r.val.length from rfl]
      have hc : (s.setCursor cur).recWrite k r.entry = (s.recWrite k r.entry).setCursor cur := rfl
      rw [hc, scan_setCursor, ih _ _ _ (fun r hr => ha r (by simp [hr])) _ (by omega)]
      · simp only [List.map_cons, writeEntries]
        congr 1 <;> omega
      · rw [pbufRead_recWrite (by simp only [Config.pbufBase, Config.recBase]; omega)]
        exact h3
    · rintro ⟨hp2, hv⟩
      rcases hval with hv2 | hv2
      · exact hp2.elim hv2.1 hv2.2
      · cases hval : r.val <;> simp_all

/-- A wire record has at least its two leading bytes. -/
theorem length_wireBytes_ge (rs : List WireRecord) : 2 * rs.length ≤ (wireBytes rs).length := by
  induction rs with
  | nil => simp
  | cons r rs ih => simp; omega

/-! ## Parse -/

/-- What PARSE's core may change: the checksums, the header registers, NREC, the cursor and the memory (R272). -/
theorem parseCore_frame (L : Nat) (s : State) :
    (s.parseCore L).1 =
      { s with
        crc := s.packetCrc L, crcRem := s.packetCrc L, crcrx := s.packetCrcRx L
        manu := (s.parseCore L).1.manu, prod := (s.parseCore L).1.prod, sensor := (s.parseCore L).1.sensor
        nrec := (s.parseCore L).1.nrec, cursor := (s.parseCore L).1.cursor, mem := (s.parseCore L).1.mem } := by
  unfold State.parseCore
  split
  · rw [scan_frame]; rfl
  · rfl

/-- PARSE's core ends with OK, SHORT or CRCFAIL, and leaves NREC = 0 unless it ends with OK (R271, R316). -/
theorem parseCore_code (L : Nat) (s : State) :
    (s.parseCore L).2 = .ok ∨ ((s.parseCore L).2 = .short ∨ (s.parseCore L).2 = .crcfail) ∧ (s.parseCore L).1.nrec = 0#16 := by
  unfold State.parseCore
  split
  · rcases scan_code L L 7 0 (s.noteChecksums L).readHeader with h | h
    · exact .inl h
    · exact .inr ⟨.inl h.1, h.2⟩
  · exact .inr ⟨.inr rfl, rfl⟩

/-- An induction over PARSE's core: what the checksum and header registers leave alone, and `scan_induction` keeps. -/
theorem parseCore_induction {L : Nat} (hL : 7 ≤ L) (P : State → Prop) (h0 : ∀ s, P s → P (s.noteChecksums L))
    (h1 : ∀ s, P s → P s.readHeader) (hn : ∀ s v, P s → P (s.setNrec v))
    (hc : ∀ s v, v ≤ L → P s → P (s.setCursor v))
    (hw : ∀ s k e, 7 + 2 * k + 4 ≤ L → P s → P (s.recWrite k e)) (s : State) (h : P s) : P (s.parseCore L).1 := by
  unfold State.parseCore
  split
  · exact scan_induction P hn hc hw L 7 0 _ (by omega) hL (h1 _ (h0 _ h))
  · exact hn _ _ (h0 _ h)

/-- The length checks of R262, said once. -/
theorem lengthError_eq (s : State) :
    s.lengthError =
      if s.bufBytes < s.len.toNat then some .range else if s.len.toNat < 10 then some .short else none := rfl

/-- A pair of bytes read big-endian (R84). -/
theorem ofNat_beNat_two (a b : Byte) : BitVec.ofNat 16 (beNat [a, b]) = a ++ b := by
  apply BitVec.eq_of_toNat_eq
  simp only [beNat, List.foldl, BitVec.toNat_ofNat, BitVec.toNat_append]
  have := a.isLt
  have := b.isLt
  rw [← Nat.shiftLeft_add_eq_or_of_lt (by omega), Nat.shiftLeft_eq]
  omega

/-- Three bytes read big-endian (R84). -/
theorem ofNat_beNat_three (a b c : Byte) : BitVec.ofNat 24 (beNat [a, b, c]) = a ++ b ++ c := by
  apply BitVec.eq_of_toNat_eq
  simp only [beNat, List.foldl, BitVec.toNat_ofNat, BitVec.toNat_append]
  have := a.isLt
  have := b.isLt
  have := c.isLt
  rw [← Nat.shiftLeft_add_eq_or_of_lt (by omega), ← Nat.shiftLeft_add_eq_or_of_lt (by omega), Nat.shiftLeft_eq,
    Nat.shiftLeft_eq]
  omega

/-! ## Build -/

/-- The validity test of R244 and the claims' form of it agree. -/
theorem valid_eq_false_iff_refused (e : Entry) : e.valid = false ↔ e.refused := by
  have h : ∀ k : BitVec 3, k = 0#3 ∨ k = 1#3 ∨ k = 2#3 ∨ k = 3#3 ∨ k = 4#3 ∨ k = 5#3 ∨ k = 6#3 ∨ k = 7#3 := by decide
  unfold Entry.valid Entry.refused
  rcases h e.kind with h | h | h | h | h | h | h | h <;> simp [h, kindOf]

/-- The length BUILD checks (R277) and the claims' form of it agree. -/
theorem packetLength_eq (s : State) :
    7 + (s.messageRecords.map (Entry.encodedLen s.tfmt s.vfmt)).sum + 3 = s.packetLength := by
  simp only [State.packetLength, State.messageRecords, List.map_map]
  rfl

/-- BUILD's checks in their order (R276, R277), said once. -/
theorem buildError_eq (s : State) :
    s.buildError =
      if s.maxRecords < s.nrec.toNat then some .badrec
      else if s.messageRecords.any (fun e => !e.valid) then some .badrec
      else if s.bufBytes < s.packetLength then some .overflow
      else none := by
  rw [State.buildError, packetLength_eq]

/-- The packet BUILD writes has the length it checked (R277, R278). -/
theorem packetBytes_length (s : State) : s.packetBytes.length = s.packetLength := by
  have h : ∀ es : List Entry, (∀ e ∈ es, e.raw.length = 16) →
      ((es.map (fun e => (e.encoded s.tfmt s.vfmt).1)).flatten).length
        = (es.map (Entry.encodedLen s.tfmt s.vfmt)).sum := by
    intro es he
    induction es with
    | nil => rfl
    | cons e es ih =>
      simp only [List.map_cons, List.flatten_cons, List.length_append, List.sum_cons,
        encoded_length _ _ e (he e (by simp)), ih (fun e h => he e (by simp [h]))]
  have h2 := h s.messageRecords (fun e he => by
    obtain ⟨k, -, rfl⟩ := List.mem_map.1 he
    exact recEntry_raw_length s k)
  rw [← packetLength_eq, ← h2]
  simp only [State.packetBytes, State.packetBody, State.headerBytes, List.length_append, List.length_cons,
    List.length_nil]

/-- What BUILD writes: the packet's bytes, the checksum, SAT and LEN (R278, R280). -/
theorem buildCore_frame (s : State) :
    s.buildCore =
      { s with
        mem := (s.pbufWrite 0 s.packetBytes).mem
        crc := s.bodyCrc, crcRem := s.bodyCrc, sat := s.sat || s.packetSat
        len := BitVec.ofNat 16 s.packetBytes.length } := by
  simp only [State.buildCore, State.setLen, State.markSat, State.noteCrc, State.pbufWrite]

theorem byteAt_buildCore (s : State) (x : Nat) : s.buildCore.byteAt x = (s.pbufWrite 0 s.packetBytes).byteAt x :=
  byteAt_congr (congrArg State.mem (buildCore_frame s)) (congrArg State.epoch (buildCore_frame s)) x

/-! ## Decipher and encipher -/

/-- DECODE's first phase changes PIP, LFSR, the keystream register and the deciphered bytes (R286). -/
theorem decrypt_frame (L : Nat) (s : State) :
    s.decrypt L =
      { s with
        pip := s.packetPip, lfsr := (s.decrypt L).lfsr, keystream := (s.decrypt L).lfsr, mem := (s.decrypt L).mem } := rfl

theorem byteAt_decrypt_outside {L x : Nat} (h : x < Config.pbufBase + 4 ∨ Config.pbufBase + 4 + (L - 4) ≤ x) :
    (s.decrypt L).byteAt x = s.byteAt x := byteAt_ksApply_outside h

/-- ENCODE's last phase changes LFSR, the keystream register and the enciphered bytes (R290). -/
theorem encrypt_frame (s : State) :
    s.encrypt = { s with lfsr := s.encrypt.lfsr, keystream := s.encrypt.lfsr, mem := s.encrypt.mem } := rfl

theorem byteAt_encrypt_outside {x : Nat}
    (h : x < Config.pbufBase + 4 ∨ Config.pbufBase + 4 + (s.len.toNat - 4) ≤ x) : s.encrypt.byteAt x = s.byteAt x :=
  byteAt_ksApply_outside h

end Sys2Proof.Laws
end

