-- ==== Sys2Proof/Laws/PerInstr.lean ====
section
/-! SUPPORT. Statements about every command as syntax, made one constructor at a time. -/

namespace Sys2Proof.Laws

/-- The mask and the match value of a command's row in spec/opcode_table.json. -/
def tableRow : Instr → Word × Word
  | .cipher _ _ => (0x000000FF#32, 0x00000001#32)
  | .crc _ _ => (0x000000FF#32, 0x00000002#32)
  | .vdec => (0xFFFFFFFF#32, 0x00000003#32)
  | .venc => (0xFFFFFFFF#32, 0x00000004#32)
  | .parse => (0xFFFFFFFF#32, 0x00000005#32)
  | .build => (0xFFFFFFFF#32, 0x00000006#32)
  | .decode => (0xFFFFFFFF#32, 0x00000007#32)
  | .encode => (0xFFFFFFFF#32, 0x00000008#32)

/-- The low byte of a word is all that the mask 0xFF keeps. -/
theorem append_and_low (c o : BitVec 12) (p : Byte) : (c ++ o ++ p) &&& 0x000000FF#32 = p.setWidth 32 := by
  apply BitVec.eq_of_getLsbD_eq
  intro i hi
  have h : (0x000000FF#32 : Word).getLsbD i = decide (i < 8) := by
    interval_cases i <;> rfl
  rw [BitVec.getLsbD_and, h, BitVec.getLsbD_append, BitVec.getLsbD_setWidth]
  by_cases h8 : i < 8
  · simp [h8, hi]
  · simp [h8, BitVec.getLsbD_of_ge p i (by omega)]

/-- The assembled word matches the command's own row of the opcode table. -/
def EncodingMatchesTable.Statement (i : Instr) : Prop := encode i &&& (tableRow i).1 = (tableRow i).2

theorem EncodingMatchesTable.cipher (off cnt : Nat) : EncodingMatchesTable.Statement (.cipher off cnt) :=
  append_and_low _ _ _

theorem EncodingMatchesTable.crc (off cnt : Nat) : EncodingMatchesTable.Statement (.crc off cnt) :=
  append_and_low _ _ _

theorem EncodingMatchesTable.vdec : EncodingMatchesTable.Statement .vdec := by unfold Statement; decide

theorem EncodingMatchesTable.venc : EncodingMatchesTable.Statement .venc := by unfold Statement; decide

theorem EncodingMatchesTable.parse : EncodingMatchesTable.Statement .parse := by unfold Statement; decide

theorem EncodingMatchesTable.build : EncodingMatchesTable.Statement .build := by unfold Statement; decide

theorem EncodingMatchesTable.decode : EncodingMatchesTable.Statement .decode := by unfold Statement; decide

theorem EncodingMatchesTable.encode : EncodingMatchesTable.Statement .encode := by unfold Statement; decide

end Sys2Proof.Laws
end

