-- ==== Sys2Proof/Tests/Slice0.lean ====
section
/-! SUPPORT. Small tests: the well-formedness checks, one word per command written out from R110, one step per command with
the results of spec/95_test_vectors.md, and for each statement with hypotheses a state that meets them. -/

namespace Sys2Proof.Tests

open Sys2Proof.Machine

-- One theorem at a time: the many small kernel evaluations would otherwise wait on one another in threads of their own.
set_option Elab.async false

/-! ## Well-formedness: each check refuses an ill-formed term (R116) -/

theorem test_cipher_off_too_large : (Instr.cipher 4096 0).wellFormed = false := by decide

theorem test_cipher_cnt_too_large : (Instr.cipher 0 4096).wellFormed = false := by decide

theorem test_crc_off_too_large : (Instr.crc 4096 0).wellFormed = false := by decide

theorem test_crc_cnt_too_large : (Instr.crc 0 4096).wellFormed = false := by decide

theorem test_largest_operands : (Instr.cipher 4095 4095).wellFormed = true := by decide

/-! ## Decoding: CNT in bits 31 to 20, OFF in bits 19 to 8, OP in bits 7 to 0 (R110, R112) -/

/-- A command word from its three fields, laid out as R110's table lays them out. -/
def fields (cnt off : BitVec 12) (op : BitVec 8) : Word := cnt ++ off ++ op

theorem test_decode_cipher : decode (fields 0b000000001000#12 0b000000000100#12 0b00000001#8) = .ok (.cipher 4 8) := by
  decide

theorem test_decode_crc : decode (fields 0b000000000110#12 0b000011111111#12 0b00000010#8) = .ok (.crc 255 6) := by
  decide

theorem test_decode_vdec : decode (fields 0#12 0#12 0b00000011#8) = .ok .vdec := by decide

theorem test_decode_venc : decode (fields 0#12 0#12 0b00000100#8) = .ok .venc := by decide

theorem test_decode_parse : decode (fields 0#12 0#12 0b00000101#8) = .ok .parse := by decide

theorem test_decode_build : decode (fields 0#12 0#12 0b00000110#8) = .ok .build := by decide

theorem test_decode_decode : decode (fields 0#12 0#12 0b00000111#8) = .ok .decode := by decide

theorem test_decode_encode : decode (fields 0#12 0#12 0b00001000#8) = .ok .encode := by decide

/-- R114: opcode 0x00, opcode 0x09 and a stray CNT bit are refused by name. -/
theorem test_decode_refuses :
    decode 0x00000000#32 = .error (.illegalOpcode 0) ∧ decode 0x00000009#32 = .error (.illegalOpcode 9)
      ∧ decode 0x00100005#32 = .error (.nonzeroOperands 5 0 1) := by decide

/-- The pseudo-instructions of R117 assemble as CIPHER. -/
theorem test_assemble_encrypt :
    assembleEncrypt 4 8 = 0x00800401#32 ∧ assembleDecrypt 4 8 = 0x00800401#32 := by decide

theorem test_decodeTableWord :
    decodeTableWord 8 0x01 = some (.cipher 0 0) ∧ decodeTableWord 32 0x00800401 = some (.cipher 4 8)
      ∧ decodeTableWord 32 0x00100003 = none := by decide

/-! ## One step per command -/

/-- A state after reset with these bytes in PBUF[0..) and LEN their number. -/
def loaded (bs : List Byte) : State :=
  { State.reset with mem := Memory.writeAll [] 0x1000 bs, len := BitVec.ofNat 16 bs.length }

/-- What the next step leaves, seen through `f`. -/
def afterStep (s : State) (f : State → Bool) : Bool :=
  match step s with
  | .next t => f t
  | .fault _ => false
  | .refused _ => false

/-- 95_test_vectors.md F1 (R272's worked example): a Join in plaintext. -/
def joinPacket : List Byte :=
  [0x04#8, 0x03#8, 0x65#8, 0xCE#8, 0x09#8, 0x00#8, 0x7F#8, 0xEA#8, 0x00#8, 0x00#8, 0xB9#8, 0x89#8]

/-- 95_test_vectors.md B2: the same packet on the wire, with EID = 0xF2. -/
def joinWire : List Byte :=
  [0x04#8, 0x03#8, 0x65#8, 0xCE#8, 0x81#8, 0xE8#8, 0xEC#8, 0xA4#8, 0x75#8, 0x2A#8, 0xAD#8, 0x3D#8]

/-- The Message of that packet: one Join. -/
def joinMessage : State :=
  { State.reset with
    manu := 4#8, prod := 3#8, pip := 0x65CE#16, sensor := 0x09007F#24, nrec := 1#16
    mem := [(0x10000, 0#8), (0x10001, 0#8), (0x10002, 0#8)] }

/-- R165's worked example. -/
theorem test_cipher_example :
    afterStep ({ loaded joinPacket with pip := 0x65CE#16 }.withFetchWord 32 0x00800401)
      (fun t => t.pbufRead 0 12 == joinWire && t.lfsr == 0x63EE#16 && t.err == .ok) = true := by decide +kernel

/-- R165: a range one byte past BUF_BYTES raises RANGE and LFSR stays. -/
theorem test_cipher_range :
    afterStep (State.reset.withFetchWord 32 0x10000101) (fun t => t.err == .range && t.lfsr == 0#16 && t.done) = true := by
  decide +kernel

/-- R175's worked example. -/
theorem test_crc_example :
    afterStep ((loaded joinPacket).withFetchWord 32 0x00600402) (fun t => t.crc == 0xB989#16 && t.err == .ok) = true := by
  decide +kernel

/-- 90_conflicts.md C2's check value, for the ASCII digits 1 to 9. -/
theorem test_crc_check_value :
    afterStep ((loaded [0x31#8, 0x32#8, 0x33#8, 0x34#8, 0x35#8, 0x36#8, 0x37#8, 0x38#8, 0x39#8]).withFetchWord 32 0x00900002)
      (fun t => t.crc == 0x31C3#16) = true := by decide +kernel

/-- R204's worked example: 17.69921875. -/
theorem test_vdec_example :
    afterStep ({ State.reset with vdesc := 0x92#8, vbuf := 0xB311#128 }.withFetchWord 32 3)
      (fun t => t.fval == 0x4031B30000000000#64 && t.err == .ok) = true := by decide +kernel

/-- R197: 80 00 under 0x92 is -0.0. -/
theorem test_vdec_negative_zero :
    afterStep ({ State.reset with vdesc := 0x92#8, vbuf := 0x0080#128 }.withFetchWord 32 3)
      (fun t => t.fval == 0x8000000000000000#64) = true := by decide +kernel

/-- R216's worked example: 17.7 under 0x92. -/
theorem test_venc_example :
    afterStep ({ State.reset with vdesc := 0x92#8, fval := 0x4031B33333333333#64, vbuf := 5#128 <<< 64 }.withFetchWord 32 4)
      (fun t => t.vbuf == 0xB311#128 && !t.sat && t.err == .ok) = true := by decide +kernel

/-- R216: a reserved format raises BADFMT, with VBUF unchanged. -/
theorem test_venc_badfmt :
    afterStep ({ State.reset with vdesc := 0xD2#8, vbuf := 5#128 }.withFetchWord 32 4)
      (fun t => t.vbuf == 5#128 && t.err == .badfmt) = true := by decide +kernel

/-- R272's worked example. -/
theorem test_parse_example :
    afterStep ((loaded joinPacket).withFetchWord 32 5)
      (fun t => t.crc == 0xB989#16 && t.crcrx == 0xB989#16 && t.sensor == 0x09007F#24 && t.nrec == 1#16
        && (t.recEntry 0).kind == 0#3 && (t.recEntry 0).pid == 0xEA#8 && t.err == .ok) = true := by decide +kernel

/-- 95_test_vectors.md E6: a zero-length Temperature is SHORT after the header is read. -/
theorem test_parse_short :
    afterStep ((loaded [0x04#8, 0x03#8, 0x00#8, 0x00#8, 0x09#8, 0x00#8, 0x7F#8, 0x74#8, 0x90#8, 0x00#8, 0xC2#8,
        0x5A#8]).withFetchWord 32 5)
      (fun t => t.err == .short && t.nrec == 0#16 && t.manu == 4#8 && t.crc == 0xC25A#16) = true := by decide +kernel

/-- R282's worked example. -/
theorem test_build_example :
    afterStep (joinMessage.withFetchWord 32 6)
      (fun t => t.pbufRead 0 12 == joinPacket && t.len == 12#16 && t.crc == 0xB989#16 && t.lfsr == 0#16) = true := by
  decide +kernel

/-- 95_test_vectors.md B10: NREC = 124 is BADREC. -/
theorem test_build_badrec :
    afterStep ({ State.reset with nrec := 124#16 }.withFetchWord 32 6) (fun t => t.err == .badrec && t.len == 0#16) = true := by
  decide +kernel

/-- R289's worked example. -/
theorem test_decode_example :
    afterStep ((loaded joinWire).withFetchWord 32 7)
      (fun t => t.pip == 0x65CE#16 && t.lfsr == 0x63EE#16 && t.pbufRead 0 12 == joinPacket && t.nrec == 1#16
        && t.err == .ok) = true := by decide +kernel

/-- 95_test_vectors.md D6: the wrong key is CRCFAIL, and the bytes stay deciphered. -/
theorem test_decode_wrong_key :
    afterStep ({ loaded joinWire with eid := 0xF3#8 }.withFetchWord 32 7)
      (fun t => t.err == .crcfail && t.crc == 0x6A0B#16 && t.crcrx == 0x9E5E#16 && t.pbuf 4 == 0x01#8) = true := by
  decide +kernel

/-- R291's worked example. -/
theorem test_encode_example :
    afterStep (joinMessage.withFetchWord 32 8)
      (fun t => t.pbufRead 0 12 == joinWire && t.len == 12#16 && t.crc == 0xB989#16 && t.lfsr == 0x63EE#16) = true := by
  decide +kernel

/-- 95_test_vectors.md B16: the fixed-point seed 0xA6D9. -/
theorem test_encode_fixed_point_seed :
    afterStep ({ joinMessage with pip := 0x54D9#16 }.withFetchWord 32 8)
      (fun t => t.lfsr == 0xA6D9#16 && t.pbufRead 4 8 ==
        [0x8A#8, 0x83#8, 0xFC#8, 0x69#8, 0x83#8, 0x83#8, 0x3A#8, 0x0A#8]) = true := by decide +kernel

/-! ## Host accesses (95_test_vectors.md sections 2.11 and 2.12) -/

/-- S3 and S4 with IE = 1: `CRC 0, 0` is accepted, then completes. -/
theorem test_command_handshake :
    afterStep { State.reset with ie := true, events := [.write 0x10#17 0x00000002#32] }
      (fun t => t.statusWord == 1#32 && !t.irq && afterStep t (fun u => u.statusWord == 2#32 && u.irq)) = true := by
  decide +kernel

/-- S12: `WR LEN, 3` while busy sets WBUSY and leaves LEN. -/
theorem test_write_while_busy :
    afterStep { loaded joinWire with latch := some 7#32, events := [.write 0x1C#17 3#32] }
      (fun t => t.statusWord == 0x201#32 && t.len == 12#16) = true := by decide +kernel

/-- 2.12: TFMT ignores the illegal 0xD2 and takes 0xF4. -/
theorem test_warl :
    (State.reset.hostWrite 0x3C#17 0xD2#32).tfmt = 0x92#8 ∧ (State.reset.hostWrite 0x3C#17 0xF4#32).tfmt = 0xF4#8 := by
  decide +kernel

/-- 2.12: ID and CFG read their constants. -/
theorem test_identity :
    (State.reset.hostRead 0x00#17).rdata = 0x03140007#32 ∧ (State.reset.hostRead 0x04#17).rdata = 0x007B0100#32 := by
  decide +kernel

/-! ## Witnesses: for each statement with hypotheses, a state and operands that meet them, at the clauses' boundaries -/

/-- The outcome is a next state that meets f. -/
def nextWith (o : Host.Outcome State Fault Refusal) (f : State → Bool) : Bool :=
  match o with
  | .next t => f t
  | .fault _ => false
  | .refused _ => false

theorem exists_nextWith {o : Host.Outcome State Fault Refusal} {f : State → Bool} (h : nextWith o f = true) :
    ∃ t, o = .next t ∧ f t = true := by
  cases o with
  | next t => exact ⟨t, rfl, h⟩
  | fault r => cases r
  | refused r => exact Bool.noConfusion h

theorem exists_next {o : Host.Outcome State Fault Refusal} (h : nextWith o (fun _ => true) = true) :
    ∃ t, o = .next t := by
  obtain ⟨t, ht, _⟩ := exists_nextWith h
  exact ⟨t, ht⟩

/-- A busy state: this word latched. -/
def busyWith (w : Word) : State := { State.reset with latch := some w }

theorem test_witness_EncodeThenDecodeGivesCommand :
    (Instr.cipher 4095 0).wellFormed = true ∧ (Instr.crc 0 4095).wellFormed = true ∧ Instr.encode.wellFormed = true := by
  decide

theorem test_witness_DecodedWordIsItsEncoding :
    decode 0xFFFFFF01#32 = .ok (.cipher 4095 4095) ∧ decode 0x00000008#32 = .ok .encode := by decide

/-- A busy state whose next event is the engine's turn. -/
def turnWith (w : Word) : State := { busyWith w with events := [.engine, .read 0x0C#17] }

/-- No event left, and the engine's event next; one word for each clause: opcodes 0, 9 and 255; a nonzero OFF or CNT under
3 and 8; opcodes 1 to 8. -/
theorem test_witness_LatchedWordRunsByOpcode :
    (∀ w : Word, (busyWith w).rst = false ∧ (busyWith w).latch = some w ∧ (busyWith w).events = [])
      ∧ (∀ w : Word, (turnWith w).rst = false ∧ (turnWith w).latch = some w
          ∧ (turnWith w).events = .engine :: [.read 0x0C#17])
      ∧ (0x00000000#32).toNat % 256 = 0 ∧ 9 ≤ (0x00000009#32).toNat % 256 ∧ 9 ≤ (0x000000FF#32).toNat % 256
      ∧ ((0x00000103#32).toNat % 256 = 3 ∧ (0x00000103#32).toNat / 256 % 4096 ≠ 0)
      ∧ ((0x00100008#32).toNat % 256 = 8 ∧ (0x00100008#32).toNat / 1048576 ≠ 0)
      ∧ (0xFFFFFF01#32).toNat % 256 = 1 ∧ (0x00000002#32).toNat % 256 = 2
      ∧ ∀ w ∈ [0x3#32, 0x4#32, 0x5#32, 0x6#32, 0x7#32, 0x8#32],
          w.toNat / 256 % 4096 = 0 ∧ w.toNat / 1048576 = 0 ∧ 3 ≤ w.toNat % 256 ∧ w.toNat % 256 ≤ 8 := by
  refine ⟨fun w => ⟨rfl, rfl, rfl⟩, fun w => ⟨rfl, rfl, rfl⟩, by decide, by decide, by decide, by decide, by decide, by decide, by decide, ?_⟩
  simp

theorem test_witness_StepRunsDecodedCommand :
    ((busyWith 3#32).rst = false ∧ (busyWith 3#32).latch = some 3#32 ∧ decode 3#32 = .ok .vdec
        ∧ (busyWith 3#32).events = [])
      ∧ ({ busyWith 3#32 with events := [.engine, .engine] } : State).events = .engine :: [.engine]
      ∧ ({ State.reset with events := [.write 0x14#17 1#32] } : State).events = .write 0x14#17 1#32 :: []
      ∧ ({ State.reset with events := [.read 0x14#17] } : State).events = .read 0x14#17 :: []
      ∧ ({ State.reset with events := [.rstAssert] } : State).events = .rstAssert :: []
      ∧ ({ State.reset with events := [.rstRelease], rst := true } : State).events = .rstRelease :: []
      ∧ ({ State.reset with events := [.engine] } : State).events = .engine :: []
      ∧ State.reset.latch = none ∧ State.reset.events = [] := by decide

/-- The last legal range and the first illegal one, for CIPHER and CRC alike. -/
theorem test_witness_CipherXorsKeystream : 1 + 255 ≤ State.reset.bufBytes ∧ State.reset.bufBytes < 1 + 256 := by decide

theorem test_witness_CrcCommandResult : 256 + 0 ≤ State.reset.bufBytes ∧ State.reset.bufBytes < 0 + 257 := by decide

theorem test_witness_CipherTwiceRestoresBytes : 4 + 8 ≤ State.reset.bufBytes := by decide

theorem test_witness_CrcLinearOverXor : [0x01#8, 0x02#8].length = [0x80#8, 0xFF#8].length := by decide

theorem test_witness_CrcDetectsSingleBitFlip : 0 < 8 ∧ 7 < 8 := by decide

theorem test_witness_UnsignedDecodeRoundsToNearestEven :
    (∀ p ∈ [(0x0F#8, 0), (0x1F#8, 4), (0x2F#8, 8), (0x3F#8, 12), (0x4F#8, 16), (0x5F#8, 20), (0x6F#8, 24), (0xC0#8, 0)],
        hasCode unsignedCodes p.1 p.2)
      ∧ (List.replicate 15 0xFF#8).length ≤ 15 ∧ isFinite64 0x7FEFFFFFFFFFFFFF#64 = true := by decide

theorem test_witness_SignedDecodeIsSignAndMagnitude :
    (hasCode signedCodes 0x80#8 0 ∧ hasCode unsignedCodes 0x00#8 0)
      ∧ (hasCode signedCodes 0x92#8 8 ∧ hasCode unsignedCodes 0x22#8 8)
      ∧ (hasCode signedCodes 0xA0#8 16 ∧ hasCode unsignedCodes 0x40#8 16)
      ∧ (hasCode signedCodes 0xBF#8 24 ∧ hasCode unsignedCodes 0x60#8 24) := by decide

/-- Digits at both ends of the range, no bytes, and the bytes just outside the range. -/
theorem test_witness_DecimalTextDecodesExactly :
    (0x7F#8).extractLsb' 4 4 = 0x7#4 ∧ (List.replicate 15 0x39#8).length ≤ 15
      ∧ (∀ b ∈ [0x30#8, 0x39#8], 0x30 ≤ b.toNat ∧ b.toNat ≤ 0x39) ∧ ([] : List Byte).length ≤ 15
      ∧ (∃ b ∈ [0x31#8, 0x2F#8], b.toNat < 0x30 ∨ 0x39 < b.toNat)
      ∧ ∃ b ∈ [0x3A#8], b.toNat < 0x30 ∨ 0x39 < b.toNat := by decide

theorem test_witness_ReservedAndOddFloatsDecodeToZero :
    (0xD0#8).extractLsb' 4 4 = 0xD#4 ∧ (0xEF#8).extractLsb' 4 4 = 0xE#4 ∧ (0xF5#8).extractLsb' 4 4 = 0xF#4
      ∧ (List.replicate 3 0#8).length ≠ 4 ∧ (List.replicate 5 0#8).length ≠ 4 ∧ (List.replicate 7 0#8).length ≠ 8
      ∧ (List.replicate 9 0#8).length ≠ 8 := by decide

/-- A subnormal, the largest finite value, an infinity and a NaN. -/
theorem test_witness_Binary32WidensExactly :
    (0xF4#8).extractLsb' 4 4 = 0xF#4 ∧ exponent32 0x00000001#32 ≠ 0xFF ∧ exponent32 0x7F7FFFFF#32 ≠ 0xFF
      ∧ (exponent32 0xFF800000#32 = 0xFF ∧ fraction32 0xFF800000#32 = 0)
      ∧ (exponent32 0x7F800001#32 = 0xFF ∧ fraction32 0x7F800001#32 ≠ 0) := by decide

theorem test_witness_Binary64BytesAreBitForBit :
    (0xF8#8).extractLsb' 4 4 = 0xF#4 ∧ (0xF8#8).extractLsb' 0 4 = 8#4 := by decide

theorem test_witness_VencCompletesOrRaisesBadfmt :
    encodable ({ State.reset with vdesc := 0xCF#8 } : State).vdesc = true
      ∧ encodable ({ State.reset with vdesc := 0xD1#8 } : State).vdesc = false
      ∧ encodable ({ State.reset with vdesc := 0xF8#8 } : State).vdesc = true
      ∧ encodable ({ State.reset with vdesc := 0xF7#8 } : State).vdesc = false := by decide

/-- NaN, negative, -inf, +inf; the largest value that fits one byte, the first that does not, the same for one digit, and
-0.0. -/
theorem test_witness_UnsignedEncodeRoundsAndSaturates :
    hasCode unsignedCodes 0x01#8 0 ∧ (0x71#8).toNat / 16 = 0x7
      ∧ scaledInt 0x4022000000000000#64 0 ≤ 10 ^ 1 - 1 ∧ 10 ^ 1 - 1 < scaledInt 0x4024000000000000#64 0
      ∧ isNaN64 0x7FF8000000000000#64 = true
      ∧ (signbit 0xBFF0000000000000#64 = true ∧ isFinite64 0xBFF0000000000000#64 = true
          ∧ magnitude64 0xBFF0000000000000#64 ≠ 0)
      ∧ (signbit 0xFFF0000000000000#64 = true ∧ isInf64 0xFFF0000000000000#64 = true)
      ∧ (signbit 0x7FF0000000000000#64 = false ∧ isInf64 0x7FF0000000000000#64 = true)
      ∧ (isFinite64 0x406FE00000000000#64 = true ∧ scaledInt 0x406FE00000000000#64 0 ≤ 255)
      ∧ (isFinite64 0x4070000000000000#64 = true ∧ 255 < scaledInt 0x4070000000000000#64 0)
      ∧ (isFinite64 0x8000000000000000#64 = true ∧ magnitude64 0x8000000000000000#64 = 0) := by decide +kernel

theorem test_witness_SignedEncodeRoundsAndSaturates :
    hasCode signedCodes 0x81#8 0 ∧ isNaN64 0xFFF8000000000000#64 = true ∧ isInf64 0xFFF0000000000000#64 = true
      ∧ (isFinite64 0xC05FC00000000000#64 = true ∧ scaledInt 0xC05FC00000000000#64 0 ≤ 127)
      ∧ (isFinite64 0x4060000000000000#64 = true ∧ 127 < scaledInt 0x4060000000000000#64 0)
      ∧ hasCode signedCodes 0x90#8 8 := by decide +kernel

/-- The midpoint, the binary64 just below it, a NaN and an infinity. -/
theorem test_witness_Binary32EncodeSaturatesFromMidpoint :
    (isFinite64 0x47EFFFFFF0000000#64 = true
        ∧ (2 ^ 128 - 2 ^ 103) * 2 ^ 1074 = magnitude64 0x47EFFFFFF0000000#64)
      ∧ (isFinite64 0x47EFFFFFEFFFFFFF#64 = true
        ∧ ¬ (2 ^ 128 - 2 ^ 103) * 2 ^ 1074 ≤ magnitude64 0x47EFFFFFEFFFFFFF#64)
      ∧ isNaN64 0x7FF0000000000001#64 = true ∧ isInf64 0xFFF0000000000000#64 = true := by decide +kernel

/-- By hand from R215: half the least binary32 subnormal, 2^(-150), ties to the even zero; three quarters of it round
up. -/
theorem test_encode_binary32_subnormals :
    enc 0xF4#8 0xB690000000000000#64 = ([0x00#8, 0x00#8, 0x00#8, 0x80#8], false)
      ∧ enc 0xF4#8 0x3698000000000000#64 = ([0x01#8, 0x00#8, 0x00#8, 0x00#8], false) := by decide +kernel

/-- 95_test_vectors.md's encode rows under 0x73 (R214): 2.5 ties to even, padded with 0x30; 1000 does not fit three
digits. -/
theorem test_encode_decimal :
    enc 0x73#8 0x4004000000000000#64 = ([0x30#8, 0x30#8, 0x32#8], false)
      ∧ enc 0x73#8 0x408F400000000000#64 = ([0x39#8, 0x39#8, 0x39#8], true) := by decide +kernel

theorem test_witness_FixedPointRoundTrip :
    hasCode signedCodes 0x92#8 8 ∧ isFinite64 0xC014FFFFFFFFFFFF#64 = true
      ∧ (enc 0x92#8 0xC014FFFFFFFFFFFF#64).2 = false ∧ (hasCode signedCodes 0x90#8 8 ∧ (enc 0x90#8 0#64).2 = false)
      ∧ hasCode unsignedCodes 0x0F#8 0 ∧ (enc 0x0F#8 0x4500000000000001#64).2 = false := by decide +kernel

theorem test_witness_UnknownRecordRelaysUnchanged :
    (0x70#8 ≠ 0x00#8 ∧ 0x70#8 ≠ 0xEA#8 ∧ 0x70#8 ≠ 0xBF#8 ∧ 0x70#8 ≠ 0x74#8 ∧ 0x70#8 ≠ 0x76#8)
      ∧ (List.replicate 15 0xAA#8).length = (0x0F#8).toNat % 16 := by decide

theorem test_witness_RecordEncodingsByKind :
    ∀ k ∈ [0#3, 1#3, 2#3, 3#3, 4#3], ({ State.reset.recEntry 0 with kind := k } : Entry).kind = k := by
  intro k _; rfl

/-- LEN = 257 is RANGE, LEN = 9 is SHORT. -/
theorem test_witness_ParseAndDecodeCheckLengthFirst :
    State.reset.bufBytes < ({ State.reset with len := 257#16 } : State).len.toNat
      ∧ ({ State.reset with len := 9#16 } : State).len.toNat ≤ State.reset.bufBytes
      ∧ ({ State.reset with len := 9#16 } : State).len.toNat < 10 := by decide

theorem test_witness_ParseChecksCrc :
    (loaded joinWire).lengthOk
      ∧ crc16 ((loaded joinWire).pbufRead 4 ((loaded joinWire).len.toNat - 6)) ≠
          (loaded joinWire).pbuf ((loaded joinWire).len.toNat - 2)
            ++ (loaded joinWire).pbuf ((loaded joinWire).len.toNat - 1) := by
  unfold State.lengthOk
  decide +kernel

/-- 95_test_vectors.md E7: the scan stops at the CRC's high byte, offset L - 2. -/
def stopAtCrc : State :=
  loaded [0x04#8, 0x03#8, 0x00#8, 0x00#8, 0x09#8, 0x00#8, 0x88#8, 0x70#8, 0x01#8, 0x5A#8, 0x00#8, 0x9F#8]

/-- The worked example, and the packet whose terminator is its CRC's high byte. -/
theorem test_witness_ParseReadsRecords :
    ((loaded joinPacket).lengthOk
        ∧ (loaded joinPacket).packetCrc (loaded joinPacket).len.toNat
            = (loaded joinPacket).packetCrcRx (loaded joinPacket).len.toNat
        ∧ (loaded joinPacket).holdsRecords 12 [⟨0xEA#8, 0x00#8, []⟩])
      ∧ stopAtCrc.lengthOk ∧ stopAtCrc.packetCrc stopAtCrc.len.toNat = stopAtCrc.packetCrcRx stopAtCrc.len.toNat
      ∧ stopAtCrc.holdsRecords 12 [⟨0x70#8, 0x01#8, [0x5A#8]⟩] := by
  unfold State.lengthOk State.holdsRecords
  decide +kernel

/-- The hypotheses of the failing scan that do not depend on how it fails. -/
def scanReaches (s : State) (rs : List WireRecord) : Prop :=
  s.lengthOk ∧ s.packetCrc s.len.toNat = s.packetCrcRx s.len.toNat
    ∧ s.pbufRead 7 (wireBytes rs).length = wireBytes rs ∧ 7 + (wireBytes rs).length + 2 ≤ s.len.toNat
    ∧ (∀ r ∈ rs, r.accepted = true) ∧ s.pbuf (7 + (wireBytes rs).length) ≠ 0x00#8

/-- 95_test_vectors.md E9, E12, E10 and E11: 3 and 2 bytes left, a value that does not fit, a zero-length Voltage. -/
theorem test_witness_ParseShortKeepsEarlierRecords :
    scanReaches (loaded [0x04#8, 0x03#8, 0x00#8, 0x00#8, 0x09#8, 0x00#8, 0x7F#8, 0x70#8, 0x95#8, 0x87#8]) []
      ∧ scanReaches (loaded [0x04#8, 0x03#8, 0x00#8, 0x00#8, 0x09#8, 0x00#8, 0x7F#8, 0x70#8, 0x00#8, 0x54#8, 0x1C#8])
          [⟨0x70#8, 0x00#8, []⟩]
      ∧ (scanReaches
            (loaded [0x04#8, 0x03#8, 0x00#8, 0x00#8, 0x09#8, 0x00#8, 0x7F#8, 0x70#8, 0x05#8, 0x00#8, 0xF9#8, 0x84#8]) []
          ∧ 12 < 7 + 2 + (0x05#8).toNat % 16 + 2)
      ∧ scanReaches
          (loaded [0x04#8, 0x03#8, 0x00#8, 0x00#8, 0x09#8, 0x00#8, 0x7F#8, 0xEA#8, 0x00#8, 0x76#8, 0x20#8, 0x00#8,
            0xC8#8, 0x7A#8])
          [⟨0xEA#8, 0x00#8, []⟩] := by
  unfold scanReaches State.lengthOk
  decide +kernel

theorem test_witness_DecodeIsDecipherThenParse : (loaded joinWire).lengthOk := by unfold State.lengthOk; decide

theorem test_witness_DecodeReadsRecords :
    (loaded joinWire).bufBytes ≤ 4096 ∧ (loaded joinWire).lengthOk
      ∧ ((loaded joinWire).decrypt 12).packetCrc 12 = ((loaded joinWire).decrypt 12).packetCrcRx 12
      ∧ ((loaded joinWire).decrypt 12).holdsRecords 12 [⟨0xEA#8, 0x00#8, []⟩] := by
  unfold State.lengthOk State.holdsRecords
  decide +kernel

theorem test_witness_DecodeLeavesPlaintext :
    (loaded joinWire).bufBytes ≤ 4096 ∧ (loaded joinWire).lengthOk ∧ ∃ t, exec .decode (loaded joinWire) = .next t :=
  ⟨by decide, by unfold State.lengthOk; decide, exists_next (by decide +kernel)⟩

/-- One entry whose word 0 is this. -/
def oneEntry (buf : Nat) (kind pid tdesc : Byte) : State :=
  { State.reset with bufBytes := buf, nrec := 1#16, mem := [(0x10000, kind), (0x10001, pid), (0x10002, tdesc)] }

/-- NREC one above MAX_RECORDS, KIND 5, 6 and 7, and an Unhandled with PID 0x00. -/
theorem test_witness_BuildAndEncodeRefuseInvalidMessage :
    ¬ ({ State.reset with nrec := 124#16 } : State).messageValid
      ∧ ¬ (oneEntry 256 5#8 0xEA#8 0#8).messageValid ∧ ¬ (oneEntry 256 6#8 0xEA#8 0#8).messageValid
      ∧ ¬ (oneEntry 256 7#8 0xEA#8 0#8).messageValid ∧ ¬ (oneEntry 256 4#8 0x00#8 0#8).messageValid := by
  unfold State.messageValid Entry.refused
  decide +kernel

/-- A Join needs 12 bytes: 11 are too few, 12 are enough. -/
theorem test_witness_BuildAndEncodeRefuseLongPacket :
    (oneEntry 11 0#8 0#8 0#8).messageValid ∧ (oneEntry 11 0#8 0#8 0#8).bufBytes < (oneEntry 11 0#8 0#8 0#8).packetLength := by
  unfold State.messageValid Entry.refused
  decide +kernel

theorem test_witness_BuildWritesPacket :
    (oneEntry 12 0#8 0#8 0#8).bufBytes ≤ 4096 ∧ (oneEntry 12 0#8 0#8 0#8).messageValid
      ∧ (oneEntry 12 0#8 0#8 0#8).packetLength ≤ (oneEntry 12 0#8 0#8 0#8).bufBytes := by
  unfold State.messageValid Entry.refused
  decide +kernel

/-- The fitting Message, the long one and the invalid one. -/
theorem test_witness_EncodeIsBuildThenCipher :
    ((oneEntry 12 0#8 0#8 0#8).messageValid
        ∧ (oneEntry 12 0#8 0#8 0#8).packetLength ≤ (oneEntry 12 0#8 0#8 0#8).bufBytes)
      ∧ (oneEntry 11 0#8 0#8 0#8).bufBytes < (oneEntry 11 0#8 0#8 0#8).packetLength
      ∧ ¬ (oneEntry 12 5#8 0#8 0#8).messageValid := by
  unfold State.messageValid Entry.refused
  decide +kernel

/-- An Unhandled of one byte, in a state that meets the invariant. -/
def relayMessage : State := oneEntry 64 4#8 0x70#8 0x01#8

theorem relayMessage_inv : relayMessage.Inv where
  bufRange := by decide
  memWf := by decide
  memStored := by decide +kernel
  tfmtLegal := by decide
  vfmtLegal := by decide
  cursorIn := by decide
  epochDrawn := by decide
  busyFlags := by decide
  rstHeld := by decide

theorem test_witness_BuildThenParseRestoresMessage :
    relayMessage.Inv ∧ relayMessage.messageValid ∧ relayMessage.packetLength ≤ relayMessage.bufBytes
      ∧ ∀ k < relayMessage.nrec.toNat, (relayMessage.recEntry k).keepsKind := by
  refine ⟨relayMessage_inv, ?_⟩
  unfold State.messageValid Entry.refused Entry.keepsKind
  decide +kernel

/-- A Temperature and a Voltage, whose FVAL any value will do. -/
def numbersMessage : State :=
  { oneEntry 64 2#8 0#8 0#8 with nrec := 2#16, mem := [(0x10000, 2#8), (0x10001, 0#8), (0x10020, 3#8), (0x10021, 0#8)] }

theorem numbersMessage_inv : numbersMessage.Inv where
  bufRange := by decide
  memWf := by decide
  memStored := by decide +kernel
  tfmtLegal := by decide
  vfmtLegal := by decide
  cursorIn := by decide
  epochDrawn := by decide
  busyFlags := by decide
  rstHeld := by decide

theorem test_witness_EncodeThenDecodeRestoresMessage :
    numbersMessage.Inv ∧ numbersMessage.messageValid ∧ numbersMessage.packetLength ≤ numbersMessage.bufBytes
      ∧ ∀ k < numbersMessage.nrec.toNat, (numbersMessage.recEntry k).keepsKind := by
  refine ⟨numbersMessage_inv, ?_⟩
  unfold State.messageValid Entry.refused Entry.keepsKind
  decide +kernel

theorem test_witness_CommandsWriteOnlyTheirRegisters :
    (∃ t, exec (.cipher 0 256) State.reset = .next t) ∧ (∃ t, exec (.crc 0 0) State.reset = .next t)
      ∧ (∃ t, exec .vdec State.reset = .next t) ∧ (∃ t, exec .venc State.reset = .next t)
      ∧ (∃ t, exec .parse State.reset = .next t) ∧ (∃ t, exec .build State.reset = .next t)
      ∧ (∃ t, exec .decode State.reset = .next t) ∧ ∃ t, exec .encode State.reset = .next t :=
  ⟨exists_next (by decide +kernel), exists_next (by decide +kernel), exists_next (by decide +kernel),
    exists_next (by decide +kernel), exists_next (by decide +kernel), exists_next (by decide +kernel),
    exists_next (by decide +kernel), exists_next (by decide +kernel)⟩

/-- An offset just outside CIPHER's run, and one just outside RECTAB for PARSE. -/
theorem test_witness_CommandsWriteOnlyTheirWriteSet :
    (∃ t, exec (.cipher 4 8) State.reset = .next t) ∧ (∃ t, exec .parse State.reset = .next t)
      ∧ (∀ r ∈ State.reset.writeSet (.cipher 4 8), 0x1003 < r.1 ∨ r.1 + r.2 ≤ 0x1003)
      ∧ (∀ r ∈ State.reset.writeSet (.cipher 4 8), 0x100C < r.1 ∨ r.1 + r.2 ≤ 0x100C)
      ∧ ∀ r ∈ State.reset.writeSet .parse, 0x10F60 < r.1 ∨ r.1 + r.2 ≤ 0x10F60 :=
  ⟨exists_next (by decide +kernel), exists_next (by decide +kernel), by decide, by decide, by decide⟩

/-- An encode that saturates sets SAT. -/
theorem test_witness_SatOnlyWithSuccess :
    ∃ t, exec .venc { State.reset with vdesc := 0x01#8, fval := 0x7FF0000000000000#64 } = .next t ∧ t.sat = true :=
  exists_nextWith (by decide +kernel)

theorem test_witness_ControlRegisterWrites :
    State.reset.rst = false ∧ State.reset.latch = none ∧ (0x1#32).getLsbD 1 = false
      ∧ (0x13#17).toNat / 4 * 4 = 0x10 ∧ (0x0D#17).toNat / 4 * 4 = 0x0C ∧ (0x08#17).toNat / 4 * 4 = 0x08 := by decide

/-- Both ends of the fixed-point codes, the two floats, and the values just outside. -/
theorem test_witness_FormatRegistersTakeLegalValuesOnly :
    (State.reset.rst = false ∧ State.reset.latch = none)
      ∧ ((0x3C#17).toNat / 4 * 4 = 0x3C ∧ (0x43#17).toNat / 4 * 4 = 0x40)
      ∧ (∀ t ∈ [0x01#8, 0x0F#8, 0xC1#8, 0xCF#8, 0xF4#8, 0xF8#8],
          1 ≤ t.toNat % 16 ∧ (t.toNat / 16 ≤ 0xC ∨ (t.toNat / 16 = 0xF ∧ (t.toNat % 16 = 4 ∨ t.toNat % 16 = 8))))
      ∧ ∀ t ∈ [0x00#8, 0xC0#8, 0xD1#8, 0xEF#8, 0xF3#8, 0xF5#8, 0xF9#8],
          ¬ (1 ≤ t.toNat % 16
            ∧ (t.toNat / 16 ≤ 0xC ∨ (t.toNat / 16 = 0xF ∧ (t.toNat % 16 = 4 ∨ t.toNat % 16 = 8)))) := by decide

theorem test_witness_RegisterReadsBackItsWrite :
    Reg.eid ∈ [Reg.eid, .pip, .len, .manu, .prod, .sensor, .nrec, .vdesc, .fvalLo, .fvalHi, .vbuf0, .vbuf1, .vbuf2, .vbuf3]
      ∧ Reg.status ≠ Reg.eid ∧ State.reset.rst = false ∧ State.reset.latch = none
      ∧ ∀ k < 24, ∀ b < 4, (BitVec.ofNat 17 (4 * k + b)).toNat / 4 * 4 = 4 * k := by decide

theorem test_witness_ReservedOffsetsReadZeroIgnoreWrites :
    (State.reset.rst = false ∧ State.reset.latch = none ∧ State.reset.bufBytes ≤ 4096)
      ∧ (0x60 ≤ (0x60#17).toNat ∧ (0xFF#17).toNat ≤ 0xFF) ∧ (0x100 ≤ (0x100#17).toNat ∧ (0xFFF#17).toNat ≤ 0xFFF)
      ∧ (0x2000 ≤ (0x2000#17).toNat ∧ (0xFFFF#17).toNat ≤ 0xFFFF)
      ∧ 0x10000 + 32 * ((State.reset.bufBytes - 9) / 2) ≤ (0x10F60#17).toNat
      ∧ 0x10000 + 32 * ((State.reset.bufBytes - 9) / 2) ≤ (0x1FFFF#17).toNat := by decide

/-- The first word, the last implemented one, the first one past it and the window's last. -/
theorem test_witness_PacketBufferWindow :
    (State.reset.rst = false ∧ State.reset.latch = none ∧ State.reset.bufBytes ≤ 4096)
      ∧ ((0x1000#17).toNat / 4 * 4 = 0x1000 + 4 * 0 ∧ (0x1FFF#17).toNat / 4 * 4 = 0x1000 + 4 * 1023)
      ∧ 0 < 1024 ∧ 4 * 63 + 3 < State.reset.bufBytes ∧ ¬ 4 * 64 < State.reset.bufBytes ∧ 1023 < 1024 := by decide

theorem test_witness_RecordTableWordFormat :
    State.reset.rst = false ∧ State.reset.latch = none ∧ State.reset.bufBytes ≤ 4096
      ∧ 0 < (State.reset.bufBytes - 9) / 2 ∧ 122 < (State.reset.bufBytes - 9) / 2 ∧ 0 < 4 ∧ 3 < 4 := by decide

/-- For each clause, the word offsets at the ends of its range (BUF_BYTES = 256, 123 entries). -/
theorem test_witness_HostWritesWhileBusy :
    ((busyWith 5#32).rst = false ∧ (busyWith 5#32).busy = true ∧ (busyWith 5#32).bufBytes ≤ 4096)
      ∧ (0x0A#17).toNat / 4 * 4 = 0x08 ∧ (0x0F#17).toNat / 4 * 4 = 0x0C
      ∧ ((0x00#17).toNat / 4 * 4 < 0x60 ∧ (0x5F#17).toNat / 4 * 4 < 0x60)
      ∧ (0x60 ≤ (0x60#17).toNat / 4 * 4 ∧ (0xFFF#17).toNat / 4 * 4 < 0x1000)
      ∧ (0x1000 ≤ (0x1000#17).toNat / 4 * 4 ∧ (0x10FF#17).toNat / 4 * 4 < 0x1000 + (busyWith 5#32).bufBytes)
      ∧ (0x1000 + (busyWith 5#32).bufBytes ≤ (0x1100#17).toNat / 4 * 4 ∧ (0xFFFF#17).toNat / 4 * 4 < 0x10000)
      ∧ (0x10000 ≤ (0x10000#17).toNat / 4 * 4
          ∧ (0x10F5F#17).toNat / 4 * 4 < 0x10000 + 32 * (((busyWith 5#32).bufBytes - 9) / 2))
      ∧ 0x10000 + 32 * (((busyWith 5#32).bufBytes - 9) / 2) ≤ (0x10F60#17).toNat / 4 * 4 := by decide

/-- The same offsets, with each exact register and CMD. -/
theorem test_witness_HostReadsWhileBusy :
    ((busyWith 5#32).rst = false ∧ (busyWith 5#32).busy = true ∧ (busyWith 5#32).bufBytes ≤ 4096)
      ∧ (0x03#17).toNat / 4 * 4 = 0x00 ∧ (0x04#17).toNat / 4 * 4 = 0x04 ∧ (0x08#17).toNat / 4 * 4 = 0x08
      ∧ (0x0C#17).toNat / 4 * 4 = 0x0C ∧ (0x10#17).toNat / 4 * 4 = 0x10
      ∧ (regAt ((0x14#17).toNat / 4 * 4) = some .eid ∧ regAt ((0x5F#17).toNat / 4 * 4) = some .vbuf3)
      ∧ (0x60 ≤ (0x60#17).toNat / 4 * 4 ∧ (0xFFF#17).toNat / 4 * 4 < 0x1000)
      ∧ (0x1000 + (busyWith 5#32).bufBytes ≤ (0x1100#17).toNat / 4 * 4 + 0 ∧ (0x1100#17).toNat / 4 * 4 < 0x2000)
      ∧ (0x10000 ≤ (0x10000#17).toNat / 4 * 4
          ∧ (0x10F5F#17).toNat / 4 * 4 < 0x10000 + 32 * (((busyWith 5#32).bufBytes - 9) / 2))
      ∧ 0x10000 + 32 * (((busyWith 5#32).bufBytes - 9) / 2) ≤ (0x10F60#17).toNat / 4 * 4 := by decide

theorem test_witness_WbusyMeansWriteWhileBusy :
    ∃ t, step { busyWith 5#32 with events := [.write 0x1C#17 3#32] } = .next t ∧ (busyWith 5#32).wbusy = false
      ∧ t.wbusy = true := by
  obtain ⟨t, ht, hw⟩ :=
    exists_nextWith (o := step { busyWith 5#32 with events := [.write 0x1C#17 3#32] }) (f := State.wbusy)
      (by decide +kernel)
  exact ⟨t, ht, rfl, hw⟩

theorem test_witness_IrqFollowsDoneAndEnable :
    (∃ t, exec .vdec State.reset = .next t) ∧ State.reset.rst = false ∧ State.reset.latch = none
      ∧ (0x1#32).getLsbD 1 = false ∧ (0x2#32).getLsbD 1 = true
      ∧ (0x0B#17).toNat / 4 * 4 = 0x08 ∧ (0x0E#17).toNat / 4 * 4 = 0x0C ∧ (0x11#17).toNat / 4 * 4 = 0x10
      ∧ ((turnWith 0#32).rst = false ∧ (turnWith 0#32).latch = some 0#32 ∧ (busyWith 0#32).events = []) :=
  ⟨exists_next (by decide +kernel), by decide⟩

theorem test_witness_HardResetHoldsBlockInReset :
    ({ busyWith 5#32 with events := [.rstAssert, .rstRelease] } : State).events = .rstAssert :: .rstRelease :: [] := rfl

/-- Idle; and busy with a CIPHER, at the offsets just outside its run. -/
theorem test_witness_SoftResetRestoresRegisters :
    (State.reset.rst = false ∧ (0x0A#17).toNat / 4 * 4 = 0x08 ∧ (0x3#32).getLsbD 1 = true ∧ State.reset.latch = none)
      ∧ (busyWith 0x00800401#32).rst = false ∧ decode 0x00800401#32 = .ok (.cipher 4 8)
      ∧ (∀ r ∈ (busyWith 0x00800401#32).writeSet (.cipher 4 8), 0x1003 < r.1 ∨ r.1 + r.2 ≤ 0x1003)
      ∧ ∀ r ∈ (busyWith 0x00800401#32).writeSet (.cipher 4 8), 0x100C < r.1 ∨ r.1 + r.2 ≤ 0x100C := by decide

theorem test_witness_RunningCommandCompletes :
    let s : State := { busyWith 5#32 with events := [.read 0x0C#17, .read 0x20#17] }
    s.rst = false ∧ s.busy = true ∧ ∀ e ∈ s.events, ∃ addr, e = .read addr := by
  refine ⟨rfl, rfl, fun e he => ?_⟩
  rcases List.mem_pair.1 he with rfl | rfl
  · exact ⟨_, rfl⟩
  · exact ⟨_, rfl⟩

/-- The same Message with ENCODE running. -/
def encodingMessage : State := { relayMessage with latch := some 8#32 }

theorem encodingMessage_inv : encodingMessage.Inv where
  bufRange := by decide
  memWf := by decide
  memStored := by decide +kernel
  tfmtLegal := by decide
  vfmtLegal := by decide
  cursorIn := by decide
  epochDrawn := by decide
  busyFlags := by decide
  rstHeld := by decide

theorem test_witness_StepKeepsInvariant : encodingMessage.Inv ∧ ∃ t, step encodingMessage = .next t :=
  ⟨encodingMessage_inv, exists_next (by decide +kernel)⟩

end Sys2Proof.Tests
end

section
/-! Host accesses where nothing is implemented: the reserved register offsets and the unimplemented space (R53, R83), and
the tail of the record-table window (R82). -/

namespace Sys2Proof.Proofs

open Sys2Proof.Machine Sys2Proof.Laws

variable {s : State}

/-! ## The word an address acts on -/

theorem wordOffset_le (addr : BusAddr) : wordOffset addr ≤ addr.toNat := Nat.div_mul_le_self _ _

/-- A word-aligned bound on an address bounds its word offset, since the two lowest address bits alone are dropped. -/
theorem le_wordOffset {addr : BusAddr} {w : Nat} (h : 4 * w ≤ addr.toNat) : 4 * w ≤ wordOffset addr := by
  unfold wordOffset
  omega

/-! ## Accesses to unimplemented locations -/

theorem readWord_unimplemented {a : Nat} (h : locate a = .unimplemented) : s.readWord a = 0#32 := by
  rw [State.readWord, h]

theorem writeWhileBusy_unimplemented {a : Nat} (h : locate a = .unimplemented) (d : Word) :
    s.writeWhileBusy a d = s := by
  rw [State.writeWhileBusy, h]

theorem writeWhileIdle_unimplemented {a : Nat} (h : locate a = .unimplemented) (d : Word) :
    s.writeWhileIdle a d = s := by
  rw [State.writeWhileIdle, h]

/-- A read of an unimplemented location is exact while busy too, so it returns 0 and draws nothing. -/
theorem hostRead_unimplemented {addr : BusAddr} (hrst : s.rst = false)
    (h : locate (wordOffset addr) = .unimplemented) : s.hostRead addr = { s with rdata := 0#32 } := by
  simp [State.hostRead, hrst, h, exactWhileBusy, readWord_unimplemented h]

theorem hostWrite_unimplemented {addr : BusAddr} (hrst : s.rst = false)
    (h : locate (wordOffset addr) = .unimplemented) (d : Word) : s.hostWrite addr d = s := by
  cases hb : s.busy with
  | true => rw [hostWrite_busy hrst hb, writeWhileBusy_unimplemented h]
  | false => rw [hostWrite_idle hrst hb, writeWhileIdle_unimplemented h]

/-! ## Words of a buffer window without storage -/

theorem putByte_of_no_storage {a : Nat} (h : s.storedBits a = 0x00#8) (b : Byte) : s.putByte a b = s := by
  rw [State.putByte, if_pos h]

theorem hostByte_of_no_storage {a : Nat} (h : s.storedBits a = 0x00#8) : s.hostByte a = 0x00#8 := by
  rw [State.hostByte, h, BitVec.and_zero]

theorem writeBuffer_of_no_storage {a : Nat} (h : ∀ j < 4, s.storedBits (a + j) = 0x00#8) (d : Word) :
    s.writeBuffer a d = s := by
  have h0 : s.storedBits a = 0x00#8 := h 0 (by decide)
  rw [State.writeBuffer, putByte_of_no_storage h0, putByte_of_no_storage (h 1 (by decide)),
    putByte_of_no_storage (h 2 (by decide)), putByte_of_no_storage (h 3 (by decide))]

theorem bufferWord_of_no_storage {a : Nat} (h : ∀ j < 4, s.storedBits (a + j) = 0x00#8) : s.bufferWord a = 0#32 := by
  have h0 : s.storedBits a = 0x00#8 := h 0 (by decide)
  rw [State.bufferWord, hostByte_of_no_storage h0, hostByte_of_no_storage (h 1 (by decide)),
    hostByte_of_no_storage (h 2 (by decide)), hostByte_of_no_storage (h 3 (by decide))]
  rfl

/-! ## The tail of the record-table window -/

theorem storedBits_above_recTab {a : Nat} (hbuf : s.bufBytes ≤ Config.maxBufBytes)
    (ha : Config.recBase + 32 * s.maxRecords ≤ a) : s.storedBits a = 0x00#8 := by
  have hpbuf : Config.pbufBase + Config.maxBufBytes ≤ Config.recBase := by decide
  rw [State.storedBits, if_neg (by omega), if_neg (by omega)]

theorem implemented_above_recTab {a : Nat} (hbuf : s.bufBytes ≤ Config.maxBufBytes)
    (ha : Config.recBase + 32 * s.maxRecords ≤ a) : s.implemented a = false := by
  have hpbuf : Config.pbufBase + Config.maxBufBytes ≤ Config.recBase := by decide
  have hnotPbuf : ¬ a < Config.pbufBase + s.bufBytes := by omega
  have hnotRec : ¬ a < Config.recBase + 32 * s.maxRecords := by omega
  simp [State.implemented, hnotPbuf, hnotRec]

theorem locate_above_recTab {a : Nat} (ha : Config.recBase + 32 * s.maxRecords ≤ a) : locate a = .buffer :=
  locate_buffer (.inr (le_trans (Nat.le_add_right _ _) ha))

/-- A write above the last entry is ignored: a busy one finds nothing implemented there, so it does not set WBUSY
(R350), and an idle one finds no byte that holds storage. -/
theorem hostWrite_above_recTab {addr : BusAddr} (hrst : s.rst = false) (hbuf : s.bufBytes ≤ Config.maxBufBytes)
    (ha : Config.recBase + 32 * s.maxRecords ≤ wordOffset addr) (d : Word) : s.hostWrite addr d = s := by
  have hloc := locate_above_recTab ha
  cases hb : s.busy with
  | true =>
    rw [hostWrite_busy hrst hb, State.writeWhileBusy, hloc]
    simp [implemented_above_recTab hbuf ha]
  | false =>
    rw [hostWrite_idle hrst hb, State.writeWhileIdle, hloc]
    exact writeBuffer_of_no_storage (fun j _ => storedBits_above_recTab hbuf (by omega)) d

theorem hostRead_above_recTab {addr : BusAddr} (hrst : s.rst = false) (hb : s.busy = false)
    (hbuf : s.bufBytes ≤ Config.maxBufBytes) (ha : Config.recBase + 32 * s.maxRecords ≤ wordOffset addr) :
    s.hostRead addr = { s with rdata := 0#32 } := by
  have hword : s.readWord (wordOffset addr) = 0#32 := by
    rw [State.readWord, locate_above_recTab ha]
    exact bufferWord_of_no_storage fun j _ => storedBits_above_recTab hbuf (by omega)
  rw [hostRead_idle hrst hb, hword]

/-! ## The statement -/

/-- Settles O48: the address map has nothing at the reserved and unimplemented offsets, and no byte above the record
table holds storage. -/
theorem reservedOffsetsReadZeroIgnoreWrites : Obligations.ReservedOffsetsReadZeroIgnoreWrites := by
  unfold Obligations.ReservedOffsetsReadZeroIgnoreWrites
  refine ⟨fun s addr d hrst haddr => ?_, fun s addr d hrst hbuf haddr => ?_⟩
  · have hloc : locate (wordOffset addr) = .unimplemented := by
      refine locate_unimplemented ?_
      have hle := wordOffset_le addr
      rcases haddr with ⟨hlo, hhi⟩ | ⟨hlo, hhi⟩ | ⟨hlo, hhi⟩
      · exact .inl ⟨le_wordOffset (w := 0x18) hlo, by omega⟩
      · exact .inl ⟨le_trans (by decide) (le_wordOffset (w := 0x40) hlo), by omega⟩
      · exact .inr ⟨le_wordOffset (w := 0x800) hlo, by omega⟩
    exact ⟨hostRead_unimplemented hrst hloc, hostWrite_unimplemented hrst hloc d⟩
  · have hend : Config.recBase + 32 * s.maxRecords = 4 * (0x4000 + 8 * s.maxRecords) := by
      rw [Config.recBase]
      omega
    have hword : Config.recBase + 32 * s.maxRecords ≤ wordOffset addr := hend ▸ le_wordOffset (hend ▸ haddr)
    exact ⟨hostWrite_above_recTab hrst hbuf hword d, fun hlatch =>
      hostRead_above_recTab hrst (by rw [State.busy, hlatch]; rfl) hbuf hword⟩

end Sys2Proof.Proofs
end

section
/-! The bytes a command changes lie in its write set (R343's table): each command's writes are followed through the named
operations' own frames, and the record writes of the scan are bounded by the table's end (R12). -/

namespace Sys2Proof.Proofs

open Sys2Proof.Machine Sys2Proof.Laws

variable {s t : State} {x : Nat}

/-! ## What the checks before a framer command grant -/

theorem lengthOk_of_lengthError_eq_none (h : s.lengthError = none) : s.lengthOk := by
  rw [lengthError_eq] at h
  unfold State.lengthOk
  rw [Config.minPacket]
  split_ifs at h
  omega

theorem packetLength_le_of_buildError_eq_none (h : s.buildError = none) : s.packetLength ≤ s.bufBytes := by
  rw [buildError_eq] at h
  split_ifs at h
  omega

/-! ## The framer's procedures -/

/-- A record scanned out of a packet that fits PBUF has its entry inside the table: the header, at least two bytes for
each record before it, its own two, and the checksum all lie in BUF_BYTES (R12). -/
theorem recAddr_add_le_recTab_end {k : Nat} (h : 7 + 2 * k + 4 ≤ s.bufBytes) :
    recAddr k + 28 ≤ Config.recBase + 32 * s.maxRecords := by
  have hk : k + 1 ≤ s.maxRecords := by
    rw [State.maxRecords, Config.maxRecords]
    omega
  rw [recAddr]
  omega

/-- The record table is that of `s`, since the core may run on a state derived from it. -/
theorem byteAt_parseCore_outside {L : Nat} (hmin : 7 ≤ L) (hfit : L ≤ s.bufBytes)
    (hx : x < Config.recBase ∨ Config.recBase + 32 * s.maxRecords ≤ x) : (t.parseCore L).1.byteAt x = t.byteAt x := by
  refine parseCore_induction hmin (fun u => u.byteAt x = t.byteAt x) ?checksums ?header ?nrec ?cursor ?record t rfl
  case checksums => exact fun _ h => h
  case header => exact fun _ h => h
  case nrec => exact fun _ _ h => h
  case cursor => exact fun _ _ _ h => h
  case record =>
    intro u k e hk h
    have hstart : Config.recBase ≤ recAddr k := Nat.le_add_right _ _
    have hend := recAddr_add_le_recTab_end (s := s) (k := k) (by omega)
    rw [byteAt_recWrite_outside (by omega), h]

theorem byteAt_buildCore_outside (hfit : s.packetLength ≤ s.bufBytes)
    (hx : x < Config.pbufBase ∨ Config.pbufBase + s.bufBytes ≤ x) : s.buildCore.byteAt x = s.byteAt x := by
  rw [byteAt_buildCore, byteAt_pbufWrite_outside]
  rw [packetBytes_length]
  omega

/-- Also where sixteen bits do not hold the packet's length. -/
theorem buildCore_len_le (s : State) : s.buildCore.len.toNat ≤ s.packetLength := by
  rw [buildCore_frame, packetBytes_length, BitVec.toNat_ofNat]
  exact Nat.mod_le _ _

theorem byteAt_encrypt_buildCore_outside (hfit : s.packetLength ≤ s.bufBytes)
    (hx : x < Config.pbufBase ∨ Config.pbufBase + s.bufBytes ≤ x) : s.buildCore.encrypt.byteAt x = s.byteAt x := by
  have hlen := buildCore_len_le s
  have hheader : 7 ≤ s.packetLength := by
    rw [State.packetLength]
    omega
  rw [byteAt_encrypt_outside (by omega), byteAt_buildCore_outside hfit hx]

/-! ## The bytes each command leaves alone -/

theorem byteAt_execCipher_outside {off cnt : Nat} (h : execCipher off cnt s = .next t)
    (hx : off + cnt ≤ s.bufBytes → x < Config.pbufBase + off ∨ Config.pbufBase + off + cnt ≤ x) :
    t.byteAt x = s.byteAt x := by
  unfold execCipher at h
  split at h
  · rename_i hfit
    obtain rfl := Host.Outcome.next.inj h
    rw [complete_byteAt, byteAt_ksApply_outside (hx (of_decide_eq_true hfit))]
  · obtain rfl := Host.Outcome.next.inj h
    rw [complete_byteAt]

theorem byteAt_execCrc {off cnt : Nat} (h : execCrc off cnt s = .next t) : t.byteAt x = s.byteAt x := by
  unfold execCrc at h
  split at h <;> obtain rfl := Host.Outcome.next.inj h <;> simp

theorem byteAt_execVdec (h : execVdec s = .next t) : t.byteAt x = s.byteAt x := by
  obtain rfl := Host.Outcome.next.inj h
  simp

theorem byteAt_execVenc (h : execVenc s = .next t) : t.byteAt x = s.byteAt x := by
  unfold execVenc at h
  split at h <;> obtain rfl := Host.Outcome.next.inj h <;> simp

theorem byteAt_execParse_outside (h : execParse s = .next t)
    (hx : x < Config.recBase ∨ Config.recBase + 32 * s.maxRecords ≤ x) : t.byteAt x = s.byteAt x := by
  unfold execParse at h
  split at h
  · obtain rfl := Host.Outcome.next.inj h
    simp
  · rename_i hchecks
    obtain ⟨hmin, hfit⟩ := lengthOk_of_lengthError_eq_none hchecks
    obtain rfl := Host.Outcome.next.inj h
    rw [complete_byteAt, byteAt_parseCore_outside (le_trans (by decide) hmin) hfit hx]

theorem byteAt_execBuild_outside (h : execBuild s = .next t)
    (hx : x < Config.pbufBase ∨ Config.pbufBase + s.bufBytes ≤ x) : t.byteAt x = s.byteAt x := by
  unfold execBuild at h
  split at h
  · obtain rfl := Host.Outcome.next.inj h
    rw [complete_byteAt]
  · rename_i hchecks
    obtain rfl := Host.Outcome.next.inj h
    rw [complete_byteAt, byteAt_buildCore_outside (packetLength_le_of_buildError_eq_none hchecks) hx]

/-- A DECODE whose packet does not fit PBUF changes no byte at all, so its two runs matter only for one that does. -/
theorem byteAt_execDecode_outside (h : execDecode s = .next t)
    (hpbuf : s.len.toNat ≤ s.bufBytes →
      x < Config.pbufBase + 4 ∨ Config.pbufBase + 4 + (s.len.toNat - 4) ≤ x)
    (hrec : s.len.toNat ≤ s.bufBytes → x < Config.recBase ∨ Config.recBase + 32 * s.maxRecords ≤ x) :
    t.byteAt x = s.byteAt x := by
  unfold execDecode at h
  split at h
  · obtain rfl := Host.Outcome.next.inj h
    simp
  · rename_i hchecks
    obtain ⟨hmin, hfit⟩ := lengthOk_of_lengthError_eq_none hchecks
    obtain rfl := Host.Outcome.next.inj h
    rw [complete_byteAt, byteAt_parseCore_outside (le_trans (by decide) hmin) hfit (hrec hfit),
      byteAt_decrypt_outside (hpbuf hfit)]

theorem byteAt_execEncode_outside (h : execEncode s = .next t)
    (hx : x < Config.pbufBase ∨ Config.pbufBase + s.bufBytes ≤ x) : t.byteAt x = s.byteAt x := by
  unfold execEncode at h
  split at h
  · obtain rfl := Host.Outcome.next.inj h
    rw [complete_byteAt]
  · rename_i hchecks
    obtain rfl := Host.Outcome.next.inj h
    rw [complete_byteAt, byteAt_encrypt_buildCore_outside (packetLength_le_of_buildError_eq_none hchecks) hx]

/-! ## The statement -/

/-- Settles O43, command by command: the runs of the write set are the ones its lemma above names. -/
theorem commandsWriteOnlyTheirWriteSet : Obligations.CommandsWriteOnlyTheirWriteSet := by
  intro i s t h x hx
  cases i with
  | cipher off cnt =>
    exact byteAt_execCipher_outside h fun hfit => hx (Config.pbufBase + off, cnt) (by simp [State.writeSet, hfit])
  | crc off cnt => exact byteAt_execCrc h
  | vdec => exact byteAt_execVdec h
  | venc => exact byteAt_execVenc h
  | parse => exact byteAt_execParse_outside h (hx _ (List.mem_singleton_self (Config.recBase, 32 * s.maxRecords)))
  | build => exact byteAt_execBuild_outside h (hx _ (List.mem_singleton_self (Config.pbufBase, s.bufBytes)))
  | decode =>
    exact byteAt_execDecode_outside h
      (fun hfit => hx (Config.pbufBase + 4, s.len.toNat - 4) (by simp [State.writeSet, hfit]))
      (fun hfit => hx (Config.recBase, 32 * s.maxRecords) (by simp [State.writeSet, hfit]))
  | encode => exact byteAt_execEncode_outside h (hx _ (List.mem_singleton_self (Config.pbufBase, s.bufBytes)))

end Sys2Proof.Proofs
end

section
/-! The packet-buffer window on an idle bus (R81): what an access to a word of either buffer window does, lane by lane, and
which bytes of a PBUF word hold storage. -/

namespace Sys2Proof.Proofs

open Sys2Proof.Machine Sys2Proof.Laws

variable {s : State}

/-! ## Idle accesses to a buffer word -/

theorem busy_of_latch_none (h : s.latch = none) : s.busy = false := by
  rw [State.busy, h]
  rfl

theorem hostRead_idle_buffer {addr : BusAddr} (hrst : s.rst = false) (hb : s.busy = false)
    (hloc : locate (wordOffset addr) = .buffer) :
    s.hostRead addr = { s with rdata := s.bufferWord (wordOffset addr) } := by
  rw [hostRead_idle hrst hb, State.readWord, hloc]

theorem hostWrite_idle_buffer {addr : BusAddr} (hrst : s.rst = false) (hb : s.busy = false)
    (hloc : locate (wordOffset addr) = .buffer) (d : Word) :
    s.hostWrite addr d = s.writeBuffer (wordOffset addr) d := by
  rw [hostWrite_idle hrst hb, State.writeWhileIdle, hloc]

/-! ## The lanes of a word write -/

@[simp] theorem putByte_storedBits (s : State) (a : Nat) (b : Byte) (x : Nat) :
    (s.putByte a b).storedBits x = s.storedBits x :=
  storedBits_congr (congrArg State.bufBytes (putByte_frame s a b)) x

/-- The lanes have different offsets, so none of the other three byte writes reaches lane j. -/
theorem byteAt_writeBuffer_lane {a j : Nat} (hj : j < 4) (h : s.storedBits (a + j) ≠ 0x00#8) (d : Word) :
    (s.writeBuffer a d).byteAt (a + j) = wordByte d j &&& s.storedBits (a + j) := by
  interval_cases j <;> simpa [State.writeBuffer, byteAt_putByte] using fun hs => absurd hs h

/-- A word write leaves a byte alone that lies outside the word, or in a lane without storage. -/
theorem byteAt_writeBuffer_other {a x : Nat} (h : ∀ j < 4, s.storedBits (a + j) ≠ 0x00#8 → x ≠ a + j) (d : Word) :
    (s.writeBuffer a d).byteAt x = s.byteAt x := by
  have hlane : ∀ j < 4, ¬ (x = a + j ∧ s.storedBits (a + j) ≠ 0x00#8) := fun j hj ⟨hx, hs⟩ => h j hj hs hx
  simp only [State.writeBuffer, byteAt_putByte, putByte_storedBits]
  rw [if_neg (hlane 3 (by decide)), if_neg (hlane 2 (by decide)), if_neg (hlane 1 (by decide)),
    if_neg (show ¬ (x = a ∧ s.storedBits a ≠ 0x00#8) from hlane 0 (by decide))]

/-! ## The storage of a PBUF word -/

theorem storedBits_pbufWindow {i : Nat} (h : i < 0x1000) :
    s.storedBits (Config.pbufBase + i) = if i < s.bufBytes then 0xFF#8 else 0x00#8 := by
  split
  · exact storedBits_pbuf ‹_›
  · have hbases : Config.recBase = Config.pbufBase + 0xF000 := rfl
    rw [State.storedBits, if_neg (by omega), if_neg (by omega)]

theorem hostByte_pbufWindow {i : Nat} (h : i < 0x1000) :
    s.hostByte (Config.pbufBase + i) = if i < s.bufBytes then s.pbuf i else 0x00#8 := by
  rw [State.hostByte, storedBits_pbufWindow h]
  split
  · exact and_full _
  · exact BitVec.and_zero

/-! ## The statement -/

/-- Settles O49: PBUF's bytes hold all eight bits below BUF_BYTES and none above, so the lanes of an access are the bytes
that exist. -/
theorem packetBufferWindow : Obligations.PacketBufferWindow := by
  intro s addr w d hrst hlatch _ hw haddr
  have hb := busy_of_latch_none hlatch
  have hword : wordOffset addr = Config.pbufBase + 4 * w := haddr
  have hloc : locate (wordOffset addr) = .buffer := locate_buffer (.inl (by rw [wordOffset]; omega))
  have hwrite := hostWrite_idle_buffer hrst hb hloc d
  rw [hword] at hwrite
  have hstored : ∀ k < 4,
      s.storedBits (Config.pbufBase + 4 * w + k) = if 4 * w + k < s.bufBytes then 0xFF#8 else 0x00#8 :=
    fun k hk => by rw [Nat.add_assoc, storedBits_pbufWindow (by omega)]
  refine ⟨?_, ?_, fun k hk hbuf => ?_, fun x hx => ?_⟩
  · rw [hostRead_idle_buffer hrst hb hloc, hword]
    simp only [State.bufferWord, Nat.add_assoc]
    rw [hostByte_pbufWindow (by omega), hostByte_pbufWindow (by omega), hostByte_pbufWindow (by omega),
      hostByte_pbufWindow (by omega)]
    rfl
  · rw [hwrite]
    exact writeBuffer_frame _ _ _
  · have hfull : s.storedBits (Config.pbufBase + 4 * w + k) = 0xFF#8 := by rw [hstored k hk, if_pos hbuf]
    rw [hwrite, State.pbuf, ← Nat.add_assoc, byteAt_writeBuffer_lane hk (by rw [hfull]; decide), hfull, and_full]
    rfl
  · rw [hwrite]
    refine byteAt_writeBuffer_other (fun k hk hs => ?_) d
    rw [hstored k hk] at hs
    rw [Nat.add_assoc]
    exact hx k hk (by by_contra hbuf; exact hs (if_neg hbuf))

end Sys2Proof.Proofs
end

section
/-! The command words (R110 to R116): a word's three fields as numbers, the words that decode to each command, and the
engine's turn with a latched word (R113). -/

namespace Sys2Proof.Proofs

open Sys2Proof.Machine Sys2Proof.Laws

variable {s u : State} {v w : Word} {i j : Instr} {op off cnt : Nat}

/-! ## The fields of a word -/

theorem opField_eq (w : Word) : opField w = w.toNat % 256 := by
  rw [opField, BitVec.extractLsb'_toNat, Nat.shiftRight_zero]

theorem offField_eq (w : Word) : offField w = w.toNat / 256 % 4096 := by
  rw [offField, BitVec.extractLsb'_toNat, Nat.shiftRight_eq_div_pow]

/-- CNT is the top field, so nothing above it is cut off. -/
theorem cntField_eq (w : Word) : cntField w = w.toNat / 1048576 := by
  rw [cntField, BitVec.extractLsb'_toNat, Nat.shiftRight_eq_div_pow]
  omega

theorem offField_lt (w : Word) : offField w < 4096 := BitVec.isLt _

theorem cntField_lt (w : Word) : cntField w < 4096 := BitVec.isLt _

/-- The three fields cover the word (R110). -/
theorem word_eq_of_fields (hop : opField v = opField w) (hoff : offField v = offField w)
    (hcnt : cntField v = cntField w) : v = w := by
  rw [opField_eq, opField_eq] at hop
  rw [offField_eq, offField_eq] at hoff
  rw [cntField_eq, cntField_eq] at hcnt
  exact BitVec.eq_of_toNat_eq (by omega)

/-! ## Opcodes and operands -/

theorem wellFormed_iff : i.wellFormed = true ↔ (operands i).1 < 4096 ∧ (operands i).2 < 4096 := by
  cases i <;> simp [Instr.wellFormed, operandFits, operands]

theorem opcode_mem_range (i : Instr) : 1 ≤ (opcode i).toNat ∧ (opcode i).toNat ≤ 8 := by
  cases i <;> simp [opcode]

/-- Only CIPHER and CRC have operand fields (R112). -/
theorem operands_eq_zero (h : 3 ≤ (opcode i).toNat) : operands i = (0, 0) := by
  cases i with
  | cipher off cnt => exact absurd h (by simp [opcode])
  | crc off cnt => exact absurd h (by simp [opcode])
  | vdec | venc | parse | build | decode | encode => rfl

/-! ## Which words decode to a command -/

theorem noOperands_eq_ok (h : noOperands op off cnt i = .ok j) : off = 0 ∧ cnt = 0 ∧ i = j := by
  unfold noOperands at h
  split at h
  next hzero => exact ⟨hzero.1, hzero.2, Except.ok.inj h⟩
  next => cases h

theorem fields_of_decodeFields_eq_ok (h : decodeFields op off cnt = .ok i) :
    (opcode i).toNat = op ∧ operands i = (off, cnt) := by
  unfold decodeFields at h
  split at h
  case h_1 | h_2 =>
    obtain rfl := Except.ok.inj h
    exact ⟨rfl, rfl⟩
  case h_3 | h_4 | h_5 | h_6 | h_7 | h_8 =>
    obtain ⟨rfl, rfl, rfl⟩ := noOperands_eq_ok h
    exact ⟨rfl, rfl⟩
  case h_9 => cases h

theorem decodeFields_opcode_operands (i : Instr) :
    decodeFields (opcode i).toNat (operands i).1 (operands i).2 = .ok i := by
  cases i <;> rfl

/-- R113's decoding, said once: a word is a command exactly when its fields are that command's opcode and operands. -/
theorem decode_eq_ok_iff :
    decode w = .ok i ↔ (opcode i).toNat = opField w ∧ operands i = (offField w, cntField w) := by
  refine ⟨fields_of_decodeFields_eq_ok, fun ⟨hop, hoperands⟩ => ?_⟩
  have h := decodeFields_opcode_operands i
  rwa [hop, hoperands] at h

theorem decode_ne_ok_of_opcode (h : opField w = 0 ∨ 9 ≤ opField w) (i : Instr) : decode w ≠ .ok i := by
  intro hok
  have hop := (decode_eq_ok_iff.mp hok).1
  have hrange := opcode_mem_range i
  omega

theorem decode_ne_ok_of_operands (hop : 3 ≤ opField w) (h : offField w ≠ 0 ∨ cntField w ≠ 0) (i : Instr) :
    decode w ≠ .ok i := by
  intro hok
  obtain ⟨hopcode, hoperands⟩ := decode_eq_ok_iff.mp hok
  rw [operands_eq_zero (hopcode ▸ hop)] at hoperands
  obtain ⟨hoff, hcnt⟩ := Prod.mk.inj hoperands
  exact h.elim (fun hne => hne hoff.symm) (fun hne => hne hcnt.symm)

/-! ## The engine's turn -/

theorem runCommand_of_decode (h : decode w = .ok i) : runCommand w u = exec i u := by
  rw [runCommand, h]

theorem runCommand_illegal (h : ∀ i, decode w ≠ .ok i) : runCommand w u = .next (u.complete .illcmd) := by
  rw [runCommand]
  cases hd : decode w with
  | ok i => exact absurd hd (h i)
  | error e => rfl

theorem engineTurn_latched (hrst : s.rst = false) (hlatch : s.latch = some w) : engineTurn s = runCommand w s := by
  simp [engineTurn, hrst, hlatch]

/-- The two ways the engine's turn comes: its event is next, or no event is left (R355). -/
theorem step_latched (hrst : s.rst = false) (hlatch : s.latch = some w)
    (hturn : (s.events = [] ∧ u = s) ∨ ∃ rest, s.events = .engine :: rest ∧ u = { s with events := rest }) :
    step s = runCommand w u := by
  rcases hturn with ⟨hnil, rfl⟩ | ⟨rest, hcons, rfl⟩
  · rw [step, stepEvents, hnil]
    exact engineTurn_latched hrst hlatch
  · rw [step, stepEvents, hcons]
    exact engineTurn_latched (s := { s with events := rest }) hrst hlatch

/-! ## The statements -/

/-- Settles O2: the fields of an assembled word are the opcode and the operands, none of them cut short. -/
theorem encodeThenDecodeGivesCommand : Obligations.EncodeThenDecodeGivesCommand := by
  intro i hwf
  obtain ⟨hoff, hcnt⟩ := wellFormed_iff.mp hwf
  obtain ⟨hopField, hoffField, hcntField⟩ := fields_encode i
  rw [Nat.mod_eq_of_lt hoff] at hoffField
  rw [Nat.mod_eq_of_lt hcnt] at hcntField
  exact decode_eq_ok_iff.mpr ⟨hopField.symm, by rw [hoffField, hcntField]⟩

/-- Settles O3: the word and the assembled word of its command have the same three fields. -/
theorem decodedWordIsItsEncoding : Obligations.DecodedWordIsItsEncoding := by
  intro w i h
  obtain ⟨hop, hoperands⟩ := decode_eq_ok_iff.mp h
  obtain ⟨hopField, hoffField, hcntField⟩ := fields_encode i
  rw [hoperands] at hoffField hcntField
  rw [Nat.mod_eq_of_lt (offField_lt w)] at hoffField
  rw [Nat.mod_eq_of_lt (cntField_lt w)] at hcntField
  refine ⟨word_eq_of_fields (hopField.trans hop) hoffField hcntField, wellFormed_iff.mpr ?_⟩
  rw [hoperands]
  exact ⟨offField_lt w, cntField_lt w⟩

/-- Settles O4: the turn runs the latched word, which is the command of its fields or no command at all. -/
theorem latchedWordRunsByOpcode : Obligations.LatchedWordRunsByOpcode := by
  intro s u w hrst hlatch hturn op off cnt illegal
  have hstep := step_latched hrst hlatch hturn
  have hop : opField w = op := opField_eq w
  have hoff : offField w = off := offField_eq w
  have hcnt : cntField w = cnt := cntField_eq w
  have hillegal : (∀ i, decode w ≠ .ok i) → step s = illegal := fun h => hstep.trans (runCommand_illegal h)
  have hlegal : ∀ i, op = (opcode i).toNat → operands i = (off, cnt) → step s = exec i u := fun i hi hoperands =>
    hstep.trans (runCommand_of_decode (decode_eq_ok_iff.mpr ⟨by rw [hop, hi], by rw [hoff, hcnt, hoperands]⟩))
  refine ⟨fun h => hillegal (decode_ne_ok_of_opcode (by rwa [hop])), fun ⟨hlow, _, hne⟩ => ?_,
    fun h => hlegal (.cipher off cnt) h rfl, fun h => hlegal (.crc off cnt) h rfl, fun ⟨hoff0, hcnt0⟩ => ?_⟩
  · exact hillegal (decode_ne_ok_of_operands (by rwa [hop]) (by rwa [hoff, hcnt]))
  · have hzero : (0, 0) = (off, cnt) := by rw [hoff0, hcnt0]
    exact ⟨fun h => hlegal .vdec h hzero, fun h => hlegal .venc h hzero, fun h => hlegal .parse h hzero,
      fun h => hlegal .build h hzero, fun h => hlegal .decode h hzero, fun h => hlegal .encode h hzero⟩

/-- Settles O1: ten closed words, so the decoder is run on each. -/
theorem specWordsDecode : Obligations.SpecWordsDecode := by
  unfold Obligations.SpecWordsDecode
  decide

end Sys2Proof.Proofs
end

section
/-! The checksum as a polynomial remainder over GF(2) (R171, R172): numbers read as bit polynomials, congruent when they
differ by a XOR of shifts of the generator 0x11021. One shift step multiplies the remainder by x modulo the generator, so
each byte keeps the congruence between the value read so far and the remainder. -/

namespace Sys2Proof.Proofs

open Sys2Proof.Machine

variable {a b c d : Nat}

/-! ## Congruence modulo the generator -/

/-- The multiples of the generator x^16 + x^12 + x^5 + 1 (R171's 0x1021 with its leading term). -/
def generatorMultiple (shifts : List Nat) : Nat := shifts.foldl (fun acc k => acc ^^^ (0x11021 <<< k)) 0

/-- Congruence of bit polynomials modulo the generator: their difference, which is their XOR, is a multiple. -/
def CrcCongr (a b : Nat) : Prop := ∃ shifts, a ^^^ b = generatorMultiple shifts

theorem generatorMultiple_append (ks ls : List Nat) :
    generatorMultiple (ks ++ ls) = generatorMultiple ks ^^^ generatorMultiple ls := by
  rw [generatorMultiple, generatorMultiple, generatorMultiple, List.foldl_append,
    ← List.foldl_hom (_ ^^^ ·), Nat.xor_zero]
  exact fun acc k => Nat.xor_assoc _ acc _

theorem generatorMultiple_shiftLeft (ks : List Nat) (n : Nat) :
    generatorMultiple ks <<< n = generatorMultiple (ks.map (· + n)) := by
  rw [generatorMultiple, generatorMultiple, List.foldl_map, ← List.foldl_hom (· <<< n), Nat.zero_shiftLeft]
  intro acc k
  rw [Nat.shiftLeft_xor_distrib, Nat.shiftLeft_add]

theorem crcCongr_of_eq (h : a = b) : CrcCongr a b := ⟨[], by rw [h, Nat.xor_self]; rfl⟩

theorem crcCongr_of_xor_eq_generator (h : a ^^^ b = 0x11021) : CrcCongr a b := ⟨[0], h⟩

/-- Adding congruences. -/
theorem CrcCongr.xor (h : CrcCongr a b) (h' : CrcCongr c d) : CrcCongr (a ^^^ c) (b ^^^ d) := by
  obtain ⟨ks, hks⟩ := h
  obtain ⟨ls, hls⟩ := h'
  exact ⟨ks ++ ls, by rw [generatorMultiple_append, ← hks, ← hls]; ac_rfl⟩

theorem CrcCongr.trans (h : CrcCongr a b) (h' : CrcCongr b c) : CrcCongr a c := by
  obtain ⟨ks, hks⟩ := h
  obtain ⟨ls, hls⟩ := h'
  exact ⟨ks ++ ls, by rw [generatorMultiple_append, ← hks, ← hls, Nat.xor_assoc, Nat.xor_xor_cancel_left]⟩

/-- Multiplying a congruence by x^n. -/
theorem CrcCongr.shiftLeft (h : CrcCongr a b) (n : Nat) : CrcCongr (a <<< n) (b <<< n) := by
  obtain ⟨ks, hks⟩ := h
  exact ⟨ks.map (· + n), by rw [← Nat.shiftLeft_xor_distrib, hks, generatorMultiple_shiftLeft]⟩

/-! ## The engine's steps -/

/-- Putting a number below a shifted one is adding polynomials: no bit position is used twice. -/
theorem shiftLeft_add_eq_xor {n : Nat} (h : b < 2 ^ n) (a : Nat) : a <<< n + b = a <<< n ^^^ b := by
  refine Nat.eq_of_testBit_eq fun j => ?_
  rw [Nat.shiftLeft_eq, Nat.mul_comm, Nat.testBit_two_pow_mul_add a h, Nat.testBit_xor, Nat.testBit_two_pow_mul]
  split
  case isTrue hlow => rw [decide_eq_false (by omega), Bool.false_and, Bool.false_xor]
  case isFalse hhigh =>
    have hzero : b.testBit j = false :=
      Nat.testBit_lt_two_pow (h.trans_le (Nat.pow_le_pow_right Nat.two_pos (by omega)))
    rw [decide_eq_true (by omega), Bool.true_and, hzero, Bool.xor_false]

/-- The bit a shift drops, with the bits it keeps. -/
theorem toNat_shiftLeft_one (r : Half) : r.toNat <<< 1 = r[15].toNat <<< 16 ^^^ (r <<< 1).toNat := by
  rw [← shiftLeft_add_eq_xor (BitVec.isLt _), BitVec.getElem_eq_testBit_toNat, Nat.toNat_testBit, BitVec.toNat_shiftLeft]
  have := r.isLt
  simp only [Nat.shiftLeft_eq]
  omega

/-- R172's shift step multiplies by x: where a bit leaves at the top, the generator is added. -/
theorem crcShift_congr (r : Half) : CrcCongr (r.toNat <<< 1) (crcShift r).toNat := by
  rw [toNat_shiftLeft_one, crcShift, BitVec.getLsbD_eq_getElem (by decide)]
  cases r[15] with
  | false => exact crcCongr_of_eq (Nat.zero_xor _)
  | true =>
    refine crcCongr_of_xor_eq_generator ?_
    rw [if_pos rfl, BitVec.toNat_xor, Nat.xor_assoc, Nat.xor_xor_cancel_left]
    rfl

theorem crcShift_iterate_congr (n : Nat) (r : Half) : CrcCongr (r.toNat <<< n) (crcShift^[n] r).toNat := by
  induction n with
  | zero => exact crcCongr_of_eq rfl
  | succ n ih =>
    rw [Nat.shiftLeft_add, Function.iterate_succ_apply']
    exact (ih.shiftLeft 1).trans (crcShift_congr _)

/-- R172's byte step: the byte is added at the high byte's place and the sum multiplied by x^8. -/
theorem crcByte_congr (r : Half) (x : Byte) : CrcCongr ((r.toNat ^^^ x.toNat <<< 8) <<< 8) (crcByte r x).toNat := by
  have hin : (r ^^^ (x.setWidth 16 <<< 8)).toNat = r.toNat ^^^ x.toNat <<< 8 := by
    have := x.isLt
    rw [BitVec.toNat_xor, BitVec.toNat_shiftLeft, BitVec.toNat_setWidth_of_le (by decide), Nat.mod_eq_of_lt]
    rw [Nat.shiftLeft_eq]
    omega
  exact hin ▸ crcShift_iterate_congr 8 (r ^^^ (x.setWidth 16 <<< 8))

/-- One more byte keeps the value read so far, times x^16, congruent to the remainder. -/
theorem crcByte_congr_of_congr {n : Nat} {r : Half} (h : CrcCongr (n <<< 16) r.toNat) (x : Byte) :
    CrcCongr ((n * 256 + x.toNat) <<< 16) (crcByte r x).toNat := by
  have hvalue : (n * 256 + x.toNat) <<< 16 = (n <<< 16 ^^^ x.toNat <<< 8) <<< 8 :=
    calc (n * 256 + x.toNat) <<< 16
        = (n <<< 8 ^^^ x.toNat) <<< 16 := by rw [← shiftLeft_add_eq_xor x.isLt, Nat.shiftLeft_eq n]
      _ = (n <<< 16 ^^^ x.toNat <<< 8) <<< 8 := by simp only [Nat.shiftLeft_xor_distrib, ← Nat.shiftLeft_add]
  rw [hvalue]
  exact ((h.xor (crcCongr_of_eq rfl)).shiftLeft 8).trans (crcByte_congr r x)

/-! ## The statement -/

theorem crc16_congr (bs : List Byte) : CrcCongr (beNat bs <<< 16) (crc16 bs).toNat :=
  List.foldl_rel (r := fun (n : Nat) (r : Half) => CrcCongr (n <<< 16) r.toNat) (crcCongr_of_eq rfl)
    (fun x _ _ _ h => crcByte_congr_of_congr h x)

/-- Settles O10: the big-endian value times x^16 and the checksum stay congruent from byte to byte. -/
theorem crcIsPolynomialRemainder : Obligations.CrcIsPolynomialRemainder := by
  intro bs
  obtain ⟨shifts, h⟩ := crc16_congr bs
  exact ⟨shifts, by rw [← Nat.shiftLeft_eq]; exact h⟩

end Sys2Proof.Proofs
end

section
/-! Rounding to the nearest float (R21): `rneShift` is the nearest integer, ties to even; and the encoding `roundTo`
gives is a significand times a power of two, which no number the format holds is nearer to. Encodings here have no sign
bit. -/

namespace Sys2Proof.Proofs

open Sys2Proof.Machine

variable {n k t b d e i : Nat} {f : FloatFormat}

/-! ## Rounding to an integer -/

/-- The rule of R21 for the number y a target T is rounded to, against another number z: y is at least as near, and where
z is as near and differs from it, y's significand is `even`. -/
structure RoundsTo (T y z : Nat) (even : Prop) : Prop where
  dist_le : Nat.dist y T ≤ Nat.dist z T
  even_of_tie : Nat.dist y T = Nat.dist z T → z ≠ y → even

theorem RoundsTo.of_lt {T y z : Nat} {even : Prop} (h : Nat.dist y T < Nat.dist z T) : RoundsTo T y z even :=
  ⟨h.le, fun heq => absurd heq h.ne⟩

/-- Scaling all three numbers changes nothing. -/
theorem roundsTo_mul_iff {T y z c : Nat} {even : Prop} (hc : 0 < c) :
    RoundsTo (T * c) (y * c) (z * c) even ↔ RoundsTo T y z even := by
  have hle : Nat.dist y T * c ≤ Nat.dist z T * c ↔ Nat.dist y T ≤ Nat.dist z T := Nat.mul_le_mul_right_iff hc
  have heq : Nat.dist y T * c = Nat.dist z T * c ↔ Nat.dist y T = Nat.dist z T := Nat.mul_left_inj hc.ne'
  have hne : z * c ≠ y * c ↔ z ≠ y := not_congr (Nat.mul_left_inj hc.ne')
  constructor <;> rintro ⟨hnear, htie⟩
  · rw [Nat.dist_mul_right, Nat.dist_mul_right] at hnear htie
    exact ⟨hle.1 hnear, fun h h' => htie (heq.2 h) (hne.2 h')⟩
  · refine ⟨?_, fun h h' => htie ?_ (hne.1 h')⟩
    · rw [Nat.dist_mul_right, Nat.dist_mul_right]; exact hle.2 hnear
    · rw [Nat.dist_mul_right, Nat.dist_mul_right] at h; exact heq.1 h

/-- The distance as the absolute value of an integer. -/
theorem cast_dist (a b : Nat) : ((Nat.dist a b : Nat) : Int) = |(a : Int) - (b : Int)| := by
  rw [Int.abs_eq_natAbs, Nat.dist]; omega

theorem RoundsTo.abs {T y z : Nat} {even : Prop} (h : RoundsTo T y z even) :
    |(y : Int) - T| ≤ |(z : Int) - T| ∧ (|(y : Int) - T| = |(z : Int) - T| → z ≠ y → even) := by
  rw [← cast_dist, ← cast_dist, Nat.cast_le, Nat.cast_inj]
  exact ⟨h.dist_le, h.even_of_tie⟩

/-- The three ways a quotient is rounded, with the remainder that decides between them (R21). -/
theorem rneShift_cases (n k : Nat) :
    ∃ q r, n = q * 2 ^ k + r ∧ r < 2 ^ k
      ∧ ((2 * r < 2 ^ k ∧ rneShift n k = q) ∨ (2 ^ k < 2 * r ∧ rneShift n k = q + 1)
          ∨ (2 * r = 2 ^ k ∧ rneShift n k = q + q % 2)) := by
  refine ⟨n / 2 ^ k, n % 2 ^ k, (Nat.div_add_mod' n (2 ^ k)).symm, Nat.mod_lt _ (by positivity), ?_⟩
  rw [rneShift]
  split_ifs <;> omega

/-- No integer is nearer to n / 2^k than `rneShift n k`, and where another is as near, `rneShift n k` is even. -/
theorem rneShift_nearest (n k t : Nat) : RoundsTo n (rneShift n k * 2 ^ k) (t * 2 ^ k) (rneShift n k % 2 = 0) := by
  obtain ⟨q, r, hn, hr, h⟩ := rneShift_cases n k
  have hsucc : (q + 1) * 2 ^ k = q * 2 ^ k + 2 ^ k := Nat.succ_mul _ _
  have hother : t * 2 ^ k ≤ q * 2 ^ k ∨ q * 2 ^ k + 2 ^ k ≤ t * 2 ^ k := by
    rw [← hsucc]
    exact (Nat.lt_or_ge q t).symm.imp (Nat.mul_le_mul_right _) (Nat.mul_le_mul_right _)
  obtain hs | hs : rneShift n k = q ∨ rneShift n k = q + 1 := by omega
  · rw [hs] at h ⊢
    exact ⟨by unfold Nat.dist; omega, by unfold Nat.dist; omega⟩
  · rw [hs] at h ⊢
    rw [hsucc]
    exact ⟨by unfold Nat.dist; omega, by unfold Nat.dist; omega⟩

theorem rneShift_le (h : n ≤ b * 2 ^ k) : rneShift n k ≤ b := by
  obtain ⟨q, r, hn, hr, hs⟩ := rneShift_cases n k
  have hq : q ≤ b := Nat.le_of_mul_le_mul_right (by omega : q * 2 ^ k ≤ b * 2 ^ k) (by positivity)
  obtain rfl | hlt := hq.eq_or_lt <;> omega

theorem le_rneShift (h : b * 2 ^ k ≤ n) : b ≤ rneShift n k := by
  obtain ⟨q, r, hn, hr, hs⟩ := rneShift_cases n k
  have hq : b < q + 1 := Nat.lt_of_mul_lt_mul_right (a := 2 ^ k) (by rw [Nat.succ_mul]; omega)
  omega

/-- An integer rounds to itself. -/
theorem rneShift_mul_pow (t k : Nat) : rneShift (t * 2 ^ k) k = t :=
  le_antisymm (rneShift_le le_rfl) (le_rneShift le_rfl)

/-- What rounds up to an even number 2b or beyond starts at the midpoint below it. -/
theorem two_mul_le_rneShift_iff (hb : 0 < b) : 2 * b ≤ rneShift n k ↔ (4 * b - 1) * 2 ^ k ≤ 2 * n := by
  obtain ⟨q, r, hn, hr, hs⟩ := rneShift_cases n k
  have hbelow : q + 2 ≤ 2 * b → (q + 2) * 2 ^ k ≤ 2 * b * 2 ^ k := fun h => Nat.mul_le_mul_right _ h
  have habove : 2 * b ≤ q → 2 * b * 2 ^ k ≤ q * 2 ^ k := fun h => Nat.mul_le_mul_right _ h
  have heq : q + 1 = 2 * b → (q + 1) * 2 ^ k = 2 * b * 2 ^ k := fun h => by rw [h]
  have hmid : (4 * b - 1) * 2 ^ k + 2 ^ k = 2 * (2 * b * 2 ^ k) := by
    rw [← Nat.succ_mul, Nat.succ_eq_add_one, Nat.sub_add_cancel (by omega), ← Nat.mul_assoc]; congr 1; omega
  rw [Nat.add_mul] at hbelow heq
  obtain h | h | h : q + 2 ≤ 2 * b ∨ q + 1 = 2 * b ∨ 2 * b ≤ q := by omega
  · have := hbelow h; omega
  · have := heq h; omega
  · have := habove h; omega

/-! ## The numbers a format holds -/

/-- The place of an encoding's last significand bit, in quanta: the biased exponent less one, subnormals at 0. -/
def codeShift (f : FloatFormat) (e : Nat) : Nat := e / 2 ^ (f.prec - 1) - 1

/-- The significand of an encoding, hidden bit included. -/
def codeSig (f : FloatFormat) (e : Nat) : Nat := e - codeShift f e * 2 ^ (f.prec - 1)

/-- The magnitude of a finite encoding, in quanta (G1, G3). -/
def codeMagnitude (f : FloatFormat) (e : Nat) : Nat := codeSig f e * 2 ^ codeShift f e

theorem two_pow_prec (hp : 0 < f.prec) : 2 ^ f.prec = 2 * 2 ^ (f.prec - 1) := by
  rw [← Nat.pow_succ', Nat.succ_eq_add_one, Nat.sub_add_cancel hp]

theorem codeSig_lt (hp : 0 < f.prec) (e : Nat) : codeSig f e < 2 ^ f.prec := by
  have hmod := Nat.mod_lt e (Nat.two_pow_pos (f.prec - 1))
  have hdiv := Nat.div_add_mod' e (2 ^ (f.prec - 1))
  rw [two_pow_prec hp, codeSig, codeShift]
  obtain hq | ⟨q, hq⟩ : e / 2 ^ (f.prec - 1) = 0 ∨ ∃ q, e / 2 ^ (f.prec - 1) = q + 1 := by
    cases e / 2 ^ (f.prec - 1) <;> simp
  · rw [hq] at hdiv ⊢; omega
  · rw [hq, Nat.succ_mul] at hdiv
    rw [hq, Nat.add_sub_cancel]; omega

/-- An encoding put together from a significand, hidden bit included, and a place has their product as its magnitude; a
significand rounded up to 2^prec carries into the exponent. -/
theorem codeMagnitude_mul_add (hp : 0 < f.prec) {i s : Nat} (hs : s ≤ 2 ^ f.prec)
    (hi : i ≠ 0 → 2 ^ (f.prec - 1) ≤ s) : codeMagnitude f (i * 2 ^ (f.prec - 1) + s) = s * 2 ^ i := by
  have hpos := Nat.two_pow_pos (f.prec - 1)
  rw [two_pow_prec hp] at hs
  rw [codeMagnitude, codeSig, codeShift, Nat.mul_comm i, Nat.mul_add_div hpos]
  generalize 2 ^ (f.prec - 1) = B at *
  obtain hlt | hge := Nat.lt_or_ge s B
  · have h0 : i = 0 := by by_contra h; have := hi h; omega
    simp [h0, Nat.div_eq_of_lt hlt]
  · obtain rfl | hlt := hs.eq_or_lt
    · have hdiv : 2 * B / B = 2 := Nat.mul_div_cancel _ hpos
      have hsig : B * i + 2 * B - (i + 1) * B = B := by rw [Nat.add_mul, Nat.mul_comm i]; omega
      rw [hdiv, show i + 2 - 1 = i + 1 from rfl, hsig, Nat.pow_succ', ← Nat.mul_assoc, Nat.mul_comm B]
    · have hdiv : s / B = 1 := Nat.div_eq_of_lt_le (by omega) (by omega)
      rw [hdiv, Nat.add_sub_cancel, Nat.mul_comm i, Nat.add_sub_cancel_left]

/-! ## The rounded number -/

/-- The place of the last bit `roundTo` keeps of n / 2^d, in quanta. -/
def roundShift (f : FloatFormat) (n d : Nat) : Nat := (Nat.log2 n + f.quantum) - (d + f.prec - 1)

/-- The significand n / 2^d is rounded to. -/
def roundSig (f : FloatFormat) (n d : Nat) : Nat := rneShift (n * 2 ^ f.quantum) (d + roundShift f n d)

theorem roundTo_zero (f : FloatFormat) (d : Nat) : roundTo f 0 d = 0 := rfl

theorem roundTo_of_ne_zero (hn : n ≠ 0) (d : Nat) :
    roundTo f n d = min (roundShift f n d * 2 ^ (f.prec - 1) + roundSig f n d) f.inf := by
  rw [roundTo, if_neg hn]; rfl

theorem roundTo_le_inf (f : FloatFormat) (n d : Nat) : roundTo f n d ≤ f.inf := by
  obtain rfl | hn := eq_or_ne n 0
  · rw [roundTo_zero]; exact Nat.zero_le _
  · rw [roundTo_of_ne_zero hn]; exact min_le_right _ _

theorem roundTo_of_lt_inf (hn : n ≠ 0) (h : roundTo f n d < f.inf) :
    roundTo f n d = roundShift f n d * 2 ^ (f.prec - 1) + roundSig f n d := by
  rw [roundTo_of_ne_zero hn] at h ⊢; omega

/-- A carried significand is at most a normal one at a higher place. -/
theorem carry_le_hidden_bit {i j : Nat} (hp : 0 < f.prec) (h : i < j) (d : Nat) :
    2 ^ f.prec * 2 ^ (d + i) ≤ 2 ^ (f.prec - 1) * 2 ^ (d + j) := by
  rw [← Nat.pow_add, ← Nat.pow_add]; exact Nat.pow_le_pow_right (by decide) (by omega)

/-- Before rounding the significand is below 2^prec. -/
theorem lt_carry (hp : 0 < f.prec) (n d : Nat) : n * 2 ^ f.quantum < 2 ^ f.prec * 2 ^ (d + roundShift f n d) :=
  calc n * 2 ^ f.quantum < 2 ^ (Nat.log2 n + 1) * 2 ^ f.quantum :=
        Nat.mul_lt_mul_of_pos_right Nat.lt_log2_self (by positivity)
    _ = 2 ^ (Nat.log2 n + 1 + f.quantum) := (Nat.pow_add ..).symm
    _ ≤ 2 ^ (f.prec + (d + roundShift f n d)) := Nat.pow_le_pow_right (by decide) (by rw [roundShift]; omega)
    _ = 2 ^ f.prec * 2 ^ (d + roundShift f n d) := Nat.pow_add ..

/-- Above the subnormals its leading bit is the hidden one. -/
theorem hidden_bit_le (hp : 0 < f.prec) (hn : n ≠ 0) (h : roundShift f n d ≠ 0) :
    2 ^ (f.prec - 1) * 2 ^ (d + roundShift f n d) ≤ n * 2 ^ f.quantum :=
  calc 2 ^ (f.prec - 1) * 2 ^ (d + roundShift f n d)
      ≤ 2 ^ (Nat.log2 n + f.quantum) := by
        rw [← Nat.pow_add]; exact Nat.pow_le_pow_right (by decide) (by rw [roundShift] at h ⊢; omega)
    _ = 2 ^ Nat.log2 n * 2 ^ f.quantum := Nat.pow_add ..
    _ ≤ n * 2 ^ f.quantum := Nat.mul_le_mul_right _ (Nat.log2_self_le hn)

/-- Rounding may carry the significand to 2^prec and no further. -/
theorem roundSig_le (hp : 0 < f.prec) (n d : Nat) : roundSig f n d ≤ 2 ^ f.prec := rneShift_le (lt_carry hp n d).le

theorem le_roundSig (hp : 0 < f.prec) (hn : n ≠ 0) (h : roundShift f n d ≠ 0) :
    2 ^ (f.prec - 1) ≤ roundSig f n d :=
  le_rneShift (hidden_bit_le hp hn h)

theorem codeMagnitude_roundTo (hp : 0 < f.prec) (hn : n ≠ 0) (h : roundTo f n d < f.inf) :
    codeMagnitude f (roundTo f n d) = roundSig f n d * 2 ^ roundShift f n d := by
  rw [roundTo_of_lt_inf hn h]
  exact codeMagnitude_mul_add hp (roundSig_le hp n d) (le_roundSig hp hn)

/-- What is exactly a multiple of the last place kept is not changed by rounding. -/
theorem codeMagnitude_roundTo_exact (hp : 0 < f.prec) (h : roundTo f n d < f.inf) (ht : t < 2 ^ f.prec)
    (hn : n = t * 2 ^ i) (hd : d ≤ i + f.quantum) : codeMagnitude f (roundTo f n d) * 2 ^ d = n * 2 ^ f.quantum := by
  obtain rfl | ht0 := eq_or_ne t 0
  · simp [hn, roundTo_zero, codeMagnitude, codeSig]
  have hn0 : n ≠ 0 := by rw [hn]; positivity
  have hlog : Nat.log2 n < f.prec + i := by
    rw [Nat.log2_lt hn0, hn, Nat.pow_add]; exact Nat.mul_lt_mul_of_pos_right ht (by positivity)
  have hplace : d + roundShift f n d ≤ i + f.quantum := by rw [roundShift]; omega
  have hfactor : n * 2 ^ f.quantum = t * 2 ^ (i + f.quantum - (d + roundShift f n d)) * 2 ^ (d + roundShift f n d) := by
    rw [Nat.mul_assoc, ← Nat.pow_add, Nat.sub_add_cancel hplace, Nat.pow_add, ← Nat.mul_assoc, ← hn]
  rw [codeMagnitude_roundTo hp hn0 h, Nat.mul_assoc, ← Nat.pow_add, Nat.add_comm _ d, roundSig, hfactor,
    rneShift_mul_pow]

/-- No number the format holds is nearer to n / 2^d than what it is rounded to, and where another is as near, the
encoding is even. -/
theorem roundTo_nearest (hp : 1 < f.prec) (h : roundTo f n d < f.inf) (ht : t < 2 ^ f.prec) (i : Nat) :
    RoundsTo (n * 2 ^ f.quantum) (codeMagnitude f (roundTo f n d) * 2 ^ d) (t * 2 ^ i * 2 ^ d)
      (roundTo f n d % 2 = 0) := by
  have hp0 : 0 < f.prec := by omega
  obtain rfl | hn := eq_or_ne n 0
  · exact ⟨by simp [roundTo_zero, codeMagnitude, codeSig], fun _ _ => rfl⟩
  rw [codeMagnitude_roundTo hp0 hn h, Nat.mul_assoc, ← Nat.pow_add, Nat.add_comm _ d]
  obtain hle | hlt := le_or_gt (roundShift f n d) i
  · have hz : t * 2 ^ i * 2 ^ d = t * 2 ^ (i - roundShift f n d) * 2 ^ (d + roundShift f n d) := by
      rw [Nat.mul_assoc, Nat.mul_assoc, ← Nat.pow_add, ← Nat.pow_add]; congr 2; omega
    obtain ⟨hnear, heven⟩ :=
      rneShift_nearest (n * 2 ^ f.quantum) (d + roundShift f n d) (t * 2 ^ (i - roundShift f n d))
    rw [hz]
    refine ⟨hnear, fun heq hne => ?_⟩
    have hhidden : 2 ^ (f.prec - 1) = 2 * 2 ^ (f.prec - 2) := by rw [← Nat.pow_succ']; congr 1; omega
    have hsig : roundSig f n d % 2 = 0 := heven heq hne
    rw [roundTo_of_lt_inf hn h, hhidden, Nat.mul_left_comm]; omega
  · have hhidden := hidden_bit_le hp0 hn (by omega : roundShift f n d ≠ 0)
    have hz : t * 2 ^ i * 2 ^ d < 2 ^ (f.prec - 1) * 2 ^ (d + roundShift f n d) :=
      calc t * 2 ^ i * 2 ^ d = t * 2 ^ (d + i) := by rw [Nat.mul_assoc, ← Nat.pow_add, Nat.add_comm]
        _ < 2 ^ f.prec * 2 ^ (d + i) := Nat.mul_lt_mul_of_pos_right ht (by positivity)
        _ ≤ 2 ^ (f.prec - 1) * 2 ^ (d + roundShift f n d) := carry_le_hidden_bit hp0 hlt d
    have hnear := (rneShift_nearest (n * 2 ^ f.quantum) (d + roundShift f n d) (2 ^ (f.prec - 1))).dist_le
    refine .of_lt (hnear.trans_lt ?_)
    rw [Nat.dist_eq_sub_of_le hhidden, Nat.dist_eq_sub_of_le (by omega)]; omega

/-! ## Overflow -/

/-- The encoding reaches infinity's where the number reaches the midpoint between the greatest finite number and the
power of two after it (R21, R215): `i` is the greatest place a finite number has. -/
theorem roundTo_eq_inf_iff (hp : 0 < f.prec) (hinf : f.inf = (i + 2) * 2 ^ (f.prec - 1)) :
    roundTo f n d = f.inf ↔ (2 ^ (f.prec + 1) - 1) * 2 ^ (d + i) ≤ 2 * (n * 2 ^ f.quantum) := by
  have hpos := Nat.two_pow_pos (f.prec - 1)
  have hpos' := Nat.two_pow_pos (d + i)
  have hfour : 2 ^ (f.prec + 1) = 4 * 2 ^ (f.prec - 1) := by rw [Nat.pow_succ, two_pow_prec hp]; omega
  obtain rfl | hn := eq_or_ne n 0
  · have : (2 ^ (f.prec + 1) - 1) * 2 ^ (d + i) ≠ 0 := by rw [hfour]; exact Nat.mul_ne_zero (by omega) (by omega)
    rw [roundTo_zero, hinf, Nat.add_mul]; omega
  have hsig := roundSig_le hp n d
  rw [roundTo_of_ne_zero hn, min_eq_right_iff, hfour, hinf]
  rw [two_pow_prec hp] at hsig
  obtain hlt | rfl | hgt := Nat.lt_trichotomy (roundShift f n d) i
  · have hcode : (roundShift f n d + 1) * 2 ^ (f.prec - 1) ≤ i * 2 ^ (f.prec - 1) := Nat.mul_le_mul_right _ hlt
    have hbelow : n * 2 ^ f.quantum < 2 ^ (f.prec - 1) * 2 ^ (d + i) :=
      (lt_carry hp n d).trans_le (carry_le_hidden_bit hp hlt d)
    have hmid : 2 ^ (f.prec - 1) * 2 ^ (d + i) * 2 ≤ (4 * 2 ^ (f.prec - 1) - 1) * 2 ^ (d + i) := by
      rw [Nat.mul_right_comm]; exact Nat.mul_le_mul_right _ (by omega)
    rw [Nat.add_mul] at hcode ⊢; omega
  · rw [← two_mul_le_rneShift_iff hpos, Nat.add_mul, Nat.add_le_add_iff_left]; rfl
  · have hcode : (i + 1) * 2 ^ (f.prec - 1) ≤ roundShift f n d * 2 ^ (f.prec - 1) := Nat.mul_le_mul_right _ hgt
    have hhidden := le_roundSig hp hn (by omega : roundShift f n d ≠ 0)
    have habove : 2 ^ f.prec * 2 ^ (d + i) ≤ n * 2 ^ f.quantum :=
      (carry_le_hidden_bit hp hgt d).trans (hidden_bit_le hp hn (by omega))
    have hmid : (4 * 2 ^ (f.prec - 1) - 1) * 2 ^ (d + i) ≤ 2 ^ f.prec * 2 ^ (d + i) * 2 := by
      rw [two_pow_prec hp, Nat.mul_right_comm]; exact Nat.mul_le_mul_right _ (by omega)
    rw [Nat.add_mul] at hcode ⊢; omega

/-- Numbers below 2^i quanta stay finite. -/
theorem roundTo_lt_inf (hp : 0 < f.prec) (hinf : f.inf = (i + 2) * 2 ^ (f.prec - 1))
    (hn : n * 2 ^ f.quantum < 2 ^ (d + i)) : roundTo f n d < f.inf := by
  refine (roundTo_le_inf f n d).lt_of_ne fun h => ?_
  have hmid := (roundTo_eq_inf_iff hp hinf).1 h
  have hpos := Nat.two_pow_pos f.prec
  have htwo : 2 * 2 ^ (d + i) ≤ (2 ^ (f.prec + 1) - 1) * 2 ^ (d + i) := by
    rw [Nat.pow_succ]
    exact Nat.mul_le_mul_right _ (by have := Nat.pow_le_pow_right (n := 2) (by decide) hp; omega)
  omega

end Sys2Proof.Proofs
end

section
/-! The encodings as bit vectors (G1 to G4): binary64 and binary32 have the fields of a `FloatFormat` below their sign
bit, and rounding to binary64 is rounding to that format. -/

namespace Sys2Proof.Proofs

open Sys2Proof.Machine

variable {n t d i : Nat} {f : FloatFormat} {x : Float64Bits}

/-- A power of two in two parts, for numerals too large to evaluate. -/
theorem two_pow_eq_mul {a b c : Nat} (h : a = b + c) : 2 ^ a = 2 ^ b * 2 ^ c := by rw [h, Nat.pow_add]

/-- The magnitude out of the exponent and fraction fields. -/
theorem codeMagnitude_fields (f : FloatFormat) (e : Nat) :
    codeMagnitude f e =
      if e / 2 ^ (f.prec - 1) = 0 then e % 2 ^ (f.prec - 1)
      else (2 ^ (f.prec - 1) + e % 2 ^ (f.prec - 1)) * 2 ^ (e / 2 ^ (f.prec - 1) - 1) := by
  have hdiv := Nat.div_add_mod' e (2 ^ (f.prec - 1))
  rw [codeMagnitude, codeSig, codeShift]
  cases hq : e / 2 ^ (f.prec - 1) with
  | zero => rw [hq] at hdiv; rw [if_pos rfl, Nat.zero_sub, Nat.zero_mul, Nat.pow_zero]; omega
  | succ q =>
    rw [hq, Nat.succ_mul] at hdiv
    rw [if_neg (Nat.succ_ne_zero q), Nat.add_sub_cancel]
    congr 1; omega

/-! ## binary64 -/

theorem binary64_quantum : binary64.quantum = 1074 := rfl

theorem binary64_inf : binary64.inf = (2045 + 2) * 2 ^ (binary64.prec - 1) := rfl

theorem exponent64_eq (x : Float64Bits) : exponent64 x = x.toNat % 2 ^ 63 / 2 ^ 52 := by
  rw [exponent64, BitVec.extractLsb'_toNat, Nat.shiftRight_eq_div_pow]; omega

theorem fraction64_eq (x : Float64Bits) : fraction64 x = x.toNat % 2 ^ 63 % 2 ^ 52 := by
  rw [fraction64, BitVec.extractLsb'_toNat, Nat.shiftRight_zero]; omega

theorem magnitude64_eq (x : Float64Bits) : magnitude64 x = codeMagnitude binary64 (x.toNat % 2 ^ 63) := by
  rw [codeMagnitude_fields, magnitude64, exponent64_eq, fraction64_eq]; rfl

theorem isFinite64_iff (x : Float64Bits) : isFinite64 x = true ↔ x.toNat % 2 ^ 63 < binary64.inf := by
  rw [isFinite64, exponent64_eq, bne_iff_ne, binary64_inf, show binary64.prec - 1 = 52 from rfl]; omega

theorem signbit_eq (x : Float64Bits) : signbit x = decide (2 ^ 63 ≤ x.toNat) := BitVec.msb_eq_decide x

@[simp] theorem toNat_negate64_mod (x : Float64Bits) : (negate64 x).toNat % 2 ^ 63 = x.toNat % 2 ^ 63 := by
  rw [negate64, BitVec.toNat_xor, Nat.xor_mod_two_pow]; exact Nat.xor_zero _

@[simp] theorem magnitude64_negate64 (x : Float64Bits) : magnitude64 (negate64 x) = magnitude64 x := by
  rw [magnitude64_eq, magnitude64_eq, toNat_negate64_mod]

@[simp] theorem isFinite64_negate64 (x : Float64Bits) : isFinite64 (negate64 x) = isFinite64 x := by
  rw [Bool.eq_iff_iff, isFinite64_iff, isFinite64_iff, toNat_negate64_mod]

@[simp] theorem signbit_negate64 (x : Float64Bits) : signbit (negate64 x) = !signbit x := by
  simp [signbit, negate64]

/-! ## Rounding to binary64 -/

theorem roundTo_binary64_lt (n d : Nat) : roundTo binary64 n d < 2 ^ 63 :=
  (roundTo_le_inf binary64 n d).trans_lt (by decide)

theorem toNat_roundF64 (n d : Nat) : (roundF64 n d).toNat = roundTo binary64 n d := by
  have h := roundTo_binary64_lt n d
  rw [roundF64, BitVec.toNat_ofNat, Nat.mod_eq_of_lt (by omega)]

theorem toNat_roundF64_mod (n d : Nat) : (roundF64 n d).toNat % 2 ^ 63 = roundTo binary64 n d := by
  rw [toNat_roundF64, Nat.mod_eq_of_lt (roundTo_binary64_lt n d)]

@[simp] theorem roundF64_zero (d : Nat) : roundF64 0 d = 0#64 := rfl

@[simp] theorem signbit_roundF64 (n d : Nat) : signbit (roundF64 n d) = false := by
  rw [signbit_eq, toNat_roundF64]; exact decide_eq_false (roundTo_binary64_lt n d).not_ge

theorem magnitude64_roundF64 (n d : Nat) :
    magnitude64 (roundF64 n d) = codeMagnitude binary64 (roundTo binary64 n d) := by
  rw [magnitude64_eq, toNat_roundF64_mod]

theorem isFinite64_roundF64 {b : Nat} (hn : n < 2 ^ b) (hb : b ≤ 900) (d : Nat) :
    isFinite64 (roundF64 n d) = true := by
  rw [isFinite64_iff, toNat_roundF64_mod]
  refine roundTo_lt_inf (by decide) binary64_inf ?_
  calc n * 2 ^ binary64.quantum < 2 ^ b * 2 ^ binary64.quantum := Nat.mul_lt_mul_of_pos_right hn (by positivity)
    _ ≤ 2 ^ (d + 2045) := by
      rw [← Nat.pow_add, binary64_quantum]; exact Nat.pow_le_pow_right (by decide) (by omega)

/-- round_f64 gives the binary64 nearest to n / 2^d, in quanta of 2^(-1074), and the even one of two nearest (R21). -/
theorem roundF64_nearest (hfin : isFinite64 (roundF64 n d) = true) (z : Float64Bits) :
    RoundsTo (n * 2 ^ 1074) (magnitude64 (roundF64 n d) * 2 ^ d) (magnitude64 z * 2 ^ d)
      ((roundF64 n d).getLsbD 0 = false) := by
  rw [isFinite64_iff, toNat_roundF64_mod] at hfin
  have heven : (roundF64 n d).getLsbD 0 = false ↔ roundTo binary64 n d % 2 = 0 := by
    rw [BitVec.getLsbD, toNat_roundF64, Nat.testBit_zero]; simp
  rw [magnitude64_roundF64, magnitude64_eq z, heven, ← binary64_quantum]
  exact roundTo_nearest (by decide) hfin (codeSig_lt (by decide) _) _

/-- A number of 53 significant bits, not below the last quantum, is exactly itself. -/
theorem magnitude64_roundF64_exact (hfin : isFinite64 (roundF64 n d) = true) (ht : t < 2 ^ 53) (hn : n = t * 2 ^ i)
    (hd : d ≤ i + 1074) : magnitude64 (roundF64 n d) * 2 ^ d = n * 2 ^ 1074 := by
  rw [isFinite64_iff, toNat_roundF64_mod] at hfin
  rw [magnitude64_roundF64, ← binary64_quantum]
  exact codeMagnitude_roundTo_exact (by decide) hfin ht hn hd

/-! ## binary32 -/

theorem binary32_quantum : binary32.quantum = 149 := rfl

theorem binary32_inf : binary32.inf = (253 + 2) * 2 ^ (binary32.prec - 1) := rfl

theorem exponent32_eq (u : Word) : exponent32 u = u.toNat % 2 ^ 31 / 2 ^ 23 := by
  rw [exponent32, BitVec.extractLsb'_toNat, Nat.shiftRight_eq_div_pow]; omega

theorem fraction32_eq (u : Word) : fraction32 u = u.toNat % 2 ^ 31 % 2 ^ 23 := by
  rw [fraction32, BitVec.extractLsb'_toNat, Nat.shiftRight_zero]; omega

theorem magnitude32_eq (u : Word) : magnitude32 u = codeMagnitude binary32 (u.toNat % 2 ^ 31) := by
  rw [codeMagnitude_fields, magnitude32, exponent32_eq, fraction32_eq]; rfl

theorem getLsbD_31 (u : Word) : u.getLsbD 31 = decide (2 ^ 31 ≤ u.toNat) := BitVec.msb_eq_decide u

theorem exponent32_ne_iff (u : Word) : exponent32 u ≠ 0xFF ↔ u.toNat % 2 ^ 31 < binary32.inf := by
  rw [exponent32_eq, binary32_inf, show binary32.prec - 1 = 23 from rfl]; omega

end Sys2Proof.Proofs
end

section
/-! Byte and digit strings as numbers (R18, R198, R214): what the big-endian and decimal writers put down, read back. -/

namespace Sys2Proof.Proofs

open Sys2Proof.Machine Sys2Proof.Laws

variable {v : List Byte}

/-! ## Bytes -/

theorem beNat_append_singleton (v : List Byte) (b : Byte) : beNat (v ++ [b]) = beNat v * 256 + b.toNat := by
  simp [beNat]

/-- Big-endian is little-endian backwards. -/
theorem beNat_reverse (v : List Byte) : beNat v.reverse = leNat v := by
  induction v with
  | nil => rfl
  | cons b rest ih => rw [List.reverse_cons, beNat_append_singleton, ih, leNat]; omega

theorem beNat_toBE (len n : Nat) : beNat (toBE len n) = n % 2 ^ (8 * len) := by rw [toBE, beNat_reverse, leNat_toLE]

theorem beNat_lt (v : List Byte) : beNat v < 2 ^ (8 * v.length) := by
  induction v using List.reverseRecOn with
  | nil => decide
  | append_singleton v b ih =>
    have hb := b.isLt
    have hpow : 2 ^ (8 * (v ++ [b]).length) = 2 ^ (8 * v.length) * 256 := by
      rw [List.length_append, List.length_singleton, Nat.mul_succ, Nat.pow_add]
    rw [beNat_append_singleton, hpow]
    omega

theorem beNat_zeros (n : Nat) : beNat (List.replicate n 0x00#8) = 0 := by
  induction n with
  | zero => rfl
  | succ n ih => rw [List.replicate_succ', beNat_append_singleton, ih]; rfl

theorem beNat_cons_zero (v : List Byte) : beNat (0x00#8 :: v) = beNat v := by simp [beNat]

/-- The bytes of a number, by the power of 256 each counts. -/
theorem toLE_eq_map (len n : Nat) : toLE len n = (List.range len).map fun i => BitVec.ofNat 8 (n / 256 ^ i) := by
  induction len generalizing n with
  | zero => rfl
  | succ len ih =>
    rw [toLE, ih, List.range_succ_eq_map, List.map_cons, List.map_map]
    simp only [Function.comp_def, Nat.pow_zero, Nat.div_one, Nat.div_div_eq_div_mul, ← Nat.pow_succ']

/-- The little-endian bytes of a bit vector are its bits, eight by eight. -/
theorem toLE_toNat {w : Nat} (len : Nat) (x : BitVec w) :
    toLE len x.toNat = (List.range len).map fun i => x.extractLsb' (8 * i) 8 := by
  rw [toLE_eq_map]
  refine List.map_congr_left fun i _ => BitVec.eq_of_toNat_eq ?_
  rw [BitVec.toNat_ofNat, BitVec.extractLsb'_toNat, Nat.shiftRight_eq_div_pow, Nat.pow_mul]

/-- The first byte is the most significant. -/
theorem toBE_succ (len n : Nat) : toBE (len + 1) n = BitVec.ofNat 8 (n / 256 ^ len) :: toBE len n := by
  rw [toBE, toBE, toLE_eq_map, toLE_eq_map, List.range_succ, List.map_append, List.reverse_append]; rfl

/-! ## Digits -/

/-- The decimal value R198 gives a string of ASCII digits, most significant first. -/
def digitsValue (v : List Byte) : Nat := Nat.ofDigits 10 (v.reverse.map fun b => b.toNat - 0x30)

/-- Every byte is an ASCII digit. -/
def AllDigits (v : List Byte) : Prop := ∀ b ∈ v, 0x30 ≤ b.toNat ∧ b.toNat ≤ 0x39

theorem isDigit_iff (b : Byte) : isDigit b = true ↔ 0x30 ≤ b.toNat ∧ b.toNat ≤ 0x39 := by
  simp [isDigit, BitVec.le_def]

theorem all_isDigit_iff : v.all isDigit = true ↔ AllDigits v := by simp only [List.all_eq_true, isDigit_iff, AllDigits]

theorem decimalValue_eq (v : List Byte) : decimalValue v = digitsValue v := by
  induction v using List.reverseRecOn with
  | nil => rfl
  | append_singleton v b ih =>
    rw [digitsValue, List.reverse_append, List.reverse_singleton, List.singleton_append, List.map_cons,
      Nat.ofDigits_cons, ← digitsValue, ← ih, decimalValue, List.foldl_append, ← decimalValue, Nat.mul_comm,
      Nat.add_comm]
    rfl

theorem digitsValue_lt (h : AllDigits v) : digitsValue v < 10 ^ v.length := by
  have hdigit : ∀ d ∈ v.reverse.map fun b => b.toNat - 0x30, d < 10 := by
    intro d hd
    obtain ⟨b, hb, rfl⟩ := List.mem_map.1 hd
    have := h b (List.mem_reverse.1 hb)
    omega
  simpa [digitsValue] using Nat.ofDigits_lt_base_pow_length (by decide) hdigit

theorem toNat_digit (n : Nat) : (BitVec.ofNat 8 (0x30 + n % 10)).toNat = 0x30 + n % 10 := by
  rw [BitVec.toNat_ofNat]; omega

theorem allDigits_toDecimal (len n : Nat) : AllDigits (toDecimal len n) := by
  intro b hb
  rw [toDecimal, List.mem_reverse] at hb
  induction len generalizing n with
  | zero => cases hb
  | succ len ih =>
    obtain rfl | hb := List.mem_cons.1 hb
    · rw [toNat_digit]; omega
    · exact ih _ hb

theorem digitsValue_toDecimal (len n : Nat) : digitsValue (toDecimal len n) = n % 10 ^ len := by
  rw [digitsValue, toDecimal, List.reverse_reverse]
  induction len generalizing n with
  | zero => simp [digitsLE, Nat.mod_one]
  | succ len ih =>
    rw [digitsLE, List.map_cons, Nat.ofDigits_cons, ih, toNat_digit, Nat.pow_succ', Nat.mod_mul,
      Nat.add_sub_cancel_left]

end Sys2Proof.Proofs
end

section
/-! The value decoder (R193 to R202): each kind of format decodes to the number its bytes stand for. -/

namespace Sys2Proof.Proofs

open Sys2Proof.Machine Sys2Proof.Laws

variable {td : Byte} {m : Nat} {v : List Byte} {u : Word} {x : Float64Bits}

/-! ## The decoder by format -/

theorem dec_unsigned (h : hasCode unsignedCodes td m) (v : List Byte) : dec td v = roundF64 (beNat v) m := by
  rw [dec, tdFormat_of_unsignedCodes h]; rfl

theorem dec_signed (h : hasCode signedCodes td m) (v : List Byte) : dec td v = decSigned m v := by
  rw [dec, tdFormat_of_signedCodes h]

theorem dec_decimal (h : tdFormat td = .decimal) (v : List Byte) :
    dec td v = if v.all isDigit then roundF64 (digitsValue v) 0 else 0#64 := by
  rw [dec, h, ← decimalValue_eq]; rfl

/-- The format is that of the high nibble (R192). -/
theorem tdFormat_of_nibble {c : BitVec 4} (h : td.extractLsb' 4 4 = c) : tdFormat td = formatOf c.toNat := by
  rw [← h]; rfl

/-! ## Reserved formats and floats of other lengths -/

/-- Settles O17: the reserved codes select `reserved`, and `decFloat` has a value for lengths 4 and 8 alone. -/
theorem reservedAndOddFloatsDecodeToZero : Obligations.ReservedAndOddFloatsDecodeToZero := by
  refine fun td v => ⟨?_, fun h h4 h8 => ?_⟩
  · rintro (h | h) <;> rw [dec, tdFormat_of_nibble h] <;> rfl
  · rw [dec, tdFormat_of_nibble h]
    exact (if_neg h4).trans (if_neg h8)

/-! ## Unsigned fixed point -/

/-- Settles O14: fifteen bytes are below 2^120, so their quotient does not overflow and round_f64 gives its nearest. -/
theorem unsignedDecodeRoundsToNearestEven : Obligations.UnsignedDecodeRoundsToNearestEven := by
  intro td m v hcode hlen
  have hfin : isFinite64 (roundF64 (beNat v) m) = true := isFinite64_roundF64 (beNat_lt v) (by omega) m
  rw [dec_unsigned hcode]
  refine ⟨hfin, signbit_roundF64 _ _, fun z _ => ?_⟩
  obtain ⟨hnear, heven⟩ := (roundF64_nearest hfin z).abs
  exact ⟨hnear, fun heq hne => heven heq fun h => hne (Nat.eq_of_mul_eq_mul_right (by positivity) h)⟩

/-! ## Signed fixed point -/

theorem decSigned_nil (m : Nat) : decSigned m [] = 0#64 := roundF64_zero m

theorem decSigned_cons (m : Nat) (b : Byte) (v : List Byte) :
    decSigned m (b :: v) =
      if b.getLsbD 7 then negate64 (roundF64 (beNat ((b &&& 0x7F#8) :: v)) m)
      else roundF64 (beNat ((b &&& 0x7F#8) :: v)) m := rfl

theorem and_0x7F_eq_self {b : Byte} (h : b.getLsbD 7 = false) : b &&& 0x7F#8 = b := by
  decide +revert

/-- Settles O15: `decSigned` case by case; a cleared sign bit that was not set changes no byte. -/
theorem signedDecodeIsSignAndMagnitude : Obligations.SignedDecodeIsSignAndMagnitude := by
  intro td tu m hs hu
  refine ⟨?_, fun n => ?_, fun b rest => ?_⟩
  · rw [dec_signed hs, decSigned_nil]
  · rw [dec_signed hs, decSigned_cons, show 0x80#8 &&& 0x7F#8 = 0x00#8 from rfl, beNat_cons_zero, beNat_zeros,
      roundF64_zero, if_pos (by decide)]
    rfl
  · rw [dec_signed hs, decSigned_cons, dec_unsigned hu, dec_unsigned hu]
    cases hb : b.getLsbD 7
    · rw [and_0x7F_eq_self hb, if_neg Bool.false_ne_true, if_neg Bool.false_ne_true]
    · rw [if_pos rfl, if_pos rfl, negate64]

/-! ## Decimal text -/

/-- Up to 15 digits decode to exactly their value: it has fewer than 53 bits. -/
theorem dec_digits (htd : tdFormat td = .decimal) (hlen : v.length ≤ 15) (hdigits : AllDigits v) :
    isFinite64 (dec td v) = true ∧ signbit (dec td v) = false ∧ magnitude64 (dec td v) = digitsValue v * 2 ^ 1074 := by
  have hlt : digitsValue v < 2 ^ 53 :=
    calc digitsValue v < 10 ^ v.length := digitsValue_lt hdigits
      _ ≤ 10 ^ 15 := Nat.pow_le_pow_right (by decide) hlen
      _ < 2 ^ 53 := by decide
  have hfin : isFinite64 (roundF64 (digitsValue v) 0) = true := isFinite64_roundF64 hlt (by decide) 0
  have hexact := magnitude64_roundF64_exact (i := 0) hfin hlt (by simp) (Nat.zero_le _)
  rw [dec_decimal htd, if_pos (all_isDigit_iff.2 hdigits)]
  exact ⟨hfin, signbit_roundF64 _ _, by rwa [Nat.pow_zero, Nat.mul_one] at hexact⟩

/-- Settles O16: digits by `dec_digits`; no bytes have the value 0, and a byte that is no digit fails the test. -/
theorem decimalTextDecodesExactly : Obligations.DecimalTextDecodesExactly := by
  intro td v h hlen
  have htd : tdFormat td = .decimal := tdFormat_of_nibble h
  refine ⟨dec_digits htd hlen, ?_, ?_⟩
  · rintro rfl; rw [dec_decimal htd]; rfl
  · rintro ⟨b, hb, hout⟩
    rw [dec_decimal htd, if_neg]
    intro hall
    have := all_isDigit_iff.1 hall b hb
    omega

/-! ## Four float bytes -/

theorem ofNat_leNat_four (b0 b1 b2 b3 : Byte) : BitVec.ofNat 32 (leNat [b0, b1, b2, b3]) = b3 ++ b2 ++ b1 ++ b0 := by
  refine BitVec.eq_of_toNat_eq ?_
  have h0 := b0.isLt; have h1 := b1.isLt; have h2 := b2.isLt; have h3 := b3.isLt
  simp only [leNat, BitVec.toNat_ofNat, BitVec.toNat_append]
  rw [← Nat.shiftLeft_add_eq_or_of_lt h2, ← Nat.shiftLeft_add_eq_or_of_lt h1, ← Nat.shiftLeft_add_eq_or_of_lt h0]
  simp only [Nat.shiftLeft_eq]
  omega

theorem dec_float_four (h : tdFormat td = .float) (b0 b1 b2 b3 : Byte) :
    dec td [b0, b1, b2, b3] = widen32 (b3 ++ b2 ++ b1 ++ b0) := by
  rw [dec, h, ← ofNat_leNat_four]; rfl

theorem widen32_finite (h : exponent32 u ≠ 0xFF) :
    widen32 u = if u.getLsbD 31 then negate64 (roundF64 (magnitude32 u) 149) else roundF64 (magnitude32 u) 149 := by
  rw [widen32, if_neg h]; rfl

theorem magnitude32_lt (h : exponent32 u ≠ 0xFF) : magnitude32 u < 2 ^ 277 := by
  rw [exponent32_ne_iff, binary32_inf, show binary32.prec - 1 = 23 from rfl] at h
  have hsig : codeSig binary32 (u.toNat % 2 ^ 31) < 2 ^ 24 := codeSig_lt (by decide) _
  have hshift : codeShift binary32 (u.toNat % 2 ^ 31) ≤ 253 := by
    rw [codeShift, show binary32.prec - 1 = 23 from rfl]; omega
  calc magnitude32 u
      = codeSig binary32 (u.toNat % 2 ^ 31) * 2 ^ codeShift binary32 (u.toNat % 2 ^ 31) := magnitude32_eq u
    _ < 2 ^ 24 * 2 ^ codeShift binary32 (u.toNat % 2 ^ 31) := Nat.mul_lt_mul_of_pos_right hsig (by positivity)
    _ ≤ 2 ^ 24 * 2 ^ 253 := Nat.mul_le_mul_left _ (Nat.pow_le_pow_right (by decide) hshift)
    _ = 2 ^ 277 := (two_pow_eq_mul (by decide)).symm

/-- A finite binary32 has few enough bits, none below 2^(-149), so that binary64 holds it exactly. -/
theorem widen32_exact (h : exponent32 u ≠ 0xFF) :
    isFinite64 (widen32 u) = true ∧ signbit (widen32 u) = u.getLsbD 31
      ∧ magnitude64 (widen32 u) = magnitude32 u * 2 ^ 925 := by
  have hfin : isFinite64 (roundF64 (magnitude32 u) 149) = true := isFinite64_roundF64 (magnitude32_lt h) (by decide) _
  have hsig : codeSig binary32 (u.toNat % 2 ^ 31) < 2 ^ 53 :=
    (codeSig_lt (by decide) _).trans_le (Nat.pow_le_pow_right (by decide) (by decide))
  have hexact := magnitude64_roundF64_exact hfin hsig (magnitude32_eq u) (by omega)
  have hmag : magnitude64 (roundF64 (magnitude32 u) 149) = magnitude32 u * 2 ^ 925 := by
    refine Nat.eq_of_mul_eq_mul_right (Nat.two_pow_pos 149) ?_
    rw [hexact, Nat.mul_assoc, ← two_pow_eq_mul (by decide : 1074 = 925 + 149)]
  rw [widen32_finite h]
  cases u.getLsbD 31
  · exact ⟨hfin, signbit_roundF64 _ _, hmag⟩
  · refine ⟨(isFinite64_negate64 _).trans hfin, ?_, (magnitude64_negate64 _).trans hmag⟩
    rw [if_pos rfl, signbit_negate64, signbit_roundF64]; rfl

theorem widen32_infinite (h : exponent32 u = 0xFF) (hf : fraction32 u = 0) :
    widen32 u = if u.getLsbD 31 then 0xFFF0000000000000#64 else 0x7FF0000000000000#64 := by
  have hsign : u.extractLsb' 31 1 = BitVec.ofBool (u.getLsbD 31) := by
    ext i hi
    obtain rfl : i = 0 := by omega
    rw [BitVec.getElem_extractLsb', BitVec.getElem_ofBool_zero]
  rw [widen32, if_pos h, if_pos hf, hsign]
  cases u.getLsbD 31 <;> rfl

/-- A widened NaN as a number: sign, exponent field 0x7FF, the quiet bit, the payload and 29 zeros (R200). -/
theorem toNat_widen32_nan (h : exponent32 u = 0xFF) (hf : fraction32 u ≠ 0) :
    (widen32 u).toNat =
      u.toNat / 2 ^ 31 * 2 ^ 63 + 0x7FF * 2 ^ 52 + 1 * 2 ^ 51 + u.toNat % 2 ^ 22 * 2 ^ 29 := by
  have hsign : (u.extractLsb' 31 1).toNat = u.toNat / 2 ^ 31 := by
    rw [BitVec.extractLsb'_toNat, Nat.shiftRight_eq_div_pow]; omega
  have hpayload : (u.extractLsb' 0 22).toNat = u.toNat % 2 ^ 22 := by
    rw [BitVec.extractLsb'_toNat, Nat.shiftRight_zero]
  rw [widen32, if_pos h, if_neg hf]
  simp only [BitVec.toNat_append, hsign, hpayload, BitVec.toNat_ofNat]
  rw [← Nat.shiftLeft_add_eq_or_of_lt (by omega), ← Nat.shiftLeft_add_eq_or_of_lt (by omega),
    ← Nat.shiftLeft_add_eq_or_of_lt (by omega), ← Nat.shiftLeft_add_eq_or_of_lt (by omega)]
  simp only [Nat.shiftLeft_eq]
  omega

theorem widen32_nan (h : exponent32 u = 0xFF) (hf : fraction32 u ≠ 0) :
    signbit (widen32 u) = u.getLsbD 31 ∧ exponent64 (widen32 u) = 0x7FF ∧ (widen32 u).getLsbD 51 = true
      ∧ (widen32 u).extractLsb' 29 22 = u.extractLsb' 0 22 ∧ (widen32 u).extractLsb' 0 29 = 0#29 := by
  have hy := toNat_widen32_nan h hf
  have hu := u.isLt
  refine ⟨?_, ?_, ?_, BitVec.eq_of_toNat_eq ?_, BitVec.eq_of_toNat_eq ?_⟩
  · rw [signbit_eq, getLsbD_31, hy, decide_eq_decide]; omega
  · rw [exponent64_eq, hy]; omega
  · rw [BitVec.getLsbD, Nat.testBit_eq_decide_div_mod_eq, hy, decide_eq_true_iff]; omega
  · rw [BitVec.extractLsb'_toNat, BitVec.extractLsb'_toNat, Nat.shiftRight_eq_div_pow, Nat.shiftRight_zero, hy]; omega
  · rw [BitVec.extractLsb'_toNat, Nat.shiftRight_zero, hy, BitVec.toNat_ofNat]; omega

/-- Settles O18, by the exponent and fraction of the binary32. -/
theorem binary32WidensExactly : Obligations.Binary32WidensExactly := by
  intro td b0 b1 b2 b3 h u y
  have hy : y = widen32 u := dec_float_four (tdFormat_of_nibble h) b0 b1 b2 b3
  rw [hy]
  exact ⟨widen32_exact, widen32_infinite, widen32_nan⟩

end Sys2Proof.Proofs
end

section
/-! The value encoder (R209 to R215): the number each kind of format encodes, rounded to nearest even and saturated. -/

namespace Sys2Proof.Proofs

open Sys2Proof.Machine Sys2Proof.Laws

variable {td : Byte} {m n q most len : Nat} {x : Float64Bits}

/-! ## Kinds of binary64 encodings -/

theorem isInf64_of_not_finite_of_not_nan (hnan : isNaN64 x = false) (hfin : isFinite64 x = false) :
    isInf64 x = true := by
  simp_all [isNaN64, isFinite64, isInf64]

theorem isNaN64_of_isInf64 (h : isInf64 x = true) : isNaN64 x = false := by simp_all [isNaN64, isInf64]

theorem isNaN64_of_isFinite64 (h : isFinite64 x = true) : isNaN64 x = false := by simp_all [isFinite64, isNaN64]

theorem isInf64_of_isFinite64 (h : isFinite64 x = true) : isInf64 x = false := by simp_all [isFinite64, isInf64]

/-! ## Saturation -/

theorem saturate_spec (q most : Nat) :
    (most < q → (saturate q most).1 = most ∧ (saturate q most).2 = true)
      ∧ (q ≤ most → (saturate q most).1 = q ∧ (saturate q most).2 = false) := by
  refine ⟨fun h => ?_, fun h => ?_⟩
  · rw [saturate, if_pos h]; exact ⟨rfl, rfl⟩
  · rw [saturate, if_neg h.not_gt]; exact ⟨rfl, rfl⟩

theorem saturate_le (q most : Nat) : (saturate q most).1 ≤ most := by
  obtain h | h := Nat.lt_or_ge most q
  · exact ((saturate_spec q most).1 h).1.le
  · exact ((saturate_spec q most).2 h).1.trans_le h

/-! ## Formats without a sign -/

theorem encNatural_le (m most : Nat) (x : Float64Bits) : (encNatural m most x).1 ≤ most := by
  unfold encNatural
  split_ifs
  · exact Nat.zero_le _
  · exact Nat.zero_le _
  · exact le_rfl
  · exact saturate_le _ _

/-- `encNatural` follows the rule R211 and R214 share. -/
theorem encodesNatural_encNatural (m most : Nat) (x : Float64Bits) :
    encodesNatural m most x (encNatural m most x).1 (encNatural m most x).2 := by
  refine ⟨fun hnan => ?_, fun hneg hval => ?_, fun hpos hinf => ?_, fun hfin hval => ?_⟩
  · simp [encNatural, hnan]
  · have hnan : isNaN64 x = false := hval.elim isNaN64_of_isInf64 fun h => isNaN64_of_isFinite64 h.1
    have hval' : isInf64 x = true ∨ magnitude64 x ≠ 0 := hval.imp_right And.right
    simp [encNatural, hnan, hneg, hval']
  · simp [encNatural, isNaN64_of_isInf64 hinf, hpos, hinf]
  · have henc : encNatural m most x = saturate (scaledInt x m) most := by
      simp only [encNatural, isNaN64_of_isFinite64 hfin, isInf64_of_isFinite64 hfin]
      obtain h | h := hval <;> simp [h]
    rw [henc]
    exact saturate_spec _ _

theorem dlen_eq (td : Byte) : dlen td = td.toNat % 16 := by
  rw [dlen, BitVec.toNat_and]; exact Nat.and_two_pow_sub_one_eq_mod _ 4

theorem enc_unsigned (h : hasCode unsignedCodes td m) (x : Float64Bits) :
    enc td x =
      (toBE (dlen td) (encNatural m (2 ^ (8 * dlen td) - 1) x).1, (encNatural m (2 ^ (8 * dlen td) - 1) x).2) := by
  rw [enc, tdFormat_of_unsignedCodes h]; rfl

theorem enc_decimal (h : tdFormat td = .decimal) (x : Float64Bits) :
    enc td x = (toDecimal (dlen td) (encNatural 0 (10 ^ dlen td - 1) x).1, (encNatural 0 (10 ^ dlen td - 1) x).2) := by
  rw [enc, h]; rfl

/-- Settles O22: the bytes or digits hold every number up to the greatest, so they are the number `encNatural` gives. -/
theorem unsignedEncodeRoundsAndSaturates : Obligations.UnsignedEncodeRoundsAndSaturates := by
  intro td x len bytes sat
  have hlen : dlen td = len := dlen_eq td
  have hlength : bytes.length = len := (enc_length td x).trans hlen
  refine ⟨fun m hcode => ⟨hlength, ?_⟩, fun hcode => ?_⟩
  · have hle := encNatural_le m (2 ^ (8 * len) - 1) x
    have hnum : beNat bytes = (encNatural m (2 ^ (8 * len) - 1) x).1 := by
      simp only [bytes, enc_unsigned hcode, hlen, beNat_toBE]
      exact Nat.mod_eq_of_lt (by have := Nat.two_pow_pos (8 * len); omega)
    have hsat : sat = (encNatural m (2 ^ (8 * len) - 1) x).2 := by simp only [sat, enc_unsigned hcode, hlen]
    rw [hnum, hsat]
    exact encodesNatural_encNatural _ _ _
  · have htd := tdFormat_decimal hcode
    have hle := encNatural_le 0 (10 ^ len - 1) x
    have hbytes : bytes = toDecimal len (encNatural 0 (10 ^ len - 1) x).1 := by simp only [bytes, enc_decimal htd, hlen]
    have hall : AllDigits bytes := hbytes ▸ allDigits_toDecimal _ _
    have hnum : digitsValue bytes = (encNatural 0 (10 ^ len - 1) x).1 := by
      rw [hbytes, digitsValue_toDecimal]
      exact Nat.mod_eq_of_lt (by have := Nat.pow_pos (n := len) (by decide : 0 < 10); omega)
    have hsat : sat = (encNatural 0 (10 ^ len - 1) x).2 := by simp only [sat, enc_decimal htd, hlen]
    refine ⟨hlength, hall, ?_, dec_digits htd (by have := dlen_le td; omega) hall⟩
    change encodesNatural 0 (10 ^ len - 1) x (digitsValue bytes) sat
    rw [hnum, hsat]
    exact encodesNatural_encNatural _ _ _

/-! ## Signed formats -/

theorem enc_signed (h : hasCode signedCodes td m) (x : Float64Bits) : enc td x = encSigned m (dlen td) x := by
  rw [enc, tdFormat_of_signedCodes h]

theorem encSigned_nan (h : isNaN64 x = true) : encSigned m len x = (List.replicate len 0x00#8, true) := if_pos h

theorem encSigned_infinite (h : isInf64 x = true) :
    encSigned m len x = (putSign (signbit x) (toBE len (maxMagnitude len)), true) := by
  simp [encSigned, isNaN64_of_isInf64 h, h]

theorem encSigned_finite (h : isFinite64 x = true) :
    encSigned m len x =
      (putSign (signbit x) (toBE len (saturate (scaledInt x m) (maxMagnitude len)).1),
        (saturate (scaledInt x m) (maxMagnitude len)).2) := by
  simp [encSigned, isNaN64_of_isFinite64 h, isInf64_of_isFinite64 h]

/-- A sign put into a free top bit is there, and clearing it gives the byte back. -/
theorem byte_sign (b : Byte) (neg : Bool) (h : b.toNat < 0x80) :
    (if neg then b ||| 0x80#8 else b).getLsbD 7 = neg ∧ (if neg then b ||| 0x80#8 else b) &&& 0x7F#8 = b := by
  decide +revert

theorem putSign_cons (neg : Bool) {b : Byte} (h : b.toNat < 0x80) (v : List Byte) :
    signOf (putSign neg (b :: v)) = neg ∧ clearSign (putSign neg (b :: v)) = b :: v :=
  ⟨(byte_sign b neg h).1, congrArg (· :: v) (byte_sign b neg h).2⟩

theorem le_maxMagnitude_succ_iff : n ≤ maxMagnitude (len + 1) ↔ n < 0x80 * 256 ^ len := by
  have hpow : 2 ^ (8 * (len + 1) - 1) = 0x80 * 256 ^ len := by
    rw [show 8 * (len + 1) - 1 = 7 + 8 * len by omega, Nat.pow_add, Nat.pow_mul]
  have hpos := Nat.two_pow_pos (8 * (len + 1) - 1)
  rw [maxMagnitude, if_neg (Nat.succ_ne_zero len), ← hpow]; omega

/-- A magnitude up to the greatest leaves the first byte's top bit free. -/
theorem first_byte_lt (h : n ≤ maxMagnitude (len + 1)) : (BitVec.ofNat 8 (n / 256 ^ len)).toNat < 0x80 := by
  rw [BitVec.toNat_ofNat]
  exact (Nat.mod_le _ _).trans_lt ((Nat.div_lt_iff_lt_mul (by positivity)).2 (le_maxMagnitude_succ_iff.1 h))

theorem signOf_putSign (neg : Bool) (h : n ≤ maxMagnitude len) :
    signOf (putSign neg (toBE len n)) = (neg && len != 0) := by
  cases len with
  | zero => exact (Bool.and_false neg).symm
  | succ len =>
    rw [toBE_succ, (putSign_cons neg (first_byte_lt h) _).1]
    exact (Bool.and_true neg).symm

theorem beNat_clearSign_putSign (neg : Bool) (h : n ≤ maxMagnitude len) :
    beNat (clearSign (putSign neg (toBE len n))) = n := by
  cases len with
  | zero => exact (Nat.le_zero.1 h).symm
  | succ len =>
    rw [toBE_succ, (putSign_cons neg (first_byte_lt h) _).2, ← toBE_succ, beNat_toBE,
      show 2 ^ (8 * (len + 1)) = 256 ^ len * 256 by rw [Nat.pow_mul, Nat.pow_succ]]
    exact Nat.mod_eq_of_lt ((le_maxMagnitude_succ_iff.1 h).trans_le (by omega))

/-- Settles O23, by what x is: the magnitude is put under its sign and read back from there. -/
theorem signedEncodeRoundsAndSaturates : Obligations.SignedEncodeRoundsAndSaturates := by
  intro td m x hcode len most bytes sat
  have hlen : dlen td = len := dlen_eq td
  have hmost : maxMagnitude len = most := rfl
  have henc : (bytes, sat) = encSigned m len x := by rw [← hlen, ← enc_signed hcode]
  refine ⟨(enc_length td x).trans hlen, fun hnan => ?_, fun hnan => ?_, fun hinf => ?_, fun hfin => ?_⟩
  · rw [encSigned_nan hnan] at henc
    exact Prod.mk.inj henc
  · cases hfin : isFinite64 x
    · rw [encSigned_infinite (isInf64_of_not_finite_of_not_nan hnan hfin), Prod.mk.injEq] at henc
      rw [henc.1, signOf_putSign _ le_rfl]
    · rw [encSigned_finite hfin, Prod.mk.injEq] at henc
      rw [henc.1, signOf_putSign _ (saturate_le _ _)]
  · rw [encSigned_infinite hinf, Prod.mk.injEq] at henc
    rw [henc.1, beNat_clearSign_putSign _ le_rfl]
    exact ⟨hmost, henc.2⟩
  · rw [encSigned_finite hfin, Prod.mk.injEq] at henc
    rw [henc.1, henc.2, beNat_clearSign_putSign _ (saturate_le _ _), ← hmost]
    exact saturate_spec _ _

/-! ## Floats -/

theorem enc_float_eight (x : Float64Bits) : enc 0xF8#8 x = (toLE 8 x.toNat, false) := rfl

/-- The binary32 R215 gives, with the saturation bit. -/
def encoded32 (x : Float64Bits) : Word × Bool := if isNaN64 x then (0x7FC00000#32, false) else narrow32 x

theorem enc_float_four (x : Float64Bits) : enc 0xF4#8 x = (toLE 4 (encoded32 x).1.toNat, (encoded32 x).2) := by
  have henc : enc 0xF4#8 x = encFloat 4 x := rfl
  rw [henc, encFloat, if_neg (by decide), if_pos rfl, encoded32]
  split <;> rfl

/-- A binary32 encoding put together from its sign and the rest. -/
def signed32 (neg : Bool) (e : Nat) : Word := (if neg then 0x80000000#32 else 0#32) ||| BitVec.ofNat 32 e

theorem toNat_signed32 (neg : Bool) {e : Nat} (he : e < 2 ^ 31) : (signed32 neg e).toNat = 2 ^ 31 * neg.toNat + e := by
  have hmod : e % 2 ^ 32 = e := Nat.mod_eq_of_lt (by omega)
  rw [signed32, BitVec.toNat_or, BitVec.toNat_ofNat, hmod, Nat.two_pow_add_eq_or_of_lt he]
  cases neg <;> rfl

theorem encoded32_of_nan (h : isNaN64 x = true) : encoded32 x = (0x7FC00000#32, false) := if_pos h

theorem encoded32_of_infinite (h : isInf64 x = true) : encoded32 x = (signed32 (signbit x) binary32.inf, false) := by
  rw [encoded32, isNaN64_of_isInf64 h, narrow32, if_pos h]; rfl

/-- The encoding a finite binary64 is rounded to, without its sign. -/
def narrowCode (x : Float64Bits) : Nat := roundTo binary32 (magnitude64 x) 1074

theorem encoded32_of_finite (h : isFinite64 x = true) :
    encoded32 x = (signed32 (signbit x) (narrowCode x), narrowCode x == binary32.inf) := by
  rw [encoded32, isNaN64_of_isFinite64 h, narrow32, isInf64_of_isFinite64 h]; rfl

theorem signed32_inf (neg : Bool) :
    signed32 neg binary32.inf = if neg then 0xFF800000#32 else 0x7F800000#32 := by
  cases neg <;> rfl

/-- The midpoint after the greatest finite binary32, in quanta and in the units of `magnitude64`. -/
theorem midpoint_le_iff (k n : Nat) :
    (2 ^ 25 - 1) * 2 ^ (k + 253) ≤ 2 * (n * 2 ^ 149) ↔ (2 ^ 128 - 2 ^ 103) * 2 ^ k ≤ n := by
  rw [two_pow_eq_mul (rfl : k + 253 = k + 253)]
  generalize 2 ^ k = scale
  omega

/-- 2^128 - 2^103 of R215 is where rounding reaches infinity. -/
theorem narrowCode_eq_inf_iff (x : Float64Bits) :
    narrowCode x = binary32.inf ↔ (2 ^ 128 - 2 ^ 103) * 2 ^ 1074 ≤ magnitude64 x := by
  rw [narrowCode, roundTo_eq_inf_iff (by decide) binary32_inf, binary32_quantum, show binary32.prec + 1 = 25 from rfl,
    midpoint_le_iff 1074]

theorem narrowCode_lt (x : Float64Bits) : narrowCode x < 2 ^ 31 :=
  (roundTo_le_inf binary32 _ _).trans_lt (by decide)

theorem signed32_fields (neg : Bool) {e : Nat} (he : e < 2 ^ 31) :
    (signed32 neg e).toNat % 2 ^ 31 = e ∧ (signed32 neg e).getLsbD 31 = neg
      ∧ ((signed32 neg e).getLsbD 0 = false ↔ e % 2 = 0) := by
  have h := toNat_signed32 neg he
  refine ⟨?_, ?_, ?_⟩
  · rw [h, Nat.mul_add_mod, Nat.mod_eq_of_lt he]
  · rw [getLsbD_31, h]
    cases neg
    · simpa using he
    · simp
  · rw [BitVec.getLsbD, h, Nat.testBit_zero, decide_eq_false_iff_not]; omega

/-- A finite binary64 below the midpoint becomes a finite binary32 of its sign that no other is nearer to. -/
theorem encoded32_nearest (hfin : isFinite64 x = true) (hover : narrowCode x ≠ binary32.inf) :
    exponent32 (encoded32 x).1 ≠ 0xFF ∧ (encoded32 x).1.getLsbD 31 = signbit x
      ∧ ∀ z : Word, RoundsTo (magnitude64 x) (magnitude32 (encoded32 x).1 * 2 ^ 925) (magnitude32 z * 2 ^ 925)
          ((encoded32 x).1.getLsbD 0 = false) := by
  have hlt : narrowCode x < binary32.inf := (roundTo_le_inf binary32 _ _).lt_of_ne hover
  obtain ⟨hcode, hsign, heven⟩ := signed32_fields (signbit x) (narrowCode_lt x)
  rw [encoded32_of_finite hfin]
  refine ⟨(exponent32_ne_iff _).2 (hcode.trans_lt hlt), hsign, fun z => ?_⟩
  rw [← roundsTo_mul_iff (Nat.two_pow_pos 149), Nat.mul_assoc, Nat.mul_assoc,
    ← two_pow_eq_mul (by decide : 1074 = 925 + 149), magnitude32_eq, hcode, magnitude32_eq z, heven]
  exact roundTo_nearest (by decide) hlt (codeSig_lt (by decide) _) _

/-- What saturates is finite and rounds to infinity. -/
theorem encoded32_saturates_iff (x : Float64Bits) :
    (encoded32 x).2 = true ↔ isFinite64 x = true ∧ narrowCode x = binary32.inf := by
  cases hfin : isFinite64 x
  · cases hnan : isNaN64 x
    · rw [encoded32_of_infinite (isInf64_of_not_finite_of_not_nan hnan hfin)]; simp
    · rw [encoded32_of_nan hnan]; simp
  · rw [encoded32_of_finite hfin]; simp

/-- Settles O24: `encoded32` is what the four bytes hold, and `roundTo` rounds to it. -/
theorem binary32EncodeSaturatesFromMidpoint : Obligations.Binary32EncodeSaturatesFromMidpoint := by
  intro x
  refine ⟨by rw [enc_float_eight, toLE_toNat], (encoded32 x).1, ?_, ?_, ?_, ?_, fun hfin hover => ?_⟩
  · rw [enc_float_four, toLE_toNat]
  · rw [enc_float_four, ← narrowCode_eq_inf_iff]; exact encoded32_saturates_iff x
  · exact fun hnan => congrArg Prod.fst (encoded32_of_nan hnan)
  · rw [← narrowCode_eq_inf_iff, ← signed32_inf]
    rintro (hinf | ⟨hfin, hover⟩)
    · rw [encoded32_of_infinite hinf]
    · rw [encoded32_of_finite hfin, hover]
  · rw [← narrowCode_eq_inf_iff] at hover
    obtain ⟨hexp, hsign, hnear⟩ := encoded32_nearest hfin hover
    refine ⟨hexp, hsign, fun z _ => ?_⟩
    obtain ⟨hle, heven⟩ := (hnear z).abs
    exact ⟨hle, fun heq hne => heven heq fun h => hne (Nat.eq_of_mul_eq_mul_right (by positivity) h)⟩

end Sys2Proof.Proofs
end

section
/-! The record table's entries (R230, R240, R242): the bytes each KIND encodes to, and the eight words of an entry as
the idle host reads and writes them. -/

namespace Sys2Proof.Proofs

open Sys2Proof.Machine Sys2Proof.Laws

variable {s : State} {k : Nat}

/-! ## The encoding of an entry -/

@[simp] theorem kindOf_bits (v : Kind) : kindOf v.bits = some v := by cases v <;> rfl

/-- Settles O27: the KIND field names the variant, whose rule gives the bytes. -/
theorem recordEncodingsByKind : Obligations.RecordEncodingsByKind := by
  intro e tfmt vfmt
  have hkind : ∀ v : Kind, e.kind = v.bits → kindOf e.kind = some v := fun v h => by rw [h, kindOf_bits]
  refine ⟨fun h => ?join, fun h => ?identify, fun h => ?temperature, fun h => ?voltage, fun h => ?unhandled⟩
  case join => rw [Entry.encoded, hkind .join h]; rfl
  case identify => rw [Entry.encoded, hkind .identify h]; rfl
  case temperature => rw [Entry.encoded, hkind .temperature h]; rfl
  case voltage => rw [Entry.encoded, hkind .voltage h]; rfl
  case unhandled => rw [Entry.encoded, hkind .unhandled h, dlen_eq]

/-! ## A word of a buffer window, written and read back -/

theorem wordByte_append (d : Word) : wordByte d 3 ++ wordByte d 2 ++ wordByte d 1 ++ wordByte d 0 = d := by
  refine BitVec.eq_of_getLsbD_eq fun i hi => ?_
  simp only [wordByte, BitVec.getLsbD_append, BitVec.getLsbD_extractLsb']
  interval_cases i <;> simp

theorem and_append_bytes (a3 a2 a1 a0 b3 b2 b1 b0 : Byte) :
    (a3 ++ a2 ++ a1 ++ a0 : Word) &&& (b3 ++ b2 ++ b1 ++ b0 : Word) =
      (a3 &&& b3) ++ (a2 &&& b2) ++ (a1 &&& b1) ++ (a0 &&& b0) := by
  rw [← BitVec.and_append, ← BitVec.and_append, ← BitVec.and_append]

/-- A lane without storage reads 0 whatever was written to it. -/
theorem hostByte_writeBuffer_lane {j : Nat} (hj : j < 4) (a : Nat) (d : Word) :
    (s.writeBuffer a d).hostByte (a + j) = wordByte d j &&& s.storedBits (a + j) := by
  have hbits : (s.writeBuffer a d).storedBits (a + j) = s.storedBits (a + j) := by simp [State.writeBuffer]
  rw [State.hostByte, hbits]
  by_cases h : s.storedBits (a + j) = 0x00#8
  · rw [h, BitVec.and_zero, BitVec.and_zero]
  · rw [byteAt_writeBuffer_lane hj h, BitVec.and_assoc, BitVec.and_self]

/-- A word that was written reads back its bits that hold storage. -/
theorem bufferWord_writeBuffer (s : State) (a : Nat) (d : Word) :
    (s.writeBuffer a d).bufferWord a = d &&& s.bufferBits a := by
  have h0 := hostByte_writeBuffer_lane (s := s) (j := 0) (by decide) a d
  rw [Nat.add_zero] at h0
  rw [State.bufferWord, State.bufferBits, h0, hostByte_writeBuffer_lane (by decide),
    hostByte_writeBuffer_lane (by decide), hostByte_writeBuffer_lane (by decide)]
  conv_rhs => rw [← wordByte_append d]
  exact (and_append_bytes ..).symm

/-! ## The halves of FVAL -/

theorem leNat_append (u v : List Byte) : leNat (u ++ v) = leNat u + 256 ^ u.length * leNat v := by
  induction u with
  | nil => simp [leNat]
  | cons b u ih => rw [List.cons_append, leNat, ih, leNat, List.length_cons, Nat.pow_succ']; ring

theorem leNat_lt (v : List Byte) : leNat v < 256 ^ v.length := by
  rw [← beNat_reverse, show 256 = 2 ^ 8 from rfl, ← Nat.pow_mul, ← List.length_reverse]
  exact beNat_lt _

/-- The low word of a little-endian doubleword is its first four bytes, the high word its last four. -/
theorem extract_words_leNat {lo hi : List Byte} (hlo : lo.length = 4) :
    (BitVec.ofNat 64 (leNat (lo ++ hi))).extractLsb' 0 32 = BitVec.ofNat 32 (leNat lo)
      ∧ (BitVec.ofNat 64 (leNat (lo ++ hi))).extractLsb' 32 32 = BitVec.ofNat 32 (leNat hi) := by
  have hlt := leNat_lt lo
  rw [leNat_append, hlo]
  rw [hlo] at hlt
  constructor <;> refine BitVec.eq_of_toNat_eq ?_ <;>
    simp only [BitVec.extractLsb'_toNat, BitVec.toNat_ofNat, Nat.shiftRight_eq_div_pow] <;> omega

theorem ofNat_leNat_recBytes (s : State) (k o : Nat) :
    BitVec.ofNat 32 (leNat (s.recBytes k o 4)) =
      s.recByte k (o + 3) ++ s.recByte k (o + 2) ++ s.recByte k (o + 1) ++ s.recByte k o :=
  ofNat_leNat_four _ _ _ _

theorem recEntry_fval_words (s : State) (k : Nat) :
    (s.recEntry k).fval.extractLsb' 0 32 = BitVec.ofNat 32 (leNat (s.recBytes k 20 4))
      ∧ (s.recEntry k).fval.extractLsb' 32 32 = BitVec.ofNat 32 (leNat (s.recBytes k 24 4)) :=
  extract_words_leNat (lo := s.recBytes k 20 4) (hi := s.recBytes k 24 4) rfl

/-! ## The bytes of an entry as the host reads them -/

theorem recByte_kind (s : State) (k : Nat) : s.recByte k 0 = 0#5 ++ (s.recEntry k).kind := by
  refine BitVec.eq_of_getLsbD_eq fun i hi => ?_
  simp only [State.recEntry, State.recByte, BitVec.getLsbD_append, BitVec.getLsbD_extractLsb']
  interval_cases i <;> simp [recMask]

theorem recByte_reserved {o : Nat} (h : recMask o = 0x00#8) : s.recByte k o = 0x00#8 := by
  rw [State.recByte, h, BitVec.and_zero]

theorem recEntry_raw_getD {i : Nat} (h : i < 16) : (s.recEntry k).raw[i]?.getD 0x00#8 = s.recByte k (4 + i) := by
  simp [State.recEntry, State.recBytes, h]

/-! ## A word of an entry on an idle bus -/

/-- The word of R240 at word offset j of entry k, from the entry's bytes. -/
def recWord (s : State) (k j : Nat) : Word :=
  s.recByte k (4 * j + 3) ++ s.recByte k (4 * j + 2) ++ s.recByte k (4 * j + 1) ++ s.recByte k (4 * j)

/-- The bits of word j of an entry that are not reserved (R240). -/
def recWordMask (j : Nat) : Word := if j = 0 then 0x00FFFF07#32 else if j = 7 then 0#32 else 0xFFFFFFFF#32

theorem bufferWord_rec {j : Nat} (hbuf : s.bufBytes ≤ Config.maxBufBytes) (hk : k < s.maxRecords) (hj : j < 8) :
    s.bufferWord (recAddr k + 4 * j) = recWord s k j := by
  have hbyte : ∀ o < 32, s.hostByte (recAddr k + o) = s.recByte k o := fun o ho => by
    rw [State.hostByte, storedBits_rec hbuf hk ho, State.recByte]
  simp only [State.bufferWord, recWord, Nat.add_assoc]
  rw [hbyte _ (by omega), hbyte _ (by omega), hbyte _ (by omega), hbyte _ (by omega)]

theorem bufferBits_rec {j : Nat} (hbuf : s.bufBytes ≤ Config.maxBufBytes) (hk : k < s.maxRecords) (hj : j < 8) :
    s.bufferBits (recAddr k + 4 * j) = recWordMask j := by
  simp only [State.bufferBits, Nat.add_assoc]
  rw [storedBits_rec hbuf hk (by omega), storedBits_rec hbuf hk (by omega), storedBits_rec hbuf hk (by omega),
    storedBits_rec hbuf hk (by omega)]
  interval_cases j <;> rfl

theorem wordOffset_rec {j b : Nat} (hbuf : s.bufBytes ≤ Config.maxBufBytes) (hk : k < s.maxRecords) (hj : j < 8)
    (hb : b < 4) : wordOffset (BitVec.ofNat 17 (Config.recBase + 32 * k + 4 * j + b)) = recAddr k + 4 * j := by
  simp only [State.maxRecords, Config.maxRecords, Config.maxBufBytes] at hbuf hk
  simp only [wordOffset, recAddr, Config.recBase, BitVec.toNat_ofNat]
  omega

theorem locate_recAddr (k o : Nat) : locate (recAddr k + o) = .buffer :=
  locate_buffer (.inr (by rw [recAddr, Config.recBase]; omega))

section IdleBus

variable {addr : BusAddr} {j : Nat} (hrst : s.rst = false) (hlatch : s.latch = none)
  (hbuf : s.bufBytes ≤ Config.maxBufBytes) (hk : k < s.maxRecords) (hj : j < 8)
  (haddr : wordOffset addr = recAddr k + 4 * j)
include hrst hlatch haddr

theorem hostRead_recTab : s.hostRead addr = { s with rdata := s.bufferWord (recAddr k + 4 * j) } := by
  rw [hostRead_idle_buffer hrst (busy_of_latch_none hlatch) (haddr ▸ locate_recAddr k _), haddr]

theorem hostWrite_recTab (d : Word) : s.hostWrite addr d = s.writeBuffer (recAddr k + 4 * j) d := by
  rw [hostWrite_idle_buffer hrst (busy_of_latch_none hlatch) (haddr ▸ locate_recAddr k _), haddr]

include hbuf hk hj

theorem rdata_hostRead_recTab : (s.hostRead addr).rdata = recWord s k j := by
  rw [hostRead_recTab hrst hlatch haddr, bufferWord_rec hbuf hk hj]

/-- A write keeps the block idle, so the read after it is an idle one too. -/
theorem rdata_hostRead_hostWrite_recTab (d : Word) :
    ((s.hostWrite addr d).hostRead addr).rdata = d &&& recWordMask j := by
  have hframe := writeBuffer_frame (recAddr k + 4 * j) d s
  have hrst' := (congrArg State.rst hframe).trans hrst
  have hlatch' := (congrArg State.latch hframe).trans hlatch
  rw [hostWrite_recTab hrst hlatch haddr, hostRead_recTab hrst' hlatch' haddr, bufferWord_writeBuffer,
    bufferBits_rec hbuf hk hj]

end IdleBus

/-! ## The words of R240 -/

/-- Word 0: byte 3 is reserved, and so are the five bits above KIND in byte 0. -/
theorem recWord_header (s : State) (k : Nat) :
    recWord s k 0 = 0x00#8 ++ (s.recEntry k).tdesc ++ (s.recEntry k).pid ++ 0#5 ++ (s.recEntry k).kind := by
  have hassoc : ∀ (x : BitVec 24) (f : BitVec 3), (x ++ (0#5 ++ f) : Word) = x ++ 0#5 ++ f := fun x f =>
    BitVec.eq_of_toNat_eq (by rw [BitVec.append_assoc, BitVec.toNat_cast])
  have htop : s.recByte k (4 * 0 + 3) = 0x00#8 := recByte_reserved rfl
  have hkind : s.recByte k (4 * 0) = 0#5 ++ (s.recEntry k).kind := recByte_kind s k
  rw [recWord, htop, hkind]
  exact hassoc _ _

/-- Words 1 to 4: the RAW bytes, the lowest in bits 7 to 0. -/
theorem recWord_raw {i : Nat} (hi : i < 4) (s : State) (k : Nat) :
    recWord s k (1 + i) =
      (s.recEntry k).raw[4 * i + 3]?.getD 0x00#8 ++ (s.recEntry k).raw[4 * i + 2]?.getD 0x00#8
        ++ (s.recEntry k).raw[4 * i + 1]?.getD 0x00#8 ++ (s.recEntry k).raw[4 * i]?.getD 0x00#8 := by
  rw [recEntry_raw_getD (by omega), recEntry_raw_getD (by omega), recEntry_raw_getD (by omega),
    recEntry_raw_getD (by omega), recWord, Nat.mul_add]
  simp only [Nat.mul_one, Nat.add_assoc]

theorem recWord_fvalLo (s : State) (k : Nat) : recWord s k 5 = (s.recEntry k).fval.extractLsb' 0 32 := by
  rw [(recEntry_fval_words s k).1, ofNat_leNat_recBytes]
  rfl

theorem recWord_fvalHi (s : State) (k : Nat) : recWord s k 6 = (s.recEntry k).fval.extractLsb' 32 32 := by
  rw [(recEntry_fval_words s k).2, ofNat_leNat_recBytes]
  rfl

/-- Word 7 is reserved. -/
theorem recWord_reserved (s : State) (k : Nat) : recWord s k 7 = 0#32 := by
  rw [recWord, recByte_reserved (o := 4 * 7 + 3) rfl, recByte_reserved (o := 4 * 7 + 2) rfl,
    recByte_reserved (o := 4 * 7 + 1) rfl, recByte_reserved (o := 4 * 7) rfl]
  rfl

/-- Settles O50: every address of word j acts on that word of the entry, whose bytes with storage are the fields'. -/
theorem recordTableWordFormat : Obligations.RecordTableWordFormat := by
  intro s k b hrst hlatch hbuf hk hb addrOf word
  have haddr : ∀ j < 8, wordOffset (addrOf j) = recAddr k + 4 * j := fun j hj => wordOffset_rec hbuf hk hj hb
  have hread : ∀ j < 8, word j = recWord s k j := fun j hj =>
    rdata_hostRead_recTab hrst hlatch hbuf hk hj (haddr j hj)
  refine ⟨?header, fun i hi => ?raw, ?fvalLo, ?fvalHi, ?reserved,
    fun j hj d => ⟨?frame, ?readBack, fun x hx => ?bytes⟩⟩
  case header => exact (hread 0 (by decide)).trans (recWord_header s k)
  case raw => exact (hread (1 + i) (by omega)).trans (recWord_raw hi s k)
  case fvalLo => exact (hread 5 (by decide)).trans (recWord_fvalLo s k)
  case fvalHi => exact (hread 6 (by decide)).trans (recWord_fvalHi s k)
  case reserved => exact (hread 7 (by decide)).trans (recWord_reserved s k)
  case frame =>
    rw [hostWrite_recTab hrst hlatch (haddr j hj)]
    exact writeBuffer_frame _ _ _
  case readBack => exact rdata_hostRead_hostWrite_recTab hrst hlatch hbuf hk hj (haddr j hj) d
  case bytes =>
    rw [hostWrite_recTab hrst hlatch (haddr j hj)]
    refine byteAt_writeBuffer_other (fun i hi _ => ?_) d
    rw [recAddr, Config.recBase]
    omega

end Sys2Proof.Proofs
end

section
/-! The framer's commands against each other and against their checks: PARSE and DECODE check the length first (R262),
BUILD and ENCODE the Message and then the packet's length (R276, R277), DECODE is CIPHER and then PARSE (R285), ENCODE
is BUILD and then CIPHER (R290). Where one command is two others in a row, the first one's completion is overwritten by
the second's, since no command reads STATUS (R62). -/

namespace Sys2Proof.Proofs

open Sys2Proof.Machine Sys2Proof.Laws

variable {s : State} {i : Instr} {code : ErrCode}

/-! ## The length checks of PARSE and DECODE -/

theorem lengthError_of_too_long (h : s.bufBytes < s.len.toNat) : s.lengthError = some .range := by
  rw [lengthError_eq, if_pos h]

theorem lengthError_of_too_short (hfit : s.len.toNat ≤ s.bufBytes) (h : s.len.toNat < 10) :
    s.lengthError = some .short := by
  rw [lengthError_eq, if_neg (by omega), if_pos h]

theorem lengthError_of_lengthOk (h : s.lengthOk) : s.lengthError = none := by
  obtain ⟨hmin, hfit⟩ := h
  rw [Config.minPacket] at hmin
  rw [lengthError_eq, if_neg (by omega), if_neg (by omega)]

/-- A failing length check is the whole command: NREC <- 0 and the completion. -/
theorem exec_of_lengthError_eq_some (hi : i = .parse ∨ i = .decode) (h : s.lengthError = some code) :
    exec i s = .next ((s.setNrec 0#16).complete code) := by
  rcases hi with rfl | rfl
  · rw [exec, execParse, h]
    rfl
  · rw [exec, execDecode, h]
    rfl

theorem exec_parse_of_lengthOk (h : s.lengthOk) :
    exec .parse s = .next ((s.parseCore s.len.toNat).1.complete (s.parseCore s.len.toNat).2) := by
  rw [exec, execParse, lengthError_of_lengthOk h]
  rfl

theorem exec_decode_of_lengthOk (h : s.lengthOk) :
    exec .decode s =
      .next (((s.decrypt s.len.toNat).parseCore s.len.toNat).1.complete
        ((s.decrypt s.len.toNat).parseCore s.len.toNat).2) := by
  rw [exec, execDecode, lengthError_of_lengthOk h]
  rfl

/-- Settles O28: each failing check is the length error that the command ends with. -/
theorem parseAndDecodeCheckLengthFirst : Obligations.ParseAndDecodeCheckLengthFirst := by
  intro i s hi
  exact ⟨fun hlong => exec_of_lengthError_eq_some hi (lengthError_of_too_long hlong),
    fun hfit hshort => exec_of_lengthError_eq_some hi (lengthError_of_too_short hfit hshort)⟩

/-! ## The checks of BUILD and ENCODE -/

/-- The claims' form of a valid Message, in the terms of BUILD's own checks (R276). -/
theorem messageValid_iff :
    s.messageValid ↔ s.nrec.toNat ≤ s.maxRecords ∧ s.messageRecords.any (fun e => !e.valid) = false := by
  have hentry : ∀ e : Entry, e.valid = true ↔ ¬ e.refused := fun e => by
    rw [← valid_eq_false_iff_refused, Bool.not_eq_false]
  simp [State.messageValid, State.maxRecords, Config.maxRecords, State.messageRecords, hentry]

theorem buildError_of_not_messageValid (h : ¬ s.messageValid) : s.buildError = some .badrec := by
  rw [buildError_eq]
  split_ifs with hcount hentry hlong
  · rfl
  · rfl
  all_goals exact absurd (messageValid_iff.mpr ⟨not_lt.mp hcount, Bool.eq_false_of_not_eq_true hentry⟩) h

/-- With a valid Message only the length check is left (R277). -/
theorem buildError_of_messageValid (h : s.messageValid) :
    s.buildError = if s.bufBytes < s.packetLength then some .overflow else none := by
  obtain ⟨hcount, hentries⟩ := messageValid_iff.mp h
  rw [buildError_eq, if_neg (not_lt.mpr hcount), hentries]
  rfl

theorem buildError_of_too_long (hvalid : s.messageValid) (h : s.bufBytes < s.packetLength) :
    s.buildError = some .overflow := by
  rw [buildError_of_messageValid hvalid, if_pos h]

theorem buildError_of_fits (hvalid : s.messageValid) (h : s.packetLength ≤ s.bufBytes) : s.buildError = none := by
  rw [buildError_of_messageValid hvalid, if_neg (not_lt.mpr h)]

/-- A failing check of BUILD or ENCODE is the whole command: its completion and no other effect. -/
theorem exec_of_buildError_eq_some (hi : i = .build ∨ i = .encode) (h : s.buildError = some code) :
    exec i s = .next (s.complete code) := by
  rcases hi with rfl | rfl
  · rw [exec, execBuild, h]
    rfl
  · rw [exec, execEncode, h]
    rfl

theorem exec_build_of_fits (hvalid : s.messageValid) (hfit : s.packetLength ≤ s.bufBytes) :
    exec .build s = .next (s.buildCore.complete .ok) := by
  rw [exec, execBuild, buildError_of_fits hvalid hfit]
  rfl

theorem exec_encode_of_fits (hvalid : s.messageValid) (hfit : s.packetLength ≤ s.bufBytes) :
    exec .encode s = .next (s.buildCore.encrypt.complete .ok) := by
  rw [exec, execEncode, buildError_of_fits hvalid hfit]
  rfl

/-- Settles O35: an invalid Message fails BUILD's checks before its length is looked at. -/
theorem buildAndEncodeRefuseInvalidMessage : Obligations.BuildAndEncodeRefuseInvalidMessage :=
  fun _ _ hi hinvalid => exec_of_buildError_eq_some hi (buildError_of_not_messageValid hinvalid)

/-- Settles O36: past the validity checks the length check is what fails. -/
theorem buildAndEncodeRefuseLongPacket : Obligations.BuildAndEncodeRefuseLongPacket :=
  fun _ _ hi hvalid hlong => exec_of_buildError_eq_some hi (buildError_of_too_long hvalid hlong)

/-! ## Completion and the commands' cores -/

/-- Of two completions the later one stands. -/
@[simp] theorem complete_complete (c c' : ErrCode) (s : State) : (s.complete c).complete c' = s.complete c' := rfl

/-- The scan neither reads nor writes STATUS: each of its tests looks at the same bytes of PBUF with and without the
completion, so both scans take the same branch. -/
theorem scan_complete (c : ErrCode) (L fuel cur k : Nat) (s : State) :
    State.scan L fuel cur k (s.complete c) =
      ((State.scan L fuel cur k s).1.complete c, (State.scan L fuel cur k s).2) := by
  induction fuel generalizing cur k s with
  | zero => rfl
  | succ fuel ih =>
    rw [scan_succ, scan_succ]
    by_cases hend : s.pbuf cur = 0x00#8
    · rw [if_pos hend]
      exact if_pos hend
    by_cases hroom : L < cur + 4 ∨ L < cur + 2 + dlen (s.pbuf (cur + 1)) + 2
    · rw [if_neg hend, if_pos hroom]
      exact (if_neg hend).trans (if_pos hroom)
    by_cases hempty :
        (s.pbuf cur = Config.idTemperature ∨ s.pbuf cur = Config.idVoltage) ∧ dlen (s.pbuf (cur + 1)) = 0
    · rw [if_neg hend, if_neg hroom, if_pos hempty]
      exact (if_neg hend).trans ((if_neg hroom).trans (if_pos hempty))
    · rw [if_neg hend, if_neg hroom, if_neg hempty, ← ih]
      exact (if_neg hend).trans ((if_neg hroom).trans (if_neg hempty))

/-- PARSE's core neither reads nor writes STATUS. -/
theorem parseCore_complete (c : ErrCode) (L : Nat) (s : State) :
    (s.complete c).parseCore L = ((s.parseCore L).1.complete c, (s.parseCore L).2) := by
  have hcrc : (s.complete c).packetCrc L = s.packetCrc L := rfl
  have hcrcRx : (s.complete c).packetCrcRx L = s.packetCrcRx L := rfl
  rw [State.parseCore, State.parseCore, hcrc, hcrcRx]
  split
  · exact scan_complete c L L 7 0 (s.noteChecksums L).readHeader
  · rfl

@[simp] theorem ksApply_complete (c : ErrCode) (seed : Half) (a n : Nat) (s : State) :
    (s.complete c).ksApply seed a n = (s.ksApply seed a n).complete c := rfl

theorem exec_cipher_of_fits {off cnt : Nat} (h : off + cnt ≤ s.bufBytes) :
    exec (.cipher off cnt) s = .next ((s.ksApply (cipherSeed s.eid s.pip) off cnt).complete .ok) := by
  rw [exec, execCipher, State.rangeFits, if_pos (decide_eq_true h)]
  rfl

/-! ## DECODE as CIPHER and PARSE -/

/-- The pip of the packet, written as its two bytes (R286). -/
theorem packetPip_eq (s : State) : s.packetPip = s.pbuf 2 ++ s.pbuf 3 := ofNat_beNat_two (s.pbuf 2) (s.pbuf 3)

@[simp] theorem decrypt_len (L : Nat) (s : State) : (s.decrypt L).len = s.len := by simp [State.decrypt]

@[simp] theorem decrypt_bufBytes (L : Nat) (s : State) : (s.decrypt L).bufBytes = s.bufBytes := by
  simp [State.decrypt]

/-- DECODE's first phase is CIPHER of offsets 4 to LEN-1 under the packet's pip (R285). -/
theorem exec_cipher_packetPip (h : s.lengthOk) :
    exec (.cipher 4 (s.len.toNat - 4)) { s with pip := s.pbuf 2 ++ s.pbuf 3 } =
      .next ((s.decrypt s.len.toNat).complete .ok) := by
  obtain ⟨hmin, hfit⟩ := h
  rw [Config.minPacket] at hmin
  have hrange : 4 + (s.len.toNat - 4) ≤ (s.setPip s.packetPip).bufBytes := by
    rw [setPip_bufBytes]
    omega
  rw [← packetPip_eq]
  exact exec_cipher_of_fits hrange

/-- Settles O32: PARSE passes the same length checks on the deciphered packet, and its completion overwrites CIPHER's. -/
theorem decodeIsDecipherThenParse : Obligations.DecodeIsDecipherThenParse := by
  intro s h
  refine ⟨(s.decrypt s.len.toNat).complete .ok, exec_cipher_packetPip h, ?_⟩
  have hlength : ((s.decrypt s.len.toNat).complete .ok).lengthOk := by simpa [State.lengthOk] using h
  rw [exec_decode_of_lengthOk h, exec_parse_of_lengthOk hlength, complete_len, decrypt_len, parseCore_complete,
    complete_complete]

/-! ## ENCODE as BUILD and CIPHER -/

@[simp] theorem buildCore_bufBytes (s : State) : s.buildCore.bufBytes = s.bufBytes := by simp [State.buildCore]

/-- ENCODE's last phase is CIPHER of offsets 4 to LEN-1 of the packet BUILD has left (R290). -/
theorem exec_cipher_buildCore (hfit : s.packetLength ≤ s.bufBytes) :
    exec (.cipher 4 (s.buildCore.len.toNat - 4)) (s.buildCore.complete .ok) =
      .next (s.buildCore.encrypt.complete .ok) := by
  have hlen := buildCore_len_le s
  have hmin : 4 ≤ s.packetLength := by
    rw [State.packetLength]
    omega
  have hrange : 4 + (s.buildCore.len.toNat - 4) ≤ (s.buildCore.complete .ok).bufBytes := by
    rw [complete_bufBytes, buildCore_bufBytes]
    omega
  rw [exec_cipher_of_fits hrange, ksApply_complete, complete_complete, complete_eid, complete_pip, State.encrypt]

/-- Settles O38: either all of BUILD's checks pass and the cipher follows, or one fails and both commands end with it. -/
theorem encodeIsBuildThenCipher : Obligations.EncodeIsBuildThenCipher := by
  refine fun s _ => ⟨fun hvalid hfit => ?fits, fun hfails => ?fails⟩
  case fits =>
    exact ⟨s.buildCore.complete .ok, s.buildCore.encrypt.complete .ok, exec_build_of_fits hvalid hfit,
      exec_cipher_buildCore hfit, exec_encode_of_fits hvalid hfit⟩
  case fails =>
    obtain ⟨code, herror⟩ : ∃ code, s.buildError = some code := by
      by_cases hvalid : s.messageValid
      · exact ⟨_, buildError_of_too_long hvalid (hfails.resolve_left (not_not_intro hvalid))⟩
      · exact ⟨_, buildError_of_not_messageValid hvalid⟩
    rw [exec_of_buildError_eq_some (.inr rfl) herror, exec_of_buildError_eq_some (.inl rfl) herror]

end Sys2Proof.Proofs
end

section
/-! The interrupt output (R320): irq is a level of IE and DONE alone, so each event's effect on it is read off the two
bits. A command always ends in a completion, which sets DONE and leaves IE; the host moves irq through CTRL, STATUS and
CMD; a reset clears both bits. -/

namespace Sys2Proof.Proofs

open Sys2Proof.Machine Sys2Proof.Laws

variable {s : State} {w : Word} {addr : BusAddr}

/-! ## The level after each update of its two bits -/

/-- DONE is set by every completion, whatever its code, so only the mask decides. -/
@[simp] theorem complete_irq (code : ErrCode) : (s.complete code).irq = s.ie := Bool.and_true s.ie

@[simp] theorem accept_irq (w : Word) : (s.accept w).irq = false := Bool.and_false s.ie

@[simp] theorem resetRegs_irq : s.resetRegs.irq = false := rfl

@[simp] theorem hardReset_irq : s.hardReset.irq = false := rfl

theorem clearStatus_irq {d : Word} (h : d.getLsbD 1 = true) : (s.clearStatus d).irq = false := by
  simp [State.irq, State.clearStatus, h]

theorem writeCtrl_of_srst {d : Word} (h : d.getLsbD 1 = true) : s.writeCtrl d = s.softReset := if_pos h

theorem writeCtrl_of_not_srst {d : Word} (h : d.getLsbD 1 = false) : s.writeCtrl d = { s with ie := d.getLsbD 0 } := by
  rw [State.writeCtrl, h]
  rfl

/-! ## Commands end in a completion and leave IE -/

@[simp] theorem parseCore_ie (L : Nat) (s : State) : (s.parseCore L).1.ie = s.ie := by rw [parseCore_frame]

@[simp] theorem decrypt_ie (L : Nat) (s : State) : (s.decrypt L).ie = s.ie := by simp [State.decrypt]

@[simp] theorem buildCore_ie (s : State) : s.buildCore.ie = s.ie := by simp [State.buildCore]

@[simp] theorem encrypt_ie (s : State) : s.encrypt.ie = s.ie := by simp [State.encrypt]

/-- What every command does, as far as irq can tell: whichever checks pass, it completes with some code a state whose IE
is the one before it. -/
theorem exec_completes (i : Instr) (s : State) :
    ∃ code, ∃ u : State, exec i s = .next (u.complete code) ∧ u.ie = s.ie := by
  cases i with
  | cipher off cnt =>
    rw [exec, execCipher]
    split
    · exact ⟨_, _, finish_eq _ _, ksApply_ie _ _ _ _⟩
    · exact ⟨_, _, raise_eq _ _, rfl⟩
  | crc off cnt =>
    rw [exec, execCrc]
    split
    · exact ⟨_, _, finish_eq _ _, noteCrc_ie _ _⟩
    · exact ⟨_, _, raise_eq _ _, rfl⟩
  | vdec => exact ⟨_, _, finish_eq _ _, setFval_ie _ _⟩
  | venc =>
    rw [exec, execVenc]
    split
    · exact ⟨_, _, finish_eq _ _, by simp⟩
    · exact ⟨_, _, raise_eq _ _, rfl⟩
  | parse =>
    cases h : s.lengthError with
    | some code => exact ⟨_, _, exec_of_lengthError_eq_some (.inl rfl) h, setNrec_ie _ _⟩
    | none => exact ⟨_, _, exec_parse_of_lengthOk (lengthOk_of_lengthError_eq_none h), parseCore_ie _ _⟩
  | build =>
    cases h : s.buildError with
    | some code => exact ⟨_, _, exec_of_buildError_eq_some (.inl rfl) h, rfl⟩
    | none =>
      rw [exec, execBuild, h]
      exact ⟨_, _, finish_eq _ _, buildCore_ie s⟩
  | decode =>
    cases h : s.lengthError with
    | some code => exact ⟨_, _, exec_of_lengthError_eq_some (.inr rfl) h, setNrec_ie _ _⟩
    | none => exact ⟨_, _, exec_decode_of_lengthOk (lengthOk_of_lengthError_eq_none h), by simp⟩
  | encode =>
    cases h : s.buildError with
    | some code => exact ⟨_, _, exec_of_buildError_eq_some (.inr rfl) h, rfl⟩
    | none =>
      rw [exec, execEncode, h]
      exact ⟨_, _, finish_eq _ _, by simp⟩

/-- An illegal word completes too, with ILLCMD (R113). -/
theorem runCommand_completes (w : Word) (s : State) :
    ∃ code, ∃ u : State, runCommand w s = .next (u.complete code) ∧ u.ie = s.ie := by
  rw [runCommand]
  cases decode w with
  | ok i => exact exec_completes i s
  | error e => exact ⟨_, _, raise_eq _ _, rfl⟩

/-- The engine's turn on a latched word, whether its event is next or no event is left. -/
theorem step_latched_completes (hrst : s.rst = false) (hlatch : s.latch = some w)
    (hturn : s.events = [] ∨ ∃ rest, s.events = .engine :: rest) :
    ∃ code, ∃ u : State, step s = .next (u.complete code) ∧ u.ie = s.ie := by
  rcases hturn with hnil | ⟨rest, hcons⟩
  · rw [step_latched hrst hlatch (.inl ⟨hnil, rfl⟩)]
    exact runCommand_completes w s
  · rw [step_latched hrst hlatch (.inr ⟨rest, hcons, rfl⟩)]
    exact runCommand_completes w { s with events := rest }

/-! ## The host writes that move irq -/

/-- CTRL is written busy or not (R35, R350). -/
theorem hostWrite_ctrl (hrst : s.rst = false) (ha : wordOffset addr = 0x08) (d : Word) :
    s.hostWrite addr d = s.writeCtrl d := by
  cases hb : s.busy with
  | true => rw [hostWrite_busy hrst hb, ha]; rfl
  | false => rw [hostWrite_idle hrst hb, ha]; rfl

/-- STATUS is written busy or not (R36, R350). -/
theorem hostWrite_status (hrst : s.rst = false) (ha : wordOffset addr = 0x0C) (d : Word) :
    s.hostWrite addr d = s.clearStatus d := by
  cases hb : s.busy with
  | true => rw [hostWrite_busy hrst hb, ha]; rfl
  | false => rw [hostWrite_idle hrst hb, ha]; rfl

/-- An idle block accepts a CMD write (R37). -/
theorem hostWrite_cmd (hrst : s.rst = false) (hlatch : s.latch = none) (ha : wordOffset addr = 0x10) (d : Word) :
    s.hostWrite addr d = s.accept d := by
  rw [hostWrite_idle hrst (busy_of_latch_none hlatch), ha]
  rfl

/-! ## The statement -/

/-- Settles O54: every event named is a completion, a write of one of the two bits, an acceptance or a reset. -/
theorem irqFollowsDoneAndEnable : Obligations.IrqFollowsDoneAndEnable := by
  refine fun s => ⟨fun i t h => ?command, fun w hrst hlatch hturn => ?turn, fun addr d hrst ha hsrst => ?mask,
    fun addr d hrst ha hd => ?clear, fun addr d hrst hlatch ha => ?acceptance, hardReset_irq⟩
  case command =>
    obtain ⟨code, u, hexec, hie⟩ := exec_completes i s
    obtain rfl := Host.Outcome.next.inj (h.symm.trans hexec)
    rw [complete_irq, hie]
  case turn =>
    obtain ⟨code, u, hstep, hie⟩ := step_latched_completes hrst hlatch hturn
    exact ⟨u.complete code, hstep, complete_latch u code, (complete_irq code).trans hie⟩
  case mask =>
    rw [hostWrite_ctrl hrst ha, writeCtrl_of_not_srst hsrst]
    exact ⟨rfl, rfl⟩
  case clear =>
    rcases ha with hstatus | hctrl
    · rw [hostWrite_status hrst hstatus, clearStatus_irq hd]
    · rw [hostWrite_ctrl hrst hctrl, writeCtrl_of_srst hd, State.softReset, resetRegs_irq]
  case acceptance => rw [hostWrite_cmd hrst hlatch ha, accept_irq]

end Sys2Proof.Proofs
end

section
/-! Host reads while a command runs (R351). A read out of reset returns no bit outside the bits that hold storage at its
offset (`State.readBits`), drawn or exact; that one fact gives the zero reads and the reserved bits, and the exact reads
are those of the idle block. -/

namespace Sys2Proof.Proofs

open Sys2Proof.Machine Sys2Proof.Laws

variable {s : State}

/-! ## Words within a mask -/

/-- A word within a mask has none of the mask's reserved bits. -/
theorem and_not_of_and_eq {n : Nat} {x m : BitVec n} (h : x &&& m = x) : x &&& ~~~ m = 0#n := by
  rw [← h, BitVec.and_assoc, BitVec.and_not_self]
  exact BitVec.and_zero

theorem setWidth_and_mask {n : Nat} (x : BitVec n) :
    x.setWidth 32 &&& (BitVec.allOnes n).setWidth 32 = x.setWidth 32 := by
  rw [← BitVec.setWidth_and, BitVec.and_allOnes]

/-! ## Reads return no reserved bit -/

/-- CTRL has one field, beside the write-only SRST (R35). -/
theorem ctrlWord_and_regBits (s : State) : s.ctrlWord &&& regBits .ctrl = s.ctrlWord := by
  have hmask : regBits .ctrl = 1#31 ++ BitVec.allOnes 1 := rfl
  rw [hmask, State.ctrlWord, BitVec.and_append, BitVec.and_allOnes, BitVec.zero_and]

/-- STATUS and its mask agree field by field (R36). -/
theorem statusWord_and_regBits (s : State) : s.statusWord &&& regBits .status = s.statusWord := by
  have hmask : regBits .status =
      0#22 ++ BitVec.allOnes 1 ++ BitVec.allOnes 1 ++ BitVec.allOnes 4 ++ 0#2 ++ BitVec.allOnes 1
        ++ BitVec.allOnes 1 := rfl
  rw [hmask, State.statusWord]
  rw [BitVec.and_append, BitVec.and_append, BitVec.and_append, BitVec.and_append, BitVec.and_append, BitVec.and_append]
  simp only [BitVec.and_allOnes, BitVec.and_zero]

theorem readReg_and_regBits (s : State) (r : Reg) : s.readReg r &&& regBits r = s.readReg r := by
  cases r with
  | ctrl => exact ctrlWord_and_regBits s
  | status => exact statusWord_and_regBits s
  | cmd => exact BitVec.and_zero
  | id | cfg | fvalLo | fvalHi | vbuf0 | vbuf1 | vbuf2 | vbuf3 => exact BitVec.and_allOnes
  | eid | pip | len | lfsr | crc | crcrx | manu | prod | sensor | nrec | tfmt | vfmt | vdesc =>
    exact setWidth_and_mask _

theorem hostByte_and_storedBits (s : State) (a : Nat) : s.hostByte a &&& s.storedBits a = s.hostByte a := by
  rw [State.hostByte, BitVec.and_assoc, BitVec.and_self]

theorem bufferWord_and_bufferBits (s : State) (a : Nat) : s.bufferWord a &&& s.bufferBits a = s.bufferWord a := by
  rw [State.bufferWord, State.bufferBits, and_append_bytes]
  simp only [hostByte_and_storedBits]

theorem readWord_and_readBits (s : State) (a : Nat) : s.readWord a &&& s.readBits a = s.readWord a := by
  rw [State.readWord, State.readBits]
  cases locate a with
  | reg r => exact readReg_and_regBits s r
  | buffer => exact bufferWord_and_bufferBits s a
  | unimplemented => exact BitVec.and_zero

/-- Out of reset a read returns no bit outside `readBits`: an exact word has none, and a drawn one is cut to them. -/
theorem rdata_hostRead_and_readBits (hrst : s.rst = false) (addr : BusAddr) :
    (s.hostRead addr).rdata &&& s.readBits (wordOffset addr) = (s.hostRead addr).rdata := by
  rw [State.hostRead, if_neg (by rw [hrst]; decide)]
  split
  case isTrue => exact readWord_and_readBits s _
  case isFalse => exact (BitVec.and_assoc ..).trans (by rw [BitVec.and_self])

theorem rdata_hostRead_eq_zero {addr : BusAddr} (hrst : s.rst = false) (h : s.readBits (wordOffset addr) = 0#32) :
    (s.hostRead addr).rdata = 0#32 := by
  rw [← rdata_hostRead_and_readBits hrst, h, BitVec.and_zero]

/-! ## Reads of registers -/

theorem locate_reg {a : Nat} {r : Reg} (ha : a < Config.regWindow) (hr : regAt a = some r) : locate a = .reg r := by
  rw [locate, if_pos ha, hr]

theorem readBits_reg {a : Nat} {r : Reg} (h : locate a = .reg r) : s.readBits a = regBits r := by
  rw [State.readBits, h]

theorem readBits_unimplemented {a : Nat} (h : locate a = .unimplemented) : s.readBits a = 0#32 := by
  rw [State.readBits, h]

/-- ID, CFG, CTRL and STATUS read the same busy or idle (R351). -/
theorem rdata_hostRead_exact {addr : BusAddr} {r : Reg} (hrst : s.rst = false)
    (hloc : locate (wordOffset addr) = .reg r) (hexact : exactWhileBusy (.reg r) = true) :
    (s.hostRead addr).rdata = s.readReg r := by
  have hword : s.readWord (wordOffset addr) = s.readReg r := by rw [State.readWord, hloc]
  rw [State.hostRead, if_neg (by rw [hrst]; decide), hloc, hexact, Bool.or_true, if_pos rfl, hword]

/-! ## Reads of the buffer windows -/

theorem readBits_buffer {a : Nat} (h : locate a = .buffer) : s.readBits a = s.bufferBits a := by
  rw [State.readBits, h]

theorem bufferBits_of_no_storage {a : Nat} (h : ∀ j < 4, s.storedBits (a + j) = 0x00#8) : s.bufferBits a = 0#32 := by
  have h0 : s.storedBits a = 0x00#8 := h 0 (by decide)
  rw [State.bufferBits, h0, h 1 (by decide), h 2 (by decide), h 3 (by decide)]
  rfl

/-- Byte k of the word is the one at offset k (R81). -/
theorem extractLsb'_bufferBits {k : Nat} (hk : k < 4) (a : Nat) :
    (s.bufferBits a).extractLsb' (8 * k) 8 = s.storedBits (a + k) := by
  rw [State.bufferBits]
  match k, hk with
  | 0, _ => exact BitVec.extractLsb'_append_eq_right
  | 1, _ => exact (BitVec.extractLsb'_append_eq_of_le (by decide)).trans BitVec.extractLsb'_append_eq_right
  | 2, _ =>
    exact (BitVec.extractLsb'_append_eq_of_le (by decide)).trans
      ((BitVec.extractLsb'_append_eq_of_le (by decide)).trans BitVec.extractLsb'_append_eq_right)
  | 3, _ =>
    exact (BitVec.extractLsb'_append_eq_of_le (by decide)).trans
      ((BitVec.extractLsb'_append_eq_of_le (by decide)).trans BitVec.extractLsb'_append_eq_left)

/-- Each byte position of a buffer read is within the bits that hold storage there. -/
theorem extractLsb'_hostRead_and_not_storedBits {addr : BusAddr} {k : Nat} (hrst : s.rst = false)
    (hloc : locate (wordOffset addr) = .buffer) (hk : k < 4) :
    (s.hostRead addr).rdata.extractLsb' (8 * k) 8 &&& ~~~ s.storedBits (wordOffset addr + k) = 0x00#8 := by
  have hword := rdata_hostRead_and_readBits hrst addr
  rw [readBits_buffer hloc] at hword
  refine and_not_of_and_eq ?_
  rw [← extractLsb'_bufferBits hk, ← BitVec.extractLsb'_and, hword]

theorem storedBits_above_pbuf {a : Nat} (hlo : Config.pbufBase + s.bufBytes ≤ a) (hhi : a < Config.recBase) :
    s.storedBits a = 0x00#8 := by
  rw [State.storedBits, if_neg (by omega), if_neg (by omega)]

theorem storedBits_recTab {a : Nat} (hbuf : s.bufBytes ≤ Config.maxBufBytes) (hlo : Config.recBase ≤ a)
    (hhi : a < Config.recBase + 32 * s.maxRecords) : s.storedBits a = recMask (a % 32) := by
  have hbase : Config.recBase = 32 * 0x800 := rfl
  have ha : a = recAddr ((a - Config.recBase) / 32) + a % 32 := by
    rw [recAddr]
    omega
  have hentry : (a - Config.recBase) / 32 < s.maxRecords := by omega
  have hstored := storedBits_rec hbuf hentry (Nat.mod_lt a (by decide : 0 < 32))
  rwa [← ha] at hstored

/-! ## The offsets that read 0 -/

/-- R53, R82, R83 and the bytes of R81 above BUF_BYTES: nothing is drawn where nothing is stored. -/
theorem readBits_of_no_storage {a : Nat} (hbuf : s.bufBytes ≤ Config.maxBufBytes) (halign : a % 4 = 0)
    (h : (0x60 ≤ a ∧ a < 0x1000) ∨ (Config.pbufBase + s.bufBytes ≤ a ∧ a < Config.recBase)
      ∨ Config.recBase + 32 * s.maxRecords ≤ a) : s.readBits a = 0#32 := by
  have hpbuf : Config.pbufBase = 0x1000 := rfl
  have hrec : Config.recBase = 0x10000 := rfl
  rcases h with hreserved | ⟨hlo, hhi⟩ | habove
  · exact readBits_unimplemented (locate_unimplemented (.inl hreserved))
  · by_cases hwindow : a < 0x2000
    · rw [readBits_buffer (locate_buffer (.inl ⟨by omega, hwindow⟩))]
      exact bufferBits_of_no_storage fun j _ => storedBits_above_pbuf (by omega) (by omega)
    · exact readBits_unimplemented (locate_unimplemented (.inr ⟨by omega, hhi⟩))
  · rw [readBits_buffer (locate_above_recTab habove)]
    exact bufferBits_of_no_storage fun j _ => storedBits_above_recTab hbuf (by omega)

/-! ## The statement -/

/-- Settles O52: four registers are exact, and every other clause names bits that hold no storage at the offset read. -/
theorem hostReadsWhileBusy : Obligations.HostReadsWhileBusy := by
  intro s addr hrst _ hbuf a got recEnd
  have halign : a % 4 = 0 := Nat.mul_mod_left _ _
  have hexact : ∀ r, locate a = .reg r → exactWhileBusy (.reg r) = true → got = s.readReg r := fun r =>
    rdata_hostRead_exact hrst
  have hlane : ∀ k < 4, locate a = .buffer → got.extractLsb' (8 * k) 8 &&& ~~~ s.storedBits (a + k) = 0x00#8 :=
    fun k hk hloc => extractLsb'_hostRead_and_not_storedBits hrst hloc hk
  refine ⟨hostRead_frame addr s, fun ha => ?id, fun ha => ?cfg, fun ha => ?ctrl, fun ha => ?status, fun ha => ?zero,
    fun r hr ha => ?register, fun k hk hlo hhi habove => ?pbuf, fun k hk hlo hhi => ?recTab⟩
  case id => exact hexact .id (by rw [ha]; rfl) rfl
  case cfg => exact hexact .cfg (by rw [ha]; rfl) rfl
  case ctrl => exact hexact .ctrl (by rw [ha]; rfl) rfl
  case status => exact hexact .status (by rw [ha]; rfl) rfl
  case zero =>
    refine rdata_hostRead_eq_zero hrst ?_
    rcases ha with hcmd | hnone
    · exact readBits_reg (a := a) (r := .cmd) (by rw [hcmd]; rfl)
    · exact readBits_of_no_storage hbuf halign hnone
  case register =>
    have hbits : s.readBits a = regBits r := readBits_reg (locate_reg (lt_trans ha (by decide)) hr)
    exact hbits ▸ and_not_of_and_eq (rdata_hostRead_and_readBits hrst addr)
  case pbuf =>
    have hstored : s.storedBits (a + k) = 0x00#8 :=
      storedBits_above_pbuf habove (by rw [Config.recBase]; omega)
    have hlane := hlane k hk (locate_buffer (.inl ⟨hlo, hhi⟩))
    rwa [hstored, BitVec.not_zero, BitVec.and_allOnes] at hlane
  case recTab =>
    have hstored : s.storedBits (a + k) = recMask ((a + k) % 32) :=
      storedBits_recTab hbuf (le_trans hlo (Nat.le_add_right a k)) (show a + k < recEnd by omega)
    exact hstored ▸ hlane k hk (locate_buffer (.inr hlo))

end Sys2Proof.Proofs
end

section
/-! The hardware reset (R340): a state whose registers were just reset reads the reset column of R32, whatever its
buffers and host side hold, so the block reads it while `rst` is asserted and after its release. -/

namespace Sys2Proof.Proofs

open Sys2Proof.Machine Sys2Proof.Laws

variable {s : State}

/-! ## Registers after a reset -/

/-- Register by register, the reset column of R32 (R63). -/
theorem readReg_resetRegs (s : State) (r : Reg) : s.resetRegs.readReg r = resetWord s.bufBytes r := by
  cases r with
  | ctrl => rw [State.readReg, State.ctrlWord, resetRegs_ie]; rfl
  | status =>
    rw [State.readReg, State.statusWord, State.busy, resetRegs_wbusy, resetRegs_sat, resetRegs_err, resetRegs_done,
      resetRegs_latch]
    rfl
  | fvalHi => rw [State.readReg, resetRegs_fval]; rfl
  | vbuf1 | vbuf2 | vbuf3 => rw [State.readReg, resetRegs_vbuf]; rfl
  | _ => rfl

theorem readReg_hardReset (s : State) (r : Reg) : s.hardReset.readReg r = resetWord s.bufBytes r :=
  readReg_resetRegs { s with mem := [], epoch := s.draws, draws := s.draws + 1, rst := true } r

/-- The release of `rst` leaves the registers as the reset set them. -/
theorem release_hardReset (s : State) (rest : List Event) :
    { s.hardReset with events := rest, rst := false } =
      State.resetRegs { s.hardReset with events := rest, rst := false } := rfl

/-! ## The edges of `rst` as steps -/

theorem step_cons {e : Event} {rest : List Event} (h : s.events = e :: rest) :
    step s = applyEvent e { s with events := rest } := by
  rw [step, stepEvents, h]

theorem step_rstAssert {rest : List Event} (h : s.events = .rstAssert :: rest) :
    step s = .next (State.hardReset { s with events := rest }) := step_cons h

theorem step_rstRelease {rest : List Event} (h : s.events = .rstRelease :: rest) :
    step s = .next { s with events := rest, rst := false } := step_cons h

/-! ## The statement -/

/-- Settles O55: the block under reset, and the one two steps later when `rst` falls, both have just-reset registers. -/
theorem hardResetHoldsBlockInReset : Obligations.HardResetHoldsBlockInReset := by
  intro s t
  refine ⟨readReg_hardReset s, hardReset_latch s, hardReset_irq, hostWrite_rst (hardReset_rst s),
    fun addr => hostRead_frame addr t, fun rest hevents => ?released⟩
  case released =>
    refine ⟨_, _, step_rstAssert hevents, step_rstRelease (hardReset_events _), ?_⟩
    rw [release_hardReset]
    exact ⟨rfl, rfl, resetRegs_irq, readReg_resetRegs _⟩

end Sys2Proof.Proofs
end

section
/-! What the commands do, said once: the effect a command has on the state and the code it then completes with, case by
case. The frame of every command (R346), the codes it may end with (R316) and the rule for SAT (R36) are read off it. -/

namespace Sys2Proof.Proofs

open Sys2Proof.Machine Sys2Proof.Laws

/-- `Effect s i u code`: command i takes the state from s to u and then completes with the code. -/
inductive Effect (s : State) : Instr → State → ErrCode → Prop
  | cipher {off cnt : Nat} (hfits : off + cnt ≤ s.bufBytes) :
      Effect s (.cipher off cnt) (s.ksApply (cipherSeed s.eid s.pip) off cnt) .ok
  | cipherRange {off cnt : Nat} (hlong : s.bufBytes < off + cnt) : Effect s (.cipher off cnt) s .range
  | crc {off cnt : Nat} (hfits : off + cnt ≤ s.bufBytes) :
      Effect s (.crc off cnt) (s.noteCrc (crc16 (s.pbufRead off cnt))) .ok
  | crcRange {off cnt : Nat} (hlong : s.bufBytes < off + cnt) : Effect s (.crc off cnt) s .range
  | vdec : Effect s .vdec (s.setFval (dec s.vdesc (s.vbufRead (dlen s.vdesc)))) .ok
  | venc (hok : encodable s.vdesc = true) :
      Effect s .venc ((s.vbufWrite (enc s.vdesc s.fval).1).markSat (enc s.vdesc s.fval).2) .ok
  | vencBadfmt (hbad : encodable s.vdesc = false) : Effect s .venc s .badfmt
  | lengthRefused {i : Instr} {code : ErrCode} (hi : i = .parse ∨ i = .decode) (herror : s.lengthError = some code) :
      Effect s i (s.setNrec 0#16) code
  | parse (hlen : s.lengthOk) : Effect s .parse (s.parseCore s.len.toNat).1 (s.parseCore s.len.toNat).2
  | decode (hlen : s.lengthOk) :
      Effect s .decode ((s.decrypt s.len.toNat).parseCore s.len.toNat).1
        ((s.decrypt s.len.toNat).parseCore s.len.toNat).2
  | buildRefused {i : Instr} {code : ErrCode} (hi : i = .build ∨ i = .encode) (herror : s.buildError = some code) :
      Effect s i s code
  | build (hpass : s.buildError = none) : Effect s .build s.buildCore .ok
  | encode (hpass : s.buildError = none) : Effect s .encode s.buildCore.encrypt .ok

variable {s t u : State} {i : Instr} {code : ErrCode} {off cnt : Nat}

/-! ## Every command has one of the effects -/

theorem exec_cipher_of_not_fits (h : s.bufBytes < off + cnt) :
    exec (.cipher off cnt) s = .next (s.complete .range) := by
  rw [exec, execCipher, State.rangeFits, if_neg (by simpa using h)]
  rfl

theorem exec_crc_of_fits (h : off + cnt ≤ s.bufBytes) :
    exec (.crc off cnt) s = .next ((s.noteCrc (crc16 (s.pbufRead off cnt))).complete .ok) := by
  rw [exec, execCrc, State.rangeFits, if_pos (decide_eq_true h)]
  rfl

theorem exec_crc_of_not_fits (h : s.bufBytes < off + cnt) : exec (.crc off cnt) s = .next (s.complete .range) := by
  rw [exec, execCrc, State.rangeFits, if_neg (by simpa using h)]
  rfl

theorem exec_vdec (s : State) :
    exec .vdec s = .next ((s.setFval (dec s.vdesc (s.vbufRead (dlen s.vdesc)))).complete .ok) := rfl

theorem exec_venc_of_encodable (h : encodable s.vdesc = true) :
    exec .venc s =
      .next (((s.vbufWrite (enc s.vdesc s.fval).1).markSat (enc s.vdesc s.fval).2).complete .ok) := by
  rw [exec, execVenc, if_pos h]
  rfl

theorem exec_venc_of_not_encodable (h : encodable s.vdesc = false) :
    exec .venc s = .next (s.complete .badfmt) := by
  rw [exec, execVenc, h]
  rfl

/-- What a command can do: one of its effects, and the completion after it. -/
theorem exec_effect (i : Instr) (s : State) : ∃ u code, exec i s = .next (u.complete code) ∧ Effect s i u code := by
  cases i with
  | cipher off cnt =>
    rcases le_or_gt (off + cnt) s.bufBytes with hfits | hlong
    · exact ⟨_, _, exec_cipher_of_fits hfits, .cipher hfits⟩
    · exact ⟨_, _, exec_cipher_of_not_fits hlong, .cipherRange hlong⟩
  | crc off cnt =>
    rcases le_or_gt (off + cnt) s.bufBytes with hfits | hlong
    · exact ⟨_, _, exec_crc_of_fits hfits, .crc hfits⟩
    · exact ⟨_, _, exec_crc_of_not_fits hlong, .crcRange hlong⟩
  | vdec => exact ⟨_, _, exec_vdec s, .vdec⟩
  | venc =>
    cases hcode : encodable s.vdesc with
    | true => exact ⟨_, _, exec_venc_of_encodable hcode, .venc hcode⟩
    | false => exact ⟨_, _, exec_venc_of_not_encodable hcode, .vencBadfmt hcode⟩
  | parse =>
    cases hlen : s.lengthError with
    | some code => exact ⟨_, _, exec_of_lengthError_eq_some (.inl rfl) hlen, .lengthRefused (.inl rfl) hlen⟩
    | none =>
      have hok := lengthOk_of_lengthError_eq_none hlen
      exact ⟨_, _, exec_parse_of_lengthOk hok, .parse hok⟩
  | build =>
    cases hpass : s.buildError with
    | some code => exact ⟨_, _, exec_of_buildError_eq_some (.inl rfl) hpass, .buildRefused (.inl rfl) hpass⟩
    | none => exact ⟨_, _, by rw [exec, execBuild, hpass]; rfl, .build hpass⟩
  | decode =>
    cases hlen : s.lengthError with
    | some code => exact ⟨_, _, exec_of_lengthError_eq_some (.inr rfl) hlen, .lengthRefused (.inr rfl) hlen⟩
    | none =>
      have hok := lengthOk_of_lengthError_eq_none hlen
      exact ⟨_, _, exec_decode_of_lengthOk hok, .decode hok⟩
  | encode =>
    cases hpass : s.buildError with
    | some code => exact ⟨_, _, exec_of_buildError_eq_some (.inr rfl) hpass, .buildRefused (.inr rfl) hpass⟩
    | none => exact ⟨_, _, by rw [exec, execEncode, hpass]; rfl, .encode hpass⟩

/-- A command's next state, by its effect. -/
theorem effect_of_exec (h : exec i s = .next t) : ∃ u code, t = u.complete code ∧ Effect s i u code := by
  obtain ⟨u, code, hexec, heffect⟩ := exec_effect i s
  exact ⟨u, code, Host.Outcome.next.inj (h.symm.trans hexec), heffect⟩

/-! ## The codes -/

theorem lengthError_code (h : s.lengthError = some code) : code = .range ∨ code = .short := by
  rw [lengthError_eq] at h
  split_ifs at h
  · exact .inl (Option.some.inj h).symm
  · exact .inr (Option.some.inj h).symm

theorem buildError_code (h : s.buildError = some code) : code = .badrec ∨ code = .overflow := by
  rw [buildError_eq] at h
  split_ifs at h
  · exact .inl (Option.some.inj h).symm
  · exact .inl (Option.some.inj h).symm
  · exact .inr (Option.some.inj h).symm

/-- The codes of R316 and R318 are the ones the effects end with. -/
theorem Effect.mayEndWith (h : Effect s i u code) : mayEndWith i code = true := by
  have hscan : ∀ (L : Nat) (v : State), (v.parseCore L).2 = .ok ∨ (v.parseCore L).2 = .short
      ∨ (v.parseCore L).2 = .crcfail := fun L v => by
    rcases parseCore_code L v with hok | ⟨hshort | hcrc, _⟩
    · exact .inl hok
    · exact .inr (.inl hshort)
    · exact .inr (.inr hcrc)
  cases h with
  | cipher | cipherRange | crc | crcRange | vdec | venc | vencBadfmt | build | encode => rfl
  | lengthRefused hi herror =>
    rcases hi with rfl | rfl <;> rcases lengthError_code herror with rfl | rfl <;> rfl
  | buildRefused hi herror =>
    rcases hi with rfl | rfl <;> rcases buildError_code herror with rfl | rfl <;> rfl
  | parse =>
    rcases hscan s.len.toNat s with h | h | h <;> rw [h] <;> rfl
  | decode =>
    rcases hscan s.len.toNat (s.decrypt s.len.toNat) with h | h | h <;> rw [h] <;> rfl

/-! ## The frames -/

/-- Settles O42: each effect names the registers it writes, and a completion writes the latch, DONE and ERR alone. -/
theorem commandsWriteOnlyTheirRegisters : Obligations.CommandsWriteOnlyTheirRegisters := by
  intro i s t h
  obtain ⟨u, code, rfl, heffect⟩ := effect_of_exec h
  cases heffect with
  | cipher => simp
  | cipherRange | crcRange | vencBadfmt => simp
  | crc => simp
  | vdec => simp
  | venc => simp
  | lengthRefused hi => rcases hi with rfl | rfl <;> simp
  | buildRefused hi => rcases hi with rfl | rfl <;> simp
  | parse => rw [parseCore_frame]; simp
  | decode => rw [parseCore_frame, decrypt_frame]; simp
  | build => rw [buildCore_frame]; simp
  | encode => rw [encrypt_frame, buildCore_frame]; simp

/-- Settles O41: the completion sets the latch, DONE and ERR, and no effect reaches CTRL or WBUSY. -/
theorem everyCommandCompletes : Obligations.EveryCommandCompletes := by
  intro i s
  obtain ⟨u, code, hexec, heffect⟩ := exec_effect i s
  obtain ⟨-, hie, hwbusy, -⟩ := commandsWriteOnlyTheirRegisters i s _ hexec
  exact ⟨u.complete code, hexec, complete_latch u code, complete_done u code, heffect.mayEndWith, hie, hwbusy⟩

/-- An effect leaves SAT alone, or sets it where something saturated and ends with OK. -/
theorem Effect.sat (h : Effect s i u code) :
    u.sat = s.sat ∨ (code = .ok ∧ (i = .venc ∨ i = .build ∨ i = .encode) ∧ ∃ sat, u.sat = (s.sat || sat)) := by
  cases h with
  | cipher | cipherRange | crc | crcRange | vdec | vencBadfmt | lengthRefused | buildRefused => exact .inl (by simp)
  | parse => exact .inl (by rw [parseCore_frame])
  | decode => exact .inl (by rw [parseCore_frame, decrypt_frame])
  | venc => exact .inr ⟨rfl, .inl rfl, _, markSat_sat _ _⟩
  | build => exact .inr ⟨rfl, .inr (.inl rfl), s.packetSat, by rw [buildCore_frame]⟩
  | encode => exact .inr ⟨rfl, .inr (.inr rfl), s.packetSat, by rw [encrypt_frame, buildCore_frame]⟩

/-- Settles O44: SAT only ever gains, by one of the three commands that encode values, which then ends with OK. -/
theorem satOnlyWithSuccess : Obligations.SatOnlyWithSuccess := by
  intro i s t h
  obtain ⟨u, code, rfl, heffect⟩ := effect_of_exec h
  rw [complete_sat, complete_err]
  rcases heffect.sat with hsame | ⟨hcode, hi, sat, hsat⟩
  · exact ⟨fun h => hsame.trans h, fun hne => absurd hsame hne⟩
  · exact ⟨fun h => by rw [hsat, h, Bool.true_or], fun _ => ⟨hcode, hi⟩⟩

/-! ## Whole next states -/

/-- Settles O9: the range test decides between the checksum and RANGE. -/
theorem crcCommandResult : Obligations.CrcCommandResult :=
  fun _ _ _ => ⟨exec_crc_of_fits, exec_crc_of_not_fits⟩

/-- Settles O13: VDEC checks nothing, so its completion is the whole next state. -/
theorem vdecCompletesWithDecodedValue : Obligations.VdecCompletesWithDecodedValue := by
  intro s
  rw [exec_vdec, dlen_eq]
  rfl

/-- Byte i of a little-endian number, 0 above its bytes. -/
theorem leNat_byte (v : List Byte) (i : Nat) : leNat v / 256 ^ i % 256 = (v[i]?.getD 0x00#8).toNat := by
  induction v generalizing i with
  | nil => simp [leNat]
  | cons b v ih =>
    have hb := b.isLt
    cases i with
    | zero => simp only [leNat, Nat.pow_zero, List.getElem?_cons_zero, Option.getD_some]; omega
    | succ i =>
      have hrest : (b.toNat + 256 * leNat v) / 256 = leNat v := by omega
      rw [leNat, Nat.pow_succ', ← Nat.div_div_eq_div_mul, hrest, ih, List.getElem?_cons_succ]

/-- The bytes a little-endian value was put together from. -/
theorem extractLsb'_ofNat_leNat {w i : Nat} (v : List Byte) (h : 8 * i + 8 ≤ w) :
    (BitVec.ofNat w (leNat v)).extractLsb' (8 * i) 8 = v[i]?.getD 0x00#8 := by
  refine BitVec.eq_of_toNat_eq ?_
  have hsplit : 2 ^ w = 256 ^ i * (256 * 2 ^ (w - (8 * i + 8))) := by
    rw [show 256 = 2 ^ 8 from rfl, ← Nat.pow_mul, ← Nat.pow_add, ← Nat.pow_add]
    congr 1
    omega
  rw [BitVec.extractLsb'_toNat, BitVec.toNat_ofNat, Nat.shiftRight_eq_div_pow, Nat.pow_mul, hsplit,
    show 2 ^ 8 = 256 from rfl, Nat.mod_mul_right_div_self, Nat.mod_mul_right_mod, leNat_byte]

/-- Settles O20: VBUF is put together from the encoded bytes, and above them holds zeros. -/
theorem vencCompletesOrRaisesBadfmt : Obligations.VencCompletesOrRaisesBadfmt := by
  refine fun s => ⟨fun hok => ⟨_, exec_venc_of_encodable hok, rfl, ?length, fun i hi => ?byte⟩,
    exec_venc_of_not_encodable⟩
  case length => rw [enc_length, dlen_eq]
  case byte => exact extractLsb'_ofNat_leNat _ (by omega)

end Sys2Proof.Proofs
end

section
/-! What a step can do, said once: a host access, an edge of `rst`, an engine that waits or the completion of the latched
word. That no step stops, what sets WBUSY, that a running command completes and that the invariant is kept are read off
it. -/

namespace Sys2Proof.Proofs

open Sys2Proof.Machine Sys2Proof.Laws

variable {s t u : State} {w : Word} {i : Instr} {code : ErrCode} {addr : BusAddr}

/-! ## The engine's turn and the other events -/

/-- The engine has its turn, at the state u: its event is taken off the front, or no event is left (R355). -/
def EngineTurnAt (s u : State) : Prop :=
  (s.events = [] ∧ u = s) ∨ ∃ rest, s.events = .engine :: rest ∧ u = { s with events := rest }

theorem engineTurn_waiting (h : s.rst = true ∨ s.latch = none) : engineTurn s = .next s := by
  rcases h with hrst | hlatch
  · rw [engineTurn, if_pos hrst]
  · rw [engineTurn, hlatch, ite_self]

/-- An engine with nothing to run, or held in reset, waits (R340, R344). -/
theorem step_waiting (h : s.rst = true ∨ s.latch = none) (hturn : EngineTurnAt s u) : step s = .next u := by
  rcases hturn with ⟨hnil, rfl⟩ | ⟨rest, hcons, rfl⟩
  · rw [step, stepEvents, hnil]
    exact engineTurn_waiting h
  · rw [step_cons hcons]
    exact engineTurn_waiting (s := { s with events := rest }) h

/-- Settles O5: a latched word is run at the engine's turn, and every other event is applied as it stands. -/
theorem stepRunsDecodedCommand : Obligations.StepRunsDecodedCommand := by
  refine ⟨fun s w i hrst hlatch hdecode => ⟨fun hnil => ?last, fun rest hcons => ?next⟩, fun s rest =>
    ⟨fun _ _ => step_cons, fun _ => step_cons, step_cons, step_cons, fun h => ⟨fun hnil => ?idle, fun hcons => ?wait⟩⟩⟩
  case last => rw [step_latched hrst hlatch (.inl ⟨hnil, rfl⟩), runCommand_of_decode hdecode]
  case next => rw [step_latched hrst hlatch (.inr ⟨rest, hcons, rfl⟩), runCommand_of_decode hdecode]
  case idle => exact step_waiting h (.inl ⟨hnil, rfl⟩)
  case wait => exact step_waiting h (.inr ⟨rest, hcons, rfl⟩)

/-- `StepsTo s t`: the ways a step takes s to t. -/
inductive StepsTo (s : State) : State → Prop
  | write {addr : BusAddr} {d : Word} {rest : List Event} (hevent : s.events = .write addr d :: rest) :
      StepsTo s (State.hostWrite addr d { s with events := rest })
  | read {addr : BusAddr} {rest : List Event} (hevent : s.events = .read addr :: rest) :
      StepsTo s (State.hostRead addr { s with events := rest })
  | rstAssert {rest : List Event} (hevent : s.events = .rstAssert :: rest) :
      StepsTo s (State.hardReset { s with events := rest })
  | rstRelease {rest : List Event} (hevent : s.events = .rstRelease :: rest) :
      StepsTo s { s with events := rest, rst := false }
  | wait {u : State} (hturn : EngineTurnAt s u) (hidle : s.rst = true ∨ s.latch = none) : StepsTo s u
  | run {u t : State} {i : Instr} (hturn : EngineTurnAt s u) (hrst : s.rst = false) (hexec : exec i u = .next t) :
      StepsTo s t
  | illegal {u : State} (hturn : EngineTurnAt s u) (hrst : s.rst = false) : StepsTo s (u.complete .illcmd)

/-- The engine's turn out of reset with a word latched. -/
theorem step_engine_latched (hturn : EngineTurnAt s u) (hrst : s.rst = false) (hlatch : s.latch = some w) :
    ∃ t, step s = .next t ∧ StepsTo s t := by
  rw [step_latched hrst hlatch hturn, runCommand]
  cases decode w with
  | ok i =>
    obtain ⟨v, code, hexec, -⟩ := exec_effect i u
    exact ⟨_, hexec, .run hturn hrst hexec⟩
  | error e => exact ⟨_, raise_eq _ _, .illegal hturn hrst⟩

theorem step_engine (hturn : EngineTurnAt s u) : ∃ t, step s = .next t ∧ StepsTo s t := by
  by_cases hidle : s.rst = true ∨ s.latch = none
  · exact ⟨u, step_waiting hidle hturn, .wait hturn hidle⟩
  · rw [not_or, Bool.not_eq_true] at hidle
    obtain ⟨hrst, hlatch⟩ := hidle
    obtain ⟨w, hw⟩ := Option.ne_none_iff_exists'.mp hlatch
    exact step_engine_latched hturn hrst hw

/-- Every step does one of these, from every state. -/
theorem step_stepsTo (s : State) : ∃ t, step s = .next t ∧ StepsTo s t := by
  cases hevents : s.events with
  | nil => exact step_engine (.inl ⟨hevents, rfl⟩)
  | cons e rest =>
    cases e with
    | write addr d => exact ⟨_, step_cons hevents, .write hevents⟩
    | read addr => exact ⟨_, step_cons hevents, .read hevents⟩
    | engine => exact step_engine (.inr ⟨rest, hevents, rfl⟩)
    | rstAssert => exact ⟨_, step_cons hevents, .rstAssert hevents⟩
    | rstRelease => exact ⟨_, step_cons hevents, .rstRelease hevents⟩

theorem stepsTo_of_step (h : step s = .next t) : StepsTo s t := by
  obtain ⟨t', hstep, hto⟩ := step_stepsTo s
  obtain rfl := Host.Outcome.next.inj (h.symm.trans hstep)
  exact hto

/-- The engine's turn looks at a state that differs in the events alone. -/
theorem EngineTurnAt.eq_events (h : EngineTurnAt s u) : ∃ rest, u = { s with events := rest } := by
  rcases h with ⟨_, rfl⟩ | ⟨rest, _, rfl⟩
  · exact ⟨_, rfl⟩
  · exact ⟨rest, rfl⟩

/-! ## What a host write leaves -/

@[simp] theorem softReset_bufBytes (s : State) : s.softReset.bufBytes = s.bufBytes := by rw [softReset_eq]

@[simp] theorem writeCtrl_bufBytes (d : Word) (s : State) : (s.writeCtrl d).bufBytes = s.bufBytes := by
  unfold State.writeCtrl
  split
  · exact softReset_bufBytes s
  · rfl

@[simp] theorem writeReg_bufBytes (d : Word) (r : Reg) (s : State) : (s.writeReg d r).bufBytes = s.bufBytes := by
  cases r with
  | ctrl => exact writeCtrl_bufBytes d s
  | _ => rfl

@[simp] theorem hostWrite_bufBytes (addr : BusAddr) (d : Word) (s : State) :
    (s.hostWrite addr d).bufBytes = s.bufBytes := by
  cases hrst : s.rst with
  | true => rw [hostWrite_rst hrst]
  | false =>
    cases hb : s.busy with
    | true =>
      rw [hostWrite_busy hrst hb, State.writeWhileBusy]
      split
      · exact writeCtrl_bufBytes d s
      · rfl
      · rfl
      · split <;> rfl
      · rfl
    | false =>
      rw [hostWrite_idle hrst hb, State.writeWhileIdle]
      split
      · exact writeReg_bufBytes d _ s
      · rw [writeBuffer_frame]
      · rfl

/-- Settles O60: a step always answers, and neither a host access, nor a reset, nor a command reaches BUF_BYTES. -/
theorem stepNeverStops : Obligations.StepNeverStops := by
  intro s
  obtain ⟨t, hstep, hto⟩ := step_stepsTo s
  refine ⟨t, hstep, ?_⟩
  cases hto with
  | write => exact hostWrite_bufBytes _ _ _
  | read => rw [hostRead_frame]
  | rstAssert => exact hardReset_bufBytes _
  | rstRelease => rfl
  | wait hturn =>
    obtain ⟨rest, rfl⟩ := hturn.eq_events
    rfl
  | run hturn hrst hexec =>
    obtain ⟨rest, rfl⟩ := hturn.eq_events
    exact (commandsWriteOnlyTheirRegisters _ _ _ hexec).1
  | illegal hturn =>
    obtain ⟨rest, rfl⟩ := hturn.eq_events
    exact complete_bufBytes _ _

/-! ## What sets WBUSY -/

/-- An idle write does not set WBUSY: it writes another register, clears WBUSY, or resets it. -/
theorem writeWhileIdle_wbusy (h : s.wbusy = false) (a : Nat) (d : Word) : (s.writeWhileIdle a d).wbusy = false := by
  rw [State.writeWhileIdle]
  split
  case h_1 r hloc =>
    cases r with
    | ctrl =>
      rw [State.writeReg, State.writeCtrl]
      split
      · rfl
      · exact h
    | status => rw [State.writeReg, clearStatus_wbusy, h, Bool.false_and]
    | _ => exact h
  case h_2 => rw [writeBuffer_frame]; exact h
  case h_3 => exact h

/-- Nor does a write that `rst` masks. -/
theorem hostWrite_wbusy (h : s.wbusy = false) (hquiet : s.rst = true ∨ s.busy = false) (addr : BusAddr) (d : Word) :
    (s.hostWrite addr d).wbusy = false := by
  cases hrst : s.rst with
  | true => rw [hostWrite_rst hrst, h]
  | false =>
    rw [hostWrite_idle hrst (hquiet.resolve_left (by rw [hrst]; decide))]
    exact writeWhileIdle_wbusy h _ d

/-- Settles O53: of all that a step can do, only a host write out of reset with a word latched sets WBUSY. -/
theorem wbusyMeansWriteWhileBusy : Obligations.WbusyMeansWriteWhileBusy := by
  intro s t hstep hclear hset
  have hrises : t.wbusy ≠ false := by rw [hset]; decide
  cases stepsTo_of_step hstep with
  | @write addr d rest hevent =>
    by_cases hquiet : s.rst = true ∨ s.busy = false
    · exact absurd (hostWrite_wbusy (s := { s with events := rest }) hclear hquiet addr d) hrises
    · rw [not_or, Bool.not_eq_true, Bool.not_eq_false] at hquiet
      exact ⟨hquiet.2, hquiet.1, addr, d, rest, hevent⟩
  | @read addr rest =>
    exact absurd ((congrArg State.wbusy (hostRead_frame addr { s with events := rest })).trans hclear) hrises
  | rstAssert => exact absurd (hardReset_wbusy _) hrises
  | rstRelease => exact absurd hclear hrises
  | wait hturn =>
    obtain ⟨rest, rfl⟩ := hturn.eq_events
    exact absurd hclear hrises
  | run hturn _ hexec =>
    obtain ⟨rest, rfl⟩ := hturn.eq_events
    obtain ⟨-, -, hwbusy, -⟩ := commandsWriteOnlyTheirRegisters _ _ _ hexec
    exact absurd (hwbusy.trans hclear) hrises
  | illegal hturn =>
    obtain ⟨rest, rfl⟩ := hturn.eq_events
    exact absurd hclear hrises

/-! ## A running command completes -/

theorem run_succ_of_step {k : Nat} (h : step s = .next t) :
    Host.Core.run core (k + 1) s = Host.Core.run core k t := by
  have hcore : core.step s = .next t := h
  simp only [Host.Core.run, hcore]

/-- One step more than there are reads before the engine's turn, by induction on those reads. -/
theorem run_reads_completes (es : List Event) (hreads : ∀ e ∈ es, ∃ addr, e = .read addr) (s : State)
    (hevents : s.events = es) (hrst : s.rst = false) (hlatch : s.latch = some w) :
    ∃ t, Host.Core.run core (es.length + 1) s = .next t ∧ t.busy = false ∧ t.done = true := by
  induction es generalizing s with
  | nil =>
    obtain ⟨code, u, hstep, -⟩ := step_latched_completes hrst hlatch (.inl hevents)
    exact ⟨u.complete code, run_succ_of_step hstep, rfl, rfl⟩
  | cons e rest ih =>
    obtain ⟨addr, rfl⟩ := hreads e List.mem_cons_self
    have hframe := hostRead_frame addr { s with events := rest }
    rw [List.length_cons, run_succ_of_step (step_cons hevents)]
    exact ih (fun e he => hreads e (List.mem_cons_of_mem _ he)) _ (congrArg State.events hframe)
      ((congrArg State.rst hframe).trans hrst) ((congrArg State.latch hframe).trans hlatch)

/-- Settles O57: each read keeps the latched word, and the engine's turn completes it. -/
theorem runningCommandCompletes : Obligations.RunningCommandCompletes := by
  intro s hrst hbusy hreads
  obtain ⟨w, hlatch⟩ := Option.isSome_iff_exists.mp hbusy
  exact run_reads_completes s.events hreads s rfl hrst hlatch

end Sys2Proof.Proofs
end

section
/-! The invariant `State.Inv`: it holds after reset, and every step keeps it. A reset meets all its clauses anew; while
`rst` is asserted a step changes the read data, the draw counter and the events alone; and out of reset a host write or a
command keeps the clauses on what it writes. -/

namespace Sys2Proof.Proofs

open Sys2Proof.Machine Sys2Proof.Laws

variable {s t u : State} {i : Instr} {code : ErrCode} {d : Word}

/-! ## Ways to meet the invariant -/

theorem inv_stored (h : s.Inv) : Stored s := ⟨h.memWf, h.memStored⟩

/-- Out of reset the clause on the reset values says nothing. -/
theorem rstHeld_of_low (h : s.rst = false) : s.rst = true → s.resetRegs = s :=
  fun hset => absurd (hset.symm.trans h) (by decide)

/-- Registers just reset meet it, whatever was there before (R63). -/
theorem inv_resetRegs (hbuf : Config.minBufBytes ≤ s.bufBytes ∧ s.bufBytes ≤ Config.maxBufBytes) (hstored : Stored s)
    (hdrawn : s.epoch < s.draws) : s.resetRegs.Inv where
  bufRange := hbuf
  memWf := hstored.1
  memStored := hstored.2
  tfmtLegal := show legalFormat 0x92#8 = true by decide
  vfmtLegal := show legalFormat 0x22#8 = true by decide
  cursorIn := Nat.zero_le _
  epochDrawn := hdrawn
  busyFlags := fun hbusy => absurd hbusy Bool.false_ne_true
  rstHeld := fun _ => rfl

/-- Settles O58: the reset state is one whose registers were just reset. -/
theorem invariantAtReset : Obligations.InvariantAtReset :=
  inv_resetRegs (s := State.reset) ⟨by decide, by decide⟩ ⟨reset_mem_wf, fun _ h => nomatch h⟩ (by decide)

/-! ## The host side and the resets -/

/-- The host side's own fields are free, the draw counter upwards; the registers held at reset are not among them. -/
theorem inv_hostSide (h : s.Inv) {draws : Nat} (hdraws : s.draws ≤ draws) (rdata : Word) (events : List Event) :
    State.Inv { s with rdata := rdata, draws := draws, events := events } :=
  { h with
    epochDrawn := h.epochDrawn.trans_le hdraws
    rstHeld := fun hrst => by
      have hheld : State.resetRegs { s with rdata := rdata, draws := draws, events := events } =
          { s.resetRegs with rdata := rdata, draws := draws, events := events } := rfl
      rw [hheld, h.rstHeld hrst] }

theorem inv_events (h : s.Inv) (events : List Event) : State.Inv { s with events := events } :=
  inv_hostSide h le_rfl s.rdata events

theorem inv_hostRead (h : s.Inv) (addr : BusAddr) : (s.hostRead addr).Inv := by
  rw [hostRead_frame]
  exact inv_hostSide h (hostRead_draws_ge addr s) _ s.events

theorem inv_hardReset (h : s.Inv) : s.hardReset.Inv :=
  inv_resetRegs (s := { s with mem := [], epoch := s.draws, draws := s.draws + 1, rst := true }) h.bufRange
    (hardReset_stored s) (Nat.lt_succ_self _)

theorem inv_rstRelease (h : s.Inv) (events : List Event) : State.Inv { s with events := events, rst := false } :=
  { h with rstHeld := rstHeld_of_low rfl }

/-- A soft reset: the abort keeps the storage and takes its draws from the counter (R342, R343). -/
theorem inv_softReset (h : s.Inv) : s.softReset.Inv := by
  have hbuf : s.abort.bufBytes = s.bufBytes := by rw [abort_frame]
  have hepoch : s.abort.epoch = s.epoch := by rw [abort_frame]
  exact inv_resetRegs (hbuf ▸ h.bufRange) (abort_stored (inv_stored h))
    (hepoch ▸ h.epochDrawn.trans_le (abort_draws_ge s))

/-! ## Host writes -/

/-- CTRL is written busy or not. -/
theorem inv_writeCtrl (h : s.Inv) (hrst : s.rst = false) (d : Word) : (s.writeCtrl d).Inv := by
  rw [State.writeCtrl]
  split
  · exact inv_softReset h
  · exact { h with rstHeld := rstHeld_of_low hrst }

/-- STATUS writes clear DONE, which the invariant allows while busy. -/
theorem inv_clearStatus (h : s.Inv) (hrst : s.rst = false) (d : Word) : (s.clearStatus d).Inv := by
  refine { h with busyFlags := fun hbusy => ?_, rstHeld := rstHeld_of_low hrst }
  obtain ⟨hdone, herr⟩ := h.busyFlags hbusy
  exact ⟨by rw [clearStatus_done, hdone, Bool.false_and], herr⟩

/-- Acceptance clears DONE and ERR as it latches (R37). -/
theorem inv_accept (h : s.Inv) (hrst : s.rst = false) (w : Word) : (s.accept w).Inv :=
  { h with busyFlags := fun _ => ⟨rfl, rfl⟩, rstHeld := rstHeld_of_low hrst }

/-- A WARL write leaves a legal format legal (R48, R49). -/
theorem legalFormat_warl {new old : Byte} (h : legalFormat old = true) : legalFormat (warl new old) = true := by
  rw [warl]
  split
  · assumption
  · exact h

theorem inv_writeReg (h : s.Inv) (hrst : s.rst = false) (d : Word) (r : Reg) : (s.writeReg d r).Inv := by
  cases r with
  | ctrl => exact inv_writeCtrl h hrst d
  | status => exact inv_clearStatus h hrst d
  | cmd => exact inv_accept h hrst d
  | tfmt => exact { h with tfmtLegal := legalFormat_warl h.tfmtLegal, rstHeld := rstHeld_of_low hrst }
  | vfmt => exact { h with vfmtLegal := legalFormat_warl h.vfmtLegal, rstHeld := rstHeld_of_low hrst }
  | _ => exact { h with rstHeld := rstHeld_of_low hrst }

theorem inv_writeBuffer (h : s.Inv) (hrst : s.rst = false) (a : Nat) (d : Word) : (s.writeBuffer a d).Inv := by
  have hstored := writeBuffer_stored a d (inv_stored h)
  rw [writeBuffer_frame] at hstored ⊢
  obtain ⟨hwf, hcells⟩ := hstored
  exact { h with memWf := hwf, memStored := hcells, rstHeld := rstHeld_of_low hrst }

theorem inv_markWbusy (h : s.Inv) (hrst : s.rst = false) : s.markWbusy.Inv :=
  { h with rstHeld := rstHeld_of_low hrst }

theorem inv_hostWrite (h : s.Inv) (addr : BusAddr) (d : Word) : (s.hostWrite addr d).Inv := by
  cases hrst : s.rst with
  | true => rwa [hostWrite_rst hrst]
  | false =>
    cases hb : s.busy with
    | true =>
      rw [hostWrite_busy hrst hb, State.writeWhileBusy]
      split
      · exact inv_writeCtrl h hrst d
      · exact inv_clearStatus h hrst d
      · exact inv_markWbusy h hrst
      · split
        · exact inv_markWbusy h hrst
        · exact h
      · exact h
    | false =>
      rw [hostWrite_idle hrst hb, State.writeWhileIdle]
      split
      · exact inv_writeReg h hrst d _
      · exact inv_writeBuffer h hrst _ d
      · exact h

/-! ## Commands -/

/-- What the invariant says of the buffers and the cursor, for a state with the BUF_BYTES of s. -/
def BuffersIn (s u : State) : Prop := Stored u ∧ u.bufBytes = s.bufBytes ∧ u.cursor ≤ s.bufBytes

/-- The scan writes entries of the table and moves the cursor within the packet, which fits PBUF (R12, R266). -/
theorem buffersIn_parseCore {L : Nat} (hbuf : s.bufBytes ≤ Config.maxBufBytes) (hmin : 7 ≤ L) (hfit : L ≤ s.bufBytes)
    (h : BuffersIn s u) : BuffersIn s (u.parseCore L).1 := by
  refine parseCore_induction hmin (BuffersIn s) ?checksums ?header ?nrec ?cursor ?record u h
  case checksums | header => exact fun v hv => hv
  case nrec => exact fun v n hv => hv
  case cursor => exact fun v c hc ⟨hstored, hb, _⟩ => ⟨hstored, hb, hc.trans hfit⟩
  case record =>
    intro v k e hk ⟨hstored, hb, hcursor⟩
    refine ⟨recWrite_stored (hb ▸ hbuf) ?_ hstored, hb, hcursor⟩
    rw [State.maxRecords, Config.maxRecords, hb]
    omega

theorem buffersIn_ksApply {seed : Half} {a n : Nat} (hfit : a + n ≤ s.bufBytes) (h : BuffersIn s u) :
    BuffersIn s (u.ksApply seed a n) := by
  obtain ⟨hstored, hb, hcursor⟩ := h
  have hwrite : Stored (u.pbufWrite a (ksBytes seed (u.pbufRead a n)).1) := pbufWrite_stored (by simpa [hb]) hstored
  exact ⟨hwrite, hb, hcursor⟩

theorem buffersIn_buildCore (hpass : s.buildError = none) (h : BuffersIn s s) : BuffersIn s s.buildCore := by
  obtain ⟨hstored, -, hcursor⟩ := h
  have hfit := packetLength_le_of_buildError_eq_none hpass
  have hwrite : Stored (s.pbufWrite 0 s.packetBytes) :=
    pbufWrite_stored (by rwa [packetBytes_length, Nat.zero_add]) hstored
  rw [buildCore_frame]
  exact ⟨stored_congr rfl rfl hwrite, rfl, hcursor⟩

/-- The built packet's length stays below BUF_BYTES, also where sixteen bits do not hold it. -/
theorem buffersIn_encrypt_buildCore (hpass : s.buildError = none) (h : BuffersIn s s) :
    BuffersIn s s.buildCore.encrypt := by
  have hfit := packetLength_le_of_buildError_eq_none hpass
  have hlen := buildCore_len_le s
  have hheader : 7 ≤ s.packetLength := by
    rw [State.packetLength]
    omega
  exact buffersIn_ksApply (by omega) (buffersIn_buildCore hpass h)

/-- Every effect keeps the buffers within the implemented bytes and the cursor within PBUF. -/
theorem Effect.buffersIn (hbuf : s.bufBytes ≤ Config.maxBufBytes) (h : BuffersIn s s) (heffect : Effect s i u code) :
    BuffersIn s u := by
  cases heffect with
  | cipher hfits => exact buffersIn_ksApply hfits h
  | cipherRange | crc | crcRange | vdec | venc | vencBadfmt | lengthRefused | buildRefused => exact h
  | parse hlen =>
    obtain ⟨hmin, hfit⟩ := hlen
    exact buffersIn_parseCore hbuf (le_trans (by decide) hmin) hfit h
  | decode hlen =>
    obtain ⟨hmin, hfit⟩ := hlen
    rw [Config.minPacket] at hmin
    exact buffersIn_parseCore hbuf (by omega) hfit (buffersIn_ksApply (u := s.setPip s.packetPip) (by omega) h)
  | build hpass => exact buffersIn_buildCore hpass h
  | encode hpass => exact buffersIn_encrypt_buildCore hpass h

/-- A command keeps the invariant; its completion leaves no command running. -/
theorem inv_exec (h : s.Inv) (hrst : s.rst = false) (hexec : exec i s = .next t) : t.Inv := by
  obtain ⟨hbuf, -, -, -, htfmt, hvfmt, -, hepoch, hdraws, hrst', -⟩ := commandsWriteOnlyTheirRegisters i s t hexec
  obtain ⟨u, code, rfl, heffect⟩ := effect_of_exec hexec
  obtain ⟨⟨hwf, hcells⟩, -, hcursor⟩ := heffect.buffersIn h.bufRange.2 ⟨inv_stored h, rfl, h.cursorIn⟩
  exact {
    bufRange := hbuf ▸ h.bufRange
    memWf := hwf
    memStored := hcells
    tfmtLegal := htfmt ▸ h.tfmtLegal
    vfmtLegal := hvfmt ▸ h.vfmtLegal
    cursorIn := hbuf ▸ hcursor
    epochDrawn := hepoch ▸ hdraws ▸ h.epochDrawn
    busyFlags := fun hbusy => absurd hbusy Bool.false_ne_true
    rstHeld := rstHeld_of_low (hrst'.trans hrst) }

theorem inv_complete (h : s.Inv) (hrst : s.rst = false) (code : ErrCode) : (s.complete code).Inv :=
  { h with busyFlags := fun hbusy => absurd hbusy Bool.false_ne_true, rstHeld := rstHeld_of_low hrst }

/-! ## Steps -/

/-- Settles O59, by what a step can do. -/
theorem stepKeepsInvariant : Obligations.StepKeepsInvariant := by
  intro s t h hstep
  cases stepsTo_of_step hstep with
  | write => exact inv_hostWrite (inv_events h _) _ _
  | read => exact inv_hostRead (inv_events h _) _
  | rstAssert => exact inv_hardReset (inv_events h _)
  | rstRelease => exact inv_rstRelease h _
  | wait hturn =>
    obtain ⟨rest, rfl⟩ := hturn.eq_events
    exact inv_events h rest
  | run hturn hrst hexec =>
    obtain ⟨rest, rfl⟩ := hturn.eq_events
    exact inv_exec (inv_events h rest) hrst hexec
  | illegal hturn hrst =>
    obtain ⟨rest, rfl⟩ := hturn.eq_events
    exact inv_complete (inv_events h rest) hrst _

end Sys2Proof.Proofs
end

section
/-! The stream cipher (R151 to R159): CIPHER combines each byte with the keystream, so doing it twice restores the byte;
and the keystream round, a shift with a conditional XOR, loses nothing and has two fixed points. -/

namespace Sys2Proof.Proofs

open Sys2Proof.Machine Sys2Proof.Laws

variable {s : State} {off cnt : Nat}

/-! ## CIPHER -/

/-- Settles O6: the range test decides between ks_apply and RANGE. -/
theorem cipherXorsKeystream : Obligations.CipherXorsKeystream := by
  refine fun off cnt s => ⟨fun hfits => ⟨_, exec_cipher_of_fits hfits, ?frame, fun j hj => ?byte, fun x hx => ?outside⟩,
    exec_cipher_of_not_fits⟩
  case frame => rw [ksApply_frame]; rfl
  case byte => rw [complete_pbuf, pbuf_ksApply hj]; rfl
  case outside => rw [complete_byteAt, byteAt_ksApply_outside hx]

/-- The keystream comes and goes: the second XOR takes back the first. -/
theorem xor_twice (k b m : Byte) : k ^^^ (k ^^^ b ^^^ m) ^^^ m = b := by
  rw [BitVec.xor_assoc k b m, ← BitVec.xor_assoc k k, BitVec.xor_self, BitVec.zero_xor, BitVec.xor_assoc, BitVec.xor_self,
    BitVec.xor_zero]

/-- ks_apply twice with one seed restores every byte (R158). -/
theorem byteAt_ksApply_twice (s : State) (seed : Half) (a n x : Nat) :
    ((s.ksApply seed a n).ksApply seed a n).byteAt x = s.byteAt x := by
  by_cases hx : x < Config.pbufBase + a ∨ Config.pbufBase + a + n ≤ x
  · rw [byteAt_ksApply_outside hx, byteAt_ksApply_outside hx]
  · obtain ⟨j, hj, rfl⟩ : ∃ j < n, x = Config.pbufBase + (a + j) := ⟨x - (Config.pbufBase + a), by omega, by omega⟩
    have hbyte : ∀ u : State, (u.ksApply seed a n).byteAt (Config.pbufBase + (a + j)) =
        loByte (ksRound^[5 * (j + 1)] seed) ^^^ u.byteAt (Config.pbufBase + (a + j)) ^^^ Config.keystreamMask :=
      fun u => pbuf_ksApply hj
    rw [hbyte, hbyte, xor_twice]

/-- Settles O7: the second CIPHER has the first one's seed, since neither EID nor PIP has changed. -/
theorem cipherTwiceRestoresBytes : Obligations.CipherTwiceRestoresBytes := by
  intro off cnt s hfits
  refine ⟨_, _, exec_cipher_of_fits hfits, exec_cipher_of_fits (by simpa using hfits), ?lfsr, fun x => ?bytes⟩
  case lfsr =>
    have hlfsr : ∀ u : State, (u.ksApply (cipherSeed s.eid s.pip) off cnt).lfsr =
        ksRound^[5 * cnt] (cipherSeed s.eid s.pip) := fun u => by rw [ksApply_frame]
    simp only [complete_eid, complete_pip, ksApply_eid, ksApply_pip, complete_lfsr, hlfsr]
  case bytes =>
    simp only [complete_eid, complete_pip, ksApply_eid, ksApply_pip, ksApply_complete, complete_byteAt]
    exact byteAt_ksApply_twice s _ off cnt x

/-! ## The keystream round -/

/-- The shift frees bit 15, and the polynomial sets it. -/
theorem getLsbD_ksRound_top (x : Half) : (ksRound x).getLsbD 15 = x.getLsbD 0 := by
  unfold ksRound
  cases h : x.getLsbD 0 <;> simp [Config.keystreamPoly]

theorem ksRound_of_even {x : Half} (h : x.getLsbD 0 = false) : ksRound x = x >>> 1 := by
  rw [ksRound, h]
  rfl

theorem ksRound_of_odd {x : Half} (h : x.getLsbD 0 = true) : ksRound x = (x >>> 1) ^^^ Config.keystreamPoly := by
  rw [ksRound, h]
  rfl

theorem getLsbD_zero_eq {w : Nat} (x : BitVec w) : x.getLsbD 0 = decide (x.toNat % 2 = 1) := by
  rw [BitVec.getLsbD, Nat.testBit_zero]

/-- A value is its lowest bit and the rest. -/
theorem eq_of_shift_eq {x y : Half} (hlow : x.getLsbD 0 = y.getLsbD 0) (hrest : x >>> 1 = y >>> 1) : x = y := by
  have hdiv := congrArg BitVec.toNat hrest
  rw [getLsbD_zero_eq, getLsbD_zero_eq, decide_eq_decide] at hlow
  simp only [BitVec.toNat_ushiftRight, Nat.shiftRight_eq_div_pow] at hdiv
  exact BitVec.eq_of_toNat_eq (by omega)

/-- Bit 15 of the successor tells whether the polynomial was added, so the shifted value can be read off. -/
theorem ksRound_injective {x y : Half} (h : ksRound x = ksRound y) : x = y := by
  have hlow : x.getLsbD 0 = y.getLsbD 0 := by rw [← getLsbD_ksRound_top, h, getLsbD_ksRound_top]
  refine eq_of_shift_eq hlow ?_
  cases hx : x.getLsbD 0 with
  | false => rwa [ksRound_of_even hx, ksRound_of_even (hlow ▸ hx)] at h
  | true => exact BitVec.xor_left_inj _ |>.mp (ksRound_of_odd hx ▸ ksRound_of_odd (hlow ▸ hx) ▸ h)

/-- Only 0 is its own shift. -/
theorem eq_zero_of_shift_eq_self {x : Half} (h : x >>> 1 = x) : x = 0#16 := by
  have hdiv := congrArg BitVec.toNat h
  simp only [BitVec.toNat_ushiftRight, Nat.shiftRight_eq_div_pow] at hdiv
  exact BitVec.eq_of_toNat_eq (by rw [BitVec.toNat_ofNat]; omega)

/-- Two odd fixed points differ by a value that is its own shift, so there is only one. -/
theorem eq_of_odd_fixed {x y : Half} (hx : x.getLsbD 0 = true) (hy : y.getLsbD 0 = true) (hfx : ksRound x = x)
    (hfy : ksRound y = y) : x = y := by
  have hdiff : (x ^^^ y) >>> 1 = x ^^^ y := by
    rw [BitVec.ushiftRight_xor_distrib]
    conv_rhs => rw [← hfx, ← hfy, ksRound_of_odd hx, ksRound_of_odd hy]
    rw [BitVec.xor_assoc, BitVec.xor_comm (y >>> 1), ← BitVec.xor_assoc Config.keystreamPoly, BitVec.xor_self,
      BitVec.zero_xor]
  exact BitVec.xor_eq_zero_iff.mp (eq_zero_of_shift_eq_self hdiff)

/-- Settles O8: an even fixed point is its own shift, and 0xA6D9 is an odd one, hence the only one. -/
theorem keystreamRoundInjectiveWithTwoFixedPoints : Obligations.KeystreamRoundInjectiveWithTwoFixedPoints := by
  refine ⟨fun x y => ksRound_injective, fun x => ⟨fun hfix => ?_, ?_⟩⟩
  · cases hx : x.getLsbD 0 with
    | false => exact .inl (eq_zero_of_shift_eq_self (ksRound_of_even hx ▸ hfix))
    | true => exact .inr (eq_of_odd_fixed hx rfl hfix rfl)
  · rintro (rfl | rfl) <;> rfl

end Sys2Proof.Proofs
end

section
/-! The checksum as a linear map (R172 to R177): one shift step, and so one byte step, distributes over XOR, and loses no
bit, so sequences that differ in one byte keep different remainders to the end. -/

namespace Sys2Proof.Proofs

open Sys2Proof.Machine

/-! ## Linearity -/

theorem crcShift_eq (r : Half) : crcShift r = (r <<< 1) ^^^ (if r.getLsbD 15 then Config.crcPoly else 0#16) := by
  unfold crcShift
  split
  · rfl
  · rw [BitVec.xor_zero]

theorem crcShift_xor (r q : Half) : crcShift (r ^^^ q) = crcShift r ^^^ crcShift q := by
  have hpoly : ∀ a b : Bool, (if (a ^^ b) = true then Config.crcPoly else 0#16) =
      (if a then Config.crcPoly else 0#16) ^^^ (if b then Config.crcPoly else 0#16) := by decide
  simp only [crcShift_eq, BitVec.getLsbD_xor, BitVec.shiftLeft_xor_distrib, hpoly]
  ac_rfl

theorem crcByte_eq (r : Half) (b : Byte) : crcByte r b = crcShift^[8] (r ^^^ (b.setWidth 16 <<< 8)) := rfl

theorem crcShift_iterate_xor (n : Nat) (r q : Half) :
    crcShift^[n] (r ^^^ q) = crcShift^[n] r ^^^ crcShift^[n] q := by
  induction n with
  | zero => rfl
  | succ n ih => simp only [Function.iterate_succ_apply', ih, crcShift_xor]

theorem crcByte_xor (r q : Half) (b c : Byte) : crcByte (r ^^^ q) (b ^^^ c) = crcByte r b ^^^ crcByte q c := by
  simp only [crcByte_eq, ← crcShift_iterate_xor, BitVec.setWidth_xor, BitVec.shiftLeft_xor_distrib]
  congr 1
  ac_rfl

/-- From any two remainders, over two sequences of one length. -/
theorem foldl_crcByte_xor (xs ys : List Byte) (h : xs.length = ys.length) (r q : Half) :
    (List.zipWith (fun x y => x ^^^ y) xs ys).foldl crcByte (r ^^^ q) =
      xs.foldl crcByte r ^^^ ys.foldl crcByte q := by
  induction xs generalizing ys r q with
  | nil => obtain rfl := List.length_eq_zero_iff.mp h.symm; rfl
  | cons x xs ih =>
    cases ys with
    | nil => exact absurd h (Nat.succ_ne_zero _)
    | cons y ys =>
      simp only [List.zipWith_cons_cons, List.foldl_cons]
      rw [crcByte_xor]
      exact ih ys (Nat.succ.inj h) _ _

/-- Settles O11: both sides start from the remainder 0. -/
theorem crcLinearOverXor : Obligations.CrcLinearOverXor :=
  fun xs ys h => foldl_crcByte_xor xs ys h 0#16 0#16

/-! ## No bit is lost -/

/-- The shift frees bit 0, and the polynomial sets it. -/
theorem getLsbD_crcShift_low (r : Half) : (crcShift r).getLsbD 0 = r.getLsbD 15 := by
  rw [crcShift_eq]
  cases h : r.getLsbD 15 <;> simp [Config.crcPoly]

/-- A linear step is injective if it sends nothing but 0 to 0. -/
theorem crcShift_eq_zero {r : Half} (h : crcShift r = 0#16) : r = 0#16 := by
  have htop : r.getLsbD 15 = false := by rw [← getLsbD_crcShift_low, h]; rfl
  rw [crcShift_eq, htop, if_neg Bool.false_ne_true, BitVec.xor_zero] at h
  have hdouble := congrArg BitVec.toNat h
  rw [BitVec.getLsbD, Nat.testBit_eq_decide_div_mod_eq, decide_eq_false_iff_not] at htop
  simp only [BitVec.toNat_shiftLeft, Nat.shiftLeft_eq, BitVec.toNat_ofNat] at hdouble
  have := r.isLt
  exact BitVec.eq_of_toNat_eq (by rw [BitVec.toNat_ofNat]; omega)

theorem crcShift_injective : Function.Injective crcShift := fun r q h =>
  BitVec.xor_eq_zero_iff.mp (crcShift_eq_zero (by rw [crcShift_xor, h, BitVec.xor_self]))

theorem crcByte_injective (b : Byte) : Function.Injective fun r => crcByte r b := fun _ _ h =>
  BitVec.xor_left_inj _ |>.mp (crcShift_injective.iterate 8 h)

theorem foldl_crcByte_injective (bs : List Byte) : Function.Injective fun r => bs.foldl crcByte r := by
  induction bs with
  | nil => exact fun _ _ h => h
  | cons b bs ih => exact fun _ _ h => crcByte_injective b (ih h)

/-- A byte is added at the high byte's place, where none of its bits is lost. -/
theorem crcByte_right_injective (r : Half) : Function.Injective (crcByte r) := by
  intro b c h
  have hplaced := congrArg BitVec.toNat (BitVec.xor_right_inj _ |>.mp (crcShift_injective.iterate 8 h))
  have hb := b.isLt
  have hc := c.isLt
  simp only [BitVec.toNat_shiftLeft, BitVec.toNat_setWidth, Nat.shiftLeft_eq] at hplaced
  exact BitVec.eq_of_toNat_eq (by omega)

/-- Settles O12: the two remainders differ after the changed byte, and every later byte keeps them apart. -/
theorem crcDetectsSingleBitFlip : Obligations.CrcDetectsSingleBitFlip := by
  intro pre post b i hi h
  rw [crc16, crc16, List.foldl_append, List.foldl_append] at h
  have hbyte : b ^^^ (1#8 <<< i) = b := crcByte_right_injective _ (foldl_crcByte_injective post h)
  have hzero : (1#8 <<< i : Byte) = 0#8 := by
    rw [← BitVec.xor_right_inj b, hbyte, BitVec.xor_zero]
  interval_cases i <;> exact absurd hzero (by decide)

end Sys2Proof.Proofs
end

section
/-! Values there and back: `rneShift` as a distance (R21), a binary64 bit for bit (R201, R215), the fixed-point round trip
(R217) and the record that is relayed as it came (R239). -/

namespace Sys2Proof.Proofs

open Sys2Proof.Machine Sys2Proof.Laws

variable {td : Byte} {m n len : Nat} {x : Float64Bits}

/-! ## Rounding to an integer -/

/-- The remainder decides, and it is at most one half on the side it is rounded to (R21). -/
theorem rneShift_dist (n k : Nat) :
    2 * Nat.dist n (rneShift n k * 2 ^ k) ≤ 2 ^ k
      ∧ (2 * Nat.dist n (rneShift n k * 2 ^ k) = 2 ^ k → rneShift n k % 2 = 0) := by
  obtain ⟨q, r, hn, hr, h⟩ := rneShift_cases n k
  have hsucc : (q + 1) * 2 ^ k = q * 2 ^ k + 2 ^ k := Nat.succ_mul _ _
  obtain hs | hs : rneShift n k = q ∨ rneShift n k = q + 1 := by omega
  · rw [hs] at h ⊢
    unfold Nat.dist
    omega
  · rw [hs] at h ⊢
    rw [hsucc]
    unfold Nat.dist
    omega

/-- Settles O21: the distance as an absolute value. -/
theorem rneIsNearestTiesToEven : Obligations.RneIsNearestTiesToEven := by
  intro n k
  obtain ⟨hnear, htie⟩ := rneShift_dist n k
  rw [← cast_dist]
  exact ⟨by exact_mod_cast hnear, fun h => htie (by exact_mod_cast h)⟩

/-! ## Eight float bytes -/

theorem ofNat_leNat_eight (b0 b1 b2 b3 b4 b5 b6 b7 : Byte) :
    BitVec.ofNat 64 (leNat [b0, b1, b2, b3, b4, b5, b6, b7]) = b7 ++ b6 ++ b5 ++ b4 ++ b3 ++ b2 ++ b1 ++ b0 := by
  refine BitVec.eq_of_toNat_eq ?_
  have hpush : ∀ (a : Nat) (b : Byte), a <<< 8 ||| b.toNat = a * 256 + b.toNat := fun a b => by
    rw [← Nat.shiftLeft_add_eq_or_of_lt b.isLt, Nat.shiftLeft_eq]
  have hlt : leNat [b0, b1, b2, b3, b4, b5, b6, b7] < 2 ^ 64 := by simpa using leNat_lt [b0, b1, b2, b3, b4, b5, b6, b7]
  rw [BitVec.toNat_ofNat, Nat.mod_eq_of_lt hlt]
  simp only [leNat, BitVec.toNat_append, hpush]
  omega

theorem dec_float_eight (h : tdFormat td = .float) {v : List Byte} (hlen : v.length = 8) :
    dec td v = BitVec.ofNat 64 (leNat v) := by
  rw [dec, h]
  exact (if_neg (by rw [hlen]; decide)).trans (if_pos hlen)

/-- The little-endian bytes of a binary64 are the binary64. -/
theorem ofNat_leNat_toLE_eight (x : Float64Bits) : BitVec.ofNat 64 (leNat (toLE 8 x.toNat)) = x := by
  refine BitVec.eq_of_toNat_eq ?_
  rw [BitVec.toNat_ofNat, leNat_toLE, Nat.mod_mod, Nat.mod_eq_of_lt x.isLt]

/-- Settles O19: under 0xF8 both directions are the little-endian concatenation. -/
theorem binary64BytesAreBitForBit : Obligations.Binary64BytesAreBitForBit := by
  intro td h
  have htd : tdFormat td = .float := tdFormat_of_nibble h
  refine ⟨fun b0 b1 b2 b3 b4 b5 b6 b7 => ?decode, fun hlen x => ?roundTrip⟩
  case decode => rw [dec_float_eight htd rfl, ofNat_leNat_eight]
  case roundTrip =>
    have hdlen : dlen td = 8 := by
      have hlow := congrArg BitVec.toNat hlen
      rw [BitVec.extractLsb'_toNat, Nat.shiftRight_zero] at hlow
      rw [dlen_eq]
      exact hlow
    have henc : enc td x = (toLE 8 x.toNat, false) := by
      rw [enc, htd, hdlen]
      rfl
    rw [henc, dec_float_eight htd (toLE_length 8 _), ofNat_leNat_toLE_eight]
    exact ⟨rfl, rfl⟩

/-! ## The fixed-point round trip -/

/-- A rounded binary64 has at most 53 significant bits: a scaling that drops no bit keeps its significand, and one that
drops bits leaves at most 2^53. -/
theorem scaledInt_significand (x : Float64Bits) (m : Nat) : ∃ t i, t < 2 ^ 53 ∧ scaledInt x m = t * 2 ^ i := by
  have hsig : codeSig binary64 (x.toNat % 2 ^ 63) < 2 ^ 53 := codeSig_lt (by decide) _
  have hmag : magnitude64 x * 2 ^ m =
      codeSig binary64 (x.toNat % 2 ^ 63) * 2 ^ (codeShift binary64 (x.toNat % 2 ^ 63) + m) := by
    rw [magnitude64_eq, codeMagnitude, Nat.mul_assoc, Nat.pow_add]
  rw [scaledInt, hmag]
  generalize codeSig binary64 (x.toNat % 2 ^ 63) = c at hsig
  generalize codeShift binary64 (x.toNat % 2 ^ 63) + m = e
  generalize 1074 = quantum
  rcases le_or_gt quantum e with hexact | hdrops
  · exact ⟨c, e - quantum, hsig, by
      rw [two_pow_eq_mul (Nat.sub_add_cancel hexact).symm, ← Nat.mul_assoc, rneShift_mul_pow]⟩
  · have hle : rneShift (c * 2 ^ e) quantum ≤ 2 ^ 53 :=
      rneShift_le (Nat.mul_le_mul hsig.le (Nat.pow_le_pow_right (by decide) hdrops.le))
    rcases hle.lt_or_eq with hlt | heq
    · exact ⟨_, 0, hlt, (Nat.mul_one _).symm⟩
    · exact ⟨1, 53, by decide, by rw [heq, Nat.one_mul]⟩

/-- A scaled value of at most 15 bytes decodes to exactly itself (R193, R217). -/
theorem roundF64_scaledInt (hlt : scaledInt x m < 2 ^ (8 * dlen td)) (hm : m ≤ 24) :
    isFinite64 (roundF64 (scaledInt x m) m) = true
      ∧ magnitude64 (roundF64 (scaledInt x m) m) * 2 ^ m = scaledInt x m * 2 ^ 1074 := by
  have hlen := dlen_le td
  have hfin := isFinite64_roundF64 hlt (by omega) m
  obtain ⟨t, i, ht, hscaled⟩ := scaledInt_significand x m
  exact ⟨hfin, magnitude64_roundF64_exact hfin ht hscaled (by omega)⟩

theorem mant_le_of_unsignedCodes (h : hasCode unsignedCodes td m) : m ≤ 24 := by
  simp only [hasCode, unsignedCodes, List.mem_cons, Prod.mk.injEq, List.not_mem_nil, or_false] at h
  omega

theorem mant_le_of_signedCodes (h : hasCode signedCodes td m) : m ≤ 24 := by
  simp only [hasCode, signedCodes, List.mem_cons, Prod.mk.injEq, List.not_mem_nil, or_false] at h
  omega

theorem saturate_of_unsaturated {q most : Nat} (h : (saturate q most).2 = false) :
    (saturate q most).1 = q ∧ q ≤ most := by
  obtain ⟨hover, hwithin⟩ := saturate_spec q most
  rcases le_or_gt q most with hle | hlt
  · exact ⟨(hwithin hle).1, hle⟩
  · exact absurd (h.symm.trans (hover hlt).2) (by decide)

/-- Without saturation the number encoded is the scaled one, and it is within the greatest. -/
theorem encNatural_of_unsaturated {most : Nat} (hfin : isFinite64 x = true) (h : (encNatural m most x).2 = false) :
    (encNatural m most x).1 = scaledInt x m ∧ scaledInt x m ≤ most := by
  obtain ⟨-, hneg, -, hval⟩ := encodesNatural_encNatural m most x
  have hsign : signbit x = false ∨ magnitude64 x = 0 := by
    by_contra hc
    rw [not_or, Bool.not_eq_false] at hc
    exact absurd (h.symm.trans (hneg hc.1 (.inr ⟨hfin, hc.2⟩)).2) (by decide)
  obtain ⟨hover, hwithin⟩ := hval hfin hsign
  rcases le_or_gt (scaledInt x m) most with hle | hlt
  · exact ⟨(hwithin hle).1, hle⟩
  · exact absurd (h.symm.trans (hover hlt).2) (by decide)

/-- The unsigned half of the round trip: the bytes are the scaled number, big-endian. -/
theorem dec_enc_unsigned (hcode : hasCode unsignedCodes td m) (hfin : isFinite64 x = true)
    (hsat : (enc td x).2 = false) :
    dec td (enc td x).1 = roundF64 (scaledInt x m) m ∧ scaledInt x m < 2 ^ (8 * dlen td) := by
  rw [enc_unsigned hcode] at hsat ⊢
  obtain ⟨hnum, hle⟩ := encNatural_of_unsaturated hfin hsat
  have hlt : scaledInt x m < 2 ^ (8 * dlen td) := by
    have := Nat.two_pow_pos (8 * dlen td)
    omega
  rw [dec_unsigned hcode, hnum, beNat_toBE, Nat.mod_eq_of_lt hlt]
  exact ⟨rfl, hlt⟩

theorem maxMagnitude_lt (len : Nat) : maxMagnitude len < 2 ^ (8 * len) := by
  have hpos := Nat.two_pow_pos (8 * len - 1)
  have hpow : 2 ^ (8 * len - 1) ≤ 2 ^ (8 * len) := Nat.pow_le_pow_right (by decide) (by omega)
  rw [maxMagnitude]
  split <;> omega

/-- The signed half: the sign and the magnitude are put into the bytes and read back apart. -/
theorem dec_enc_signed (hcode : hasCode signedCodes td m) (hfin : isFinite64 x = true) (hsat : (enc td x).2 = false) :
    dec td (enc td x).1 =
        (if signbit x && dlen td != 0 then negate64 (roundF64 (scaledInt x m) m) else roundF64 (scaledInt x m) m)
      ∧ scaledInt x m < 2 ^ (8 * dlen td) := by
  rw [enc_signed hcode, encSigned_finite hfin] at hsat ⊢
  dsimp only at hsat ⊢
  obtain ⟨hnum, hle⟩ := saturate_of_unsaturated hsat
  rw [hnum, dec_signed hcode, decSigned, signOf_putSign _ hle, decUnsigned, beNat_clearSign_putSign _ hle]
  exact ⟨rfl, hle.trans_lt (maxMagnitude_lt _)⟩

/-- No code stands in both lists (R125). -/
theorem not_unsignedCodes_of_signedCodes {k : Nat} (h : hasCode signedCodes td m) : ¬ hasCode unsignedCodes td k := by
  intro hu
  exact Format.noConfusion ((tdFormat_of_signedCodes h).symm.trans (tdFormat_of_unsignedCodes hu))

/-- Settles O25: what was encoded is a number binary64 holds exactly, under the sign that was put down. -/
theorem fixedPointRoundTrip : Obligations.FixedPointRoundTrip := by
  intro td m x hcode hfin hsat
  rcases hcode with hu | hs
  · obtain ⟨hdec, hlt⟩ := dec_enc_unsigned hu hfin hsat
    obtain ⟨hfinite, hexact⟩ := roundF64_scaledInt hlt (mant_le_of_unsignedCodes hu)
    rw [hdec]
    exact ⟨hfinite, hexact, fun hs => absurd hu (not_unsignedCodes_of_signedCodes hs), fun _ => signbit_roundF64 _ _⟩
  · obtain ⟨hdec, hlt⟩ := dec_enc_signed hs hfin hsat
    obtain ⟨hfinite, hexact⟩ := roundF64_scaledInt hlt (mant_le_of_signedCodes hs)
    have hsign : signbit (dec td (enc td x).1) = (signbit x && dlen td != 0) := by
      rw [hdec]
      split
      · rw [signbit_negate64, signbit_roundF64, Bool.not_false]
        exact Eq.symm ‹_›
      · rw [signbit_roundF64]
        exact (Bool.eq_false_of_not_eq_true ‹_›).symm
    refine ⟨?_, ?_, fun _ hlen => ?_, fun hnone => ?_⟩
    · rw [hdec]
      split
      · rw [isFinite64_negate64, hfinite]
      · exact hfinite
    · rw [hdec]
      split
      · rw [magnitude64_negate64, hexact]
      · exact hexact
    · rw [hsign, dlen_eq, bne_iff_ne.mpr hlen, Bool.and_true]
    · have hlen : td.toNat % 16 = 0 := hnone.resolve_left (not_unsignedCodes_of_signedCodes hs)
      rw [hsign, dlen_eq, hlen]
      exact Bool.and_false _

/-! ## A record of an unknown type -/

theorem kindOfPid_unknown {p : Byte} (hjoin : p ≠ Config.idJoin) (hidentify : p ≠ Config.idIdentify)
    (htemp : p ≠ Config.idTemperature) (hvolt : p ≠ Config.idVoltage) : kindOfPid p = .unhandled := by
  rw [kindOfPid, if_neg hjoin, if_neg hidentify, if_neg htemp, if_neg hvolt]

/-- RAW holds the value of a record whole: it is at most 15 bytes. -/
theorem take_raw {v : List Byte} (h : v.length = dlen td) :
    ((v ++ List.replicate 16 0x00#8).take 16).take (dlen td) = v := by
  have hlen := dlen_le td
  rw [List.take_take, Nat.min_eq_left (by omega), ← h, List.take_left]

/-- Settles O26: the record decodes to an Unhandled entry, which is emitted as stored. -/
theorem unknownRecordRelaysUnchanged : Obligations.UnknownRecordRelaysUnchanged := by
  intro p t tfmt vfmt v hzero hjoin hidentify htemp hvolt hlen
  have hkind : kindOfPid p = .unhandled := kindOfPid_unknown hjoin hidentify htemp hvolt
  have hof : kindOf (WireRecord.entry ⟨p, t, v⟩).kind = some .unhandled := by
    rw [WireRecord.entry, hkind, kindOf_bits]
  refine ⟨WireRecord.entry ⟨p, t, v⟩, ?decodes, ?valid, ?encoded⟩
  case decodes =>
    rw [decodeRecord_eq, if_neg]
    exact fun h => h.1.elim htemp hvolt
  case valid =>
    rw [Entry.valid, hof]
    exact bne_iff_ne.mpr hzero
  case encoded =>
    rw [Entry.encoded, hof]
    exact congrArg (fun raw => (p :: t :: raw, false)) (take_raw (hlen.trans (dlen_eq t).symm))

end Sys2Proof.Proofs
end

section
/-! Host writes of the control registers (R35 to R37), of the format registers (R48, R49) and of anything while a command
runs (R350), and the soft reset (R342). -/

namespace Sys2Proof.Proofs

open Sys2Proof.Machine Sys2Proof.Laws

variable {s : State} {addr : BusAddr} {a : Nat} {r : Reg}

/-! ## Registers of an idle block -/

/-- Settles O45: each of the three offsets is its register's. -/
theorem controlRegisterWrites : Obligations.ControlRegisterWrites := by
  intro s addr d hrst hlatch a
  exact ⟨fun ha => hostWrite_cmd hrst hlatch ha d, fun ha => hostWrite_status hrst ha d,
    fun ha hsrst => (hostWrite_ctrl hrst ha d).trans (writeCtrl_of_not_srst hsrst)⟩

theorem hostWrite_idle_reg (hrst : s.rst = false) (hlatch : s.latch = none) (hloc : locate (wordOffset addr) = .reg r)
    (d : Word) : s.hostWrite addr d = s.writeReg d r := by
  rw [hostWrite_idle hrst (busy_of_latch_none hlatch), State.writeWhileIdle, hloc]

theorem hostRead_idle_reg (hrst : s.rst = false) (hlatch : s.latch = none) (hloc : locate (wordOffset addr) = .reg r) :
    s.hostRead addr = { s with rdata := s.readReg r } := by
  rw [hostRead_idle hrst (busy_of_latch_none hlatch), State.readWord, hloc]

/-! ## The format registers -/

/-- ENC_OK and the length condition, in the typeDesc's nibbles (R210, R48, R49). -/
theorem legalFormat_iff (td : Byte) :
    legalFormat td = true ↔
      1 ≤ td.toNat % 16
        ∧ (td.toNat / 16 ≤ 0xC ∨ (td.toNat / 16 = 0xF ∧ (td.toNat % 16 = 4 ∨ td.toNat % 16 = 8))) := by
  have hcode : td.toNat / 16 < 16 := by
    have := td.isLt
    omega
  rw [legalFormat, encodable, tdFormat_eq, dlen_eq, Bool.and_eq_true, decide_eq_true_iff, and_comm]
  generalize td.toNat % 16 = len
  generalize td.toNat / 16 = code at hcode
  refine and_congr_right fun _ => ?_
  interval_cases code <;> simp [formatOf]

/-- Settles O46: the WARL write tests exactly the condition the statement spells out. -/
theorem formatRegistersTakeLegalValuesOnly : Obligations.FormatRegistersTakeLegalValuesOnly := by
  refine ⟨⟨rfl, rfl⟩, ?_⟩
  intro s addr d hrst hlatch a t legal
  have hlegal : legalFormat t = true ↔ legal := legalFormat_iff t
  have htfmt : a = 0x3C → s.hostWrite addr d = { s with tfmt := warl t s.tfmt } := fun ha =>
    hostWrite_idle_reg (r := .tfmt) hrst hlatch (congrArg locate ha) d
  have hvfmt : a = 0x40 → s.hostWrite addr d = { s with vfmt := warl t s.vfmt } := fun ha =>
    hostWrite_idle_reg (r := .vfmt) hrst hlatch (congrArg locate ha) d
  refine ⟨fun h => ⟨fun ha => ?_, fun ha => ?_⟩, fun h ha => ?_⟩
  · rw [htfmt ha, warl, if_pos (hlegal.mpr h)]
  · rw [hvfmt ha, warl, if_pos (hlegal.mpr h)]
  · rcases ha with ha | ha
    · rw [htfmt ha, warl, if_neg (mt hlegal.mp h)]
    · rw [hvfmt ha, warl, if_neg (mt hlegal.mp h)]

/-! ## Writes while a command runs -/

/-- Every word below 0x60 is a register's, CTRL's and STATUS's at their own offsets alone (R32). -/
theorem regAt_of_lt (h : a < 0x60) :
    ∃ r, regAt a = some r ∧ (r = .ctrl → a / 4 = 2) ∧ (r = .status → a / 4 = 3) := by
  have hword : a / 4 < 24 := by omega
  unfold regAt
  generalize a / 4 = k at hword
  interval_cases k <;> exact ⟨_, rfl, by decide, by decide⟩

/-- A busy write to a register other than CTRL and STATUS is ignored and flagged, read-only ones too (R350). -/
theorem writeWhileBusy_reg (hloc : locate a = .reg r) (hctrl : r ≠ .ctrl) (hstatus : r ≠ .status) (d : Word) :
    s.writeWhileBusy a d = { s with wbusy := true } := by
  rw [State.writeWhileBusy, hloc]
  cases r with
  | ctrl => exact absurd rfl hctrl
  | status => exact absurd rfl hstatus
  | _ => rfl

theorem writeWhileBusy_buffer (hloc : locate a = .buffer) (d : Word) :
    s.writeWhileBusy a d = if s.implemented a then { s with wbusy := true } else s := by
  rw [State.writeWhileBusy, hloc]
  rfl

theorem implemented_iff (s : State) (a : Nat) :
    s.implemented a = true ↔
      (Config.pbufBase ≤ a ∧ a < Config.pbufBase + s.bufBytes)
        ∨ (Config.recBase ≤ a ∧ a < Config.recBase + 32 * s.maxRecords) := by
  simp [State.implemented]

/-- Settles O51, by what the word offset is. -/
theorem hostWritesWhileBusy : Obligations.HostWritesWhileBusy := by
  intro s addr d hrst hbusy hbuf a flagged recEnd
  have halign : a % 4 = 0 := Nat.mul_mod_left _ _
  have hbase : Config.pbufBase = 0x1000 := rfl
  have hrec : Config.recBase = 0x10000 := rfl
  have hend : Config.recBase + 32 * s.maxRecords = recEnd := rfl
  have hwrite : s.hostWrite addr d = s.writeWhileBusy a d := hostWrite_busy hrst hbusy addr d
  have hbuffer : locate a = .buffer → s.implemented a = true → s.hostWrite addr d = flagged := fun hloc himpl => by
    rw [hwrite, writeWhileBusy_buffer hloc, if_pos himpl]
  refine ⟨fun ha => hostWrite_ctrl hrst ha d, fun ha => hostWrite_status hrst ha d, fun ⟨hlt, hctrl, hstatus⟩ => ?register,
    fun ⟨hlo, hhi⟩ => hostWrite_unimplemented hrst (locate_unimplemented (.inl ⟨hlo, hhi⟩)) d,
    fun ⟨hlo, hhi⟩ => hbuffer (locate_buffer (.inl ⟨hlo, by omega⟩)) ((implemented_iff s a).mpr (.inl ⟨hlo, hhi⟩)),
    fun ⟨hlo, hhi⟩ => ?abovePbuf,
    fun ⟨hlo, hhi⟩ => hbuffer (locate_buffer (.inr hlo)) ((implemented_iff s a).mpr (.inr ⟨hlo, hhi⟩)),
    fun hlo => hostWrite_above_recTab hrst hbuf hlo d⟩
  case register =>
    obtain ⟨r, hr, hisCtrl, hisStatus⟩ := regAt_of_lt hlt
    rw [hwrite]
    refine writeWhileBusy_reg (locate_reg (hlt.trans (by decide)) hr) (fun h => ?_) (fun h => ?_) d
    · have := hisCtrl h
      omega
    · have := hisStatus h
      omega
  case abovePbuf =>
    by_cases hwindow : a < 0x2000
    · have hnone : ¬ s.implemented a = true := by
        rw [implemented_iff]
        omega
      rw [hwrite, writeWhileBusy_buffer (locate_buffer (.inl ⟨by omega, hwindow⟩)), if_neg hnone]
    · exact hostWrite_unimplemented hrst (locate_unimplemented (.inr ⟨not_lt.mp hwindow, hhi⟩)) d

/-! ## The soft reset -/

theorem running_eq_some {i : Instr} (h : s.running = some i) : ∃ w, s.latch = some w ∧ decode w = .ok i := by
  unfold State.running at h
  cases hlatch : s.latch with
  | none => rw [hlatch] at h; cases h
  | some w =>
    rw [hlatch] at h
    cases hdecode : decode w with
    | ok j =>
      simp only [hdecode, Option.some.injEq] at h
      exact ⟨w, rfl, h ▸ hdecode⟩
    | error e => simp [hdecode] at h

/-- Settles O56: the registers are those just reset, and the buffers are as the abort leaves them. -/
theorem softResetRestoresRegisters : Obligations.SoftResetRestoresRegisters := by
  intro s addr d hrst ha hsrst t
  have ht : t = s.abort.resetRegs := (hostWrite_ctrl hrst ha d).trans (writeCtrl_of_srst hsrst)
  have hbuf : s.abort.bufBytes = s.bufBytes := by rw [abort_frame]
  have hbytes : ∀ x, (∀ i, s.running = some i → ∀ r ∈ s.writeSet i, x < r.1 ∨ r.1 + r.2 ≤ x) →
      t.byteAt x = s.byteAt x := fun x hx => by rw [ht, resetRegs_byteAt, byteAt_abort_outside hx]
  refine ⟨fun r => ?_, by rw [ht]; rfl, by rw [ht]; rfl, by rw [ht]; rfl, fun hlatch x => hbytes x fun i hi => ?_,
    fun x hx => hbytes x fun i hi => ?_⟩
  · rw [ht, readReg_resetRegs, hbuf]
  · obtain ⟨w, hw, -⟩ := running_eq_some hi
    exact absurd (hlatch.symm.trans hw) (Option.some_ne_none w).symm
  · obtain ⟨w, hw, hdecode⟩ := running_eq_some hi
    exact hx w i hw hdecode

end Sys2Proof.Proofs
end

section
/-! The register window (R31 to R52): a plain register reads back what was written to it, and at each offset of R32 a
read returns the register's fields and a write stores one field or nothing. -/

namespace Sys2Proof.Proofs

open Sys2Proof.Machine Sys2Proof.Laws

variable {s : State} {addr : BusAddr} {d : Word} {r : Reg} {n : Nat}

/-! ## Fields in a word -/

/-- A field as bits n-1 to 0 of a word, written and read back: the reserved bits above are lost. -/
theorem setWidth_extractLsb'_low (d : Word) (n : Nat) :
    (d.extractLsb' 0 n).setWidth 32 = d &&& (BitVec.allOnes n).setWidth 32 := by
  refine BitVec.eq_of_getLsbD_eq fun i hi => ?_
  simp [hi, Bool.and_comm]

/-- A field reads with zeros above it (R31). -/
theorem setWidth_add (k : Nat) (x : BitVec n) : x.setWidth (k + n) = 0#k ++ x := by
  refine BitVec.eq_of_getLsbD_eq fun i hi => ?_
  simp only [BitVec.getLsbD_setWidth, BitVec.getLsbD_append, BitVec.getLsbD_zero, hi, decide_true, Bool.true_and]
  split
  · rfl
  · exact BitVec.getLsbD_of_ge x i (by omega)

/-! ## The words of VBUF and FVAL -/

theorem getLsbD_lowWord (j : Nat) : (0xFFFFFFFF#128).getLsbD j = decide (j < 32) := by
  rw [show 0xFFFFFFFF#128 = (BitVec.allOnes 32).setWidth 128 from rfl, BitVec.getLsbD_setWidth, BitVec.getLsbD_allOnes]
  by_cases h : j < 32 <;> simp [h]
  omega

/-- A write of VBUFn replaces bits 32n to 32n+31 (R52). -/
theorem getLsbD_writeVbuf {j : Nat} (hj : j < 128) (n : Nat) (d : Word) (s : State) :
    (s.writeVbuf n d).vbuf.getLsbD j =
      if 32 * n ≤ j ∧ j < 32 * n + 32 then d.getLsbD (j - 32 * n) else s.vbuf.getLsbD j := by
  simp only [State.writeVbuf, BitVec.getLsbD_or, BitVec.getLsbD_and, BitVec.getLsbD_not, BitVec.getLsbD_shiftLeft,
    BitVec.getLsbD_setWidth, getLsbD_lowWord, hj, decide_true, Bool.true_and]
  by_cases hlo : 32 * n ≤ j
  · by_cases hhi : j < 32 * n + 32
    · have hin : j - 32 * n < 32 := by omega
      have hin' : j - 32 * n < 128 := by omega
      simp [hlo, hhi, hin, hin', not_lt.mpr hlo]
    · have hout : ¬ j - 32 * n < 32 := by omega
      simp [hlo, hhi, hout, BitVec.getLsbD_of_ge d (j - 32 * n) (by omega)]
  · simp [hlo, not_le.mp hlo]

/-- Each word of VBUF is the one written, or as it was. -/
theorem extractLsb'_writeVbuf {m : Nat} (hm : m < 4) (n : Nat) (d : Word) (s : State) :
    (s.writeVbuf n d).vbuf.extractLsb' (32 * m) 32 = if m = n then d else s.vbuf.extractLsb' (32 * m) 32 := by
  refine BitVec.eq_of_getLsbD_eq fun i hi => ?_
  rw [BitVec.getLsbD_extractLsb', getLsbD_writeVbuf (by omega)]
  by_cases hmn : m = n
  · subst hmn
    simp [hi]
  · rw [if_neg (by omega), if_neg hmn, BitVec.getLsbD_extractLsb']

/-- VBUF after a write, by its bits. -/
theorem writeVbuf_eq_of_bits {v : BitVec 128}
    (h : ∀ j < 128, v.getLsbD j = if 32 * n ≤ j ∧ j < 32 * n + 32 then d.getLsbD (j - 32 * n) else s.vbuf.getLsbD j) :
    s.writeVbuf n d = { s with vbuf := v } := by
  have hv : (s.writeVbuf n d).vbuf = v := BitVec.eq_of_getLsbD_eq fun j hj => by rw [getLsbD_writeVbuf hj, h j hj]
  rw [← hv]
  rfl

theorem writeVbuf_zero (d : Word) (s : State) :
    s.writeVbuf 0 d = { s with vbuf := s.vbuf.extractLsb' 32 96 ++ d } := by
  refine writeVbuf_eq_of_bits fun j hj => ?_
  rw [BitVec.getLsbD_append, BitVec.getLsbD_extractLsb']
  by_cases hin : j < 32
  · simp [hin]
  · simp [hin, show j - 32 < 96 by omega, show 32 + (j - 32) = j by omega]

theorem writeVbuf_three (d : Word) (s : State) :
    s.writeVbuf 3 d = { s with vbuf := d ++ s.vbuf.extractLsb' 0 96 } := by
  refine writeVbuf_eq_of_bits fun j hj => ?_
  rw [BitVec.getLsbD_append, BitVec.getLsbD_extractLsb']
  by_cases hin : j < 96
  · simp [hin, not_le.mpr hin]
  · simp [hin, not_lt.mp hin, show j < 128 from hj]

/-- A word between the bits above and below it. -/
theorem getLsbD_middleWord (v : BitVec 128) (d : Word) {lo hi j : Nat} (hj : j < hi + 32 + lo) :
    (v.extractLsb' (lo + 32) hi ++ d ++ v.extractLsb' 0 lo).getLsbD j =
      if lo ≤ j ∧ j < lo + 32 then d.getLsbD (j - lo) else v.getLsbD j := by
  rw [BitVec.getLsbD_append, BitVec.getLsbD_append, BitVec.getLsbD_extractLsb', BitVec.getLsbD_extractLsb']
  by_cases hbelow : j < lo
  · simp [hbelow, not_le.mpr hbelow]
  by_cases hin : j < lo + 32
  · simp [hbelow, not_lt.mp hbelow, hin, show j - lo < 32 by omega]
  · simp [hbelow, hin, show ¬ j - lo < 32 by omega, show j - lo - 32 < hi by omega,
      show lo + 32 + (j - lo - 32) = j by omega]

theorem writeVbuf_one (d : Word) (s : State) :
    s.writeVbuf 1 d = { s with vbuf := s.vbuf.extractLsb' 64 64 ++ d ++ s.vbuf.extractLsb' 0 32 } :=
  writeVbuf_eq_of_bits fun _ hj => getLsbD_middleWord s.vbuf d (lo := 32) (hi := 64) hj

theorem writeVbuf_two (d : Word) (s : State) :
    s.writeVbuf 2 d = { s with vbuf := s.vbuf.extractLsb' 96 32 ++ d ++ s.vbuf.extractLsb' 0 64 } :=
  writeVbuf_eq_of_bits fun _ hj => getLsbD_middleWord s.vbuf d (lo := 64) (hi := 32) hj

/-! ## A plain register reads back its write -/

theorem extractLsb'_fval_words (hi lo : Word) :
    (hi ++ lo : Float64Bits).extractLsb' 0 32 = lo ∧ (hi ++ lo : Float64Bits).extractLsb' 32 32 = hi :=
  ⟨BitVec.extractLsb'_append_eq_right, BitVec.extractLsb'_append_eq_left⟩

/-- The registers a host write of which is a store, less the reserved bits. -/
def plainRegs : List Reg :=
  [.eid, .pip, .len, .manu, .prod, .sensor, .nrec, .vdesc, .fvalLo, .fvalHi, .vbuf0, .vbuf1, .vbuf2, .vbuf3]

theorem readReg_writeVbuf_same {m : Nat} (hm : m < 4) (d : Word) (s : State) :
    (s.writeVbuf m d).vbuf.extractLsb' (32 * m) 32 = d &&& BitVec.allOnes 32 := by
  rw [extractLsb'_writeVbuf hm, if_pos rfl, BitVec.and_allOnes]

theorem readReg_writeReg_same (hr : r ∈ plainRegs) (d : Word) (s : State) :
    (s.writeReg d r).readReg r = d &&& regBits r := by
  cases r with
  | eid | pip | len | manu | prod | sensor | nrec | vdesc => exact setWidth_extractLsb'_low d _
  | fvalLo => exact (extractLsb'_fval_words _ d).1.trans BitVec.and_allOnes.symm
  | fvalHi => exact (extractLsb'_fval_words d _).2.trans BitVec.and_allOnes.symm
  | vbuf0 => exact readReg_writeVbuf_same (m := 0) (by decide) d s
  | vbuf1 => exact readReg_writeVbuf_same (m := 1) (by decide) d s
  | vbuf2 => exact readReg_writeVbuf_same (m := 2) (by decide) d s
  | vbuf3 => exact readReg_writeVbuf_same (m := 3) (by decide) d s
  | id | cfg | ctrl | status | cmd | lfsr | crc | crcrx | tfmt | vfmt => exact absurd hr (by decide)

/-- VBUFn. -/
def vbufReg : Nat → Reg
  | 0 => .vbuf0
  | 1 => .vbuf1
  | 2 => .vbuf2
  | _ => .vbuf3

/-- A write of one VBUF word leaves what every other register reads. -/
theorem readReg_writeVbuf_other {q : Reg} (hq : q ≠ vbufReg n) (d : Word) (s : State) :
    (s.writeVbuf n d).readReg q = s.readReg q := by
  have hword : ∀ m < 4, q = vbufReg m →
      (s.writeVbuf n d).vbuf.extractLsb' (32 * m) 32 = s.vbuf.extractLsb' (32 * m) 32 := fun m hm hqm => by
    rw [extractLsb'_writeVbuf hm, if_neg]
    rintro rfl
    exact hq hqm
  cases q with
  | vbuf0 => exact hword 0 (by decide) rfl
  | vbuf1 => exact hword 1 (by decide) rfl
  | vbuf2 => exact hword 2 (by decide) rfl
  | vbuf3 => exact hword 3 (by decide) rfl
  | _ => rfl

/-- No register shares its field with another (R60): another one reads a field the
write does not store, or the other word of FVAL. -/
theorem readReg_writeReg_other (hr : r ∈ plainRegs) {q : Reg} (hq : q ≠ r) (d : Word) (s : State) :
    (s.writeReg d r).readReg q = s.readReg q := by
  cases r with
  | eid => cases q with | eid => exact absurd rfl hq | _ => rfl
  | pip => cases q with | pip => exact absurd rfl hq | _ => rfl
  | len => cases q with | len => exact absurd rfl hq | _ => rfl
  | manu => cases q with | manu => exact absurd rfl hq | _ => rfl
  | prod => cases q with | prod => exact absurd rfl hq | _ => rfl
  | sensor => cases q with | sensor => exact absurd rfl hq | _ => rfl
  | nrec => cases q with | nrec => exact absurd rfl hq | _ => rfl
  | vdesc => cases q with | vdesc => exact absurd rfl hq | _ => rfl
  | fvalLo =>
    cases q with
    | fvalLo => exact absurd rfl hq
    | fvalHi => exact (extractLsb'_fval_words _ d).2
    | _ => rfl
  | fvalHi =>
    cases q with
    | fvalHi => exact absurd rfl hq
    | fvalLo => exact (extractLsb'_fval_words d _).1
    | _ => rfl
  | vbuf0 => exact readReg_writeVbuf_other (n := 0) hq d s
  | vbuf1 => exact readReg_writeVbuf_other (n := 1) hq d s
  | vbuf2 => exact readReg_writeVbuf_other (n := 2) hq d s
  | vbuf3 => exact readReg_writeVbuf_other (n := 3) hq d s
  | id | cfg | ctrl | status | cmd | lfsr | crc | crcrx | tfmt | vfmt => exact absurd hr (by decide)

/-! ## The window of the idle host -/

/-- A read at a register's offset, where the register reads `w`. -/
theorem hostRead_at (hrst : s.rst = false) (hlatch : s.latch = none) {p : Nat × Word}
    (h : ∃ r, locate p.1 = .reg r ∧ s.readReg r = p.2) (ha : addr.toNat / 4 * 4 = p.1) :
    s.hostRead addr = { s with rdata := p.2 } := by
  obtain ⟨r, hloc, hread⟩ := h
  rw [← hread]
  exact hostRead_idle_reg hrst hlatch ((congrArg locate ha).trans hloc)

/-- A write at a register's offset, where the write makes the state `p.2`. -/
theorem hostWrite_at (hrst : s.rst = false) (hlatch : s.latch = none) {p : Nat × State}
    (h : ∃ r, locate p.1 = .reg r ∧ s.writeReg d r = p.2) (ha : addr.toNat / 4 * 4 = p.1) :
    s.hostWrite addr d = p.2 := by
  obtain ⟨r, hloc, hwrite⟩ := h
  rw [← hwrite]
  exact hostWrite_idle_reg hrst hlatch ((congrArg locate ha).trans hloc) d

/-- STATUS of an idle block: BUSY is 0 (R36). -/
theorem statusWord_idle (hlatch : s.latch = none) :
    s.statusWord =
      0#22 ++ BitVec.ofBool s.wbusy ++ BitVec.ofBool s.sat ++ s.err.code ++ 0#2 ++ BitVec.ofBool s.done ++ 0#1 := by
  rw [State.statusWord, busy_of_latch_none hlatch]
  rfl

/-- Settles O47: the two halves register by register, in the order of R32. -/
theorem registerReadsBackItsWrite : Obligations.RegisterReadsBackItsWrite := by
  refine ⟨fun s d r hr => ⟨readReg_writeReg_same hr d s, fun q hq => readReg_writeReg_other hr hq d s⟩, ?_⟩
  intro s addr d hrst hlatch reads writes
  have hreads : ∀ p ∈ reads, ∃ r, locate p.1 = .reg r ∧ s.readReg r = p.2 := by
    simp only [reads, List.forall_mem_cons]
    exact ⟨⟨.id, rfl, rfl⟩, ⟨.cfg, rfl, rfl⟩, ⟨.ctrl, rfl, rfl⟩, ⟨.status, rfl, statusWord_idle hlatch⟩, ⟨.cmd, rfl, rfl⟩,
      ⟨.eid, rfl, setWidth_add 24 _⟩, ⟨.pip, rfl, setWidth_add 16 _⟩, ⟨.len, rfl, setWidth_add 16 _⟩,
      ⟨.lfsr, rfl, setWidth_add 16 _⟩, ⟨.crc, rfl, setWidth_add 16 _⟩,
      ⟨.crcrx, rfl, setWidth_add 16 _⟩, ⟨.manu, rfl, setWidth_add 24 _⟩,
      ⟨.prod, rfl, setWidth_add 24 _⟩, ⟨.sensor, rfl, setWidth_add 8 _⟩,
      ⟨.nrec, rfl, setWidth_add 16 _⟩, ⟨.tfmt, rfl, setWidth_add 24 _⟩,
      ⟨.vfmt, rfl, setWidth_add 24 _⟩, ⟨.vdesc, rfl, setWidth_add 24 _⟩, ⟨.fvalLo, rfl, rfl⟩,
      ⟨.fvalHi, rfl, rfl⟩, ⟨.vbuf0, rfl, rfl⟩, ⟨.vbuf1, rfl, rfl⟩, ⟨.vbuf2, rfl, rfl⟩, ⟨.vbuf3, rfl, rfl⟩,
      fun _ h => absurd h List.not_mem_nil⟩
  have hwrites : ∀ p ∈ writes, ∃ r, locate p.1 = .reg r ∧ s.writeReg d r = p.2 := by
    simp only [writes, List.forall_mem_cons]
    exact ⟨⟨.id, rfl, rfl⟩, ⟨.cfg, rfl, rfl⟩, ⟨.eid, rfl, rfl⟩, ⟨.pip, rfl, rfl⟩, ⟨.len, rfl, rfl⟩, ⟨.lfsr, rfl, rfl⟩,
      ⟨.crc, rfl, rfl⟩, ⟨.crcrx, rfl, rfl⟩, ⟨.manu, rfl, rfl⟩, ⟨.prod, rfl, rfl⟩, ⟨.sensor, rfl, rfl⟩,
      ⟨.nrec, rfl, rfl⟩, ⟨.vdesc, rfl, rfl⟩, ⟨.fvalLo, rfl, rfl⟩, ⟨.fvalHi, rfl, rfl⟩,
      ⟨.vbuf0, rfl, writeVbuf_zero d s⟩, ⟨.vbuf1, rfl, writeVbuf_one d s⟩,
      ⟨.vbuf2, rfl, writeVbuf_two d s⟩, ⟨.vbuf3, rfl, writeVbuf_three d s⟩, fun _ h => absurd h List.not_mem_nil⟩
  exact ⟨fun p hp => hostRead_at hrst hlatch (hreads p hp), fun p hp => hostWrite_at hrst hlatch (hwrites p hp)⟩

end Sys2Proof.Proofs
end

section
/-! What PARSE and DECODE make of a packet (R263 to R271, R285 to R288): the checksums, the records up to where the scan
stops, and the bytes they leave alone. Both run PARSE's core, so its result is said once, for the state the core starts
from. -/

namespace Sys2Proof.Proofs

open Sys2Proof.Machine Sys2Proof.Laws

variable {s t : State} {L : Nat} {rs : List WireRecord} {code : ErrCode} {nrec : Half}

/-! ## The checksums -/

/-- The received checksum is the packet's last two bytes, big-endian (R263). -/
theorem packetCrcRx_eq (hL : 2 ≤ L) : s.packetCrcRx L = s.pbuf (L - 2) ++ s.pbuf (L - 1) := by
  have hlast : L - 2 + 1 = L - 1 := by omega
  rw [State.packetCrcRx, pbufRead_succ, pbufRead_succ, pbufRead_zero, ofNat_beNat_two, hlast]

theorem parseCore_of_crc_differs (h : s.packetCrc L ≠ s.packetCrcRx L) :
    s.parseCore L = ((s.noteChecksums L).setNrec 0#16, .crcfail) := by
  rw [State.parseCore, if_neg h]
  rfl

theorem parseCore_of_crc_agrees (h : s.packetCrc L = s.packetCrcRx L) :
    s.parseCore L = State.scan L L 7 0 (s.noteChecksums L).readHeader := by
  rw [State.parseCore, if_pos h]

/-- Settles O29: PARSE's core notes both checksums on either path. -/
theorem parseChecksCrc : Obligations.ParseChecksCrc := by
  intro s hlen c rx
  obtain ⟨hmin, -⟩ := id hlen
  rw [Config.minPacket] at hmin
  have hrx : s.packetCrcRx s.len.toNat = rx := packetCrcRx_eq (by omega)
  have hc : s.packetCrc s.len.toNat = c := rfl
  refine ⟨⟨_, exec_parse_of_lengthOk hlen, ?_⟩, fun hne => ?_⟩
  · rw [parseCore_frame, hrx, hc]
    exact ⟨rfl, rfl, rfl⟩
  · have hdiffers : s.packetCrc s.len.toNat ≠ s.packetCrcRx s.len.toNat := by rwa [hrx, hc]
    rw [exec_parse_of_lengthOk hlen, parseCore_of_crc_differs hdiffers, ← hrx, ← hc]
    rfl

/-! ## The scan up to a record -/

/-- PBUF[0..L) has agreeing checksums and holds, from offset 7, the accepted records rs, with room for a terminator and
the checksum or another record after them. -/
structure ScanReaches (s : State) (L : Nat) (rs : List WireRecord) : Prop where
  lengthLe : L ≤ 4096
  crcAgrees : s.packetCrc L = s.packetCrcRx L
  bytes : s.pbufRead 7 (wireBytes rs).length = wireBytes rs
  room : 7 + (wireBytes rs).length + 2 ≤ L
  accepted : ∀ r ∈ rs, r.accepted = true

/-- The state the scan has made when it comes to the record after rs. -/
def scanned (L : Nat) (rs : List WireRecord) (s : State) : State :=
  writeEntries 0 (rs.map WireRecord.entry) (s.noteChecksums L).readHeader

theorem scanned_frame (L : Nat) (rs : List WireRecord) (s : State) :
    scanned L rs s =
      { s with
        crc := s.packetCrc L, crcRem := s.packetCrc L, crcrx := s.packetCrcRx L, manu := s.pbuf 0, prod := s.pbuf 1
        sensor := s.pbuf 4 ++ s.pbuf 5 ++ s.pbuf 6, mem := (scanned L rs s).mem } := by
  have hsensor : BitVec.ofNat 24 (beNat (s.pbufRead 4 3)) = s.pbuf 4 ++ s.pbuf 5 ++ s.pbuf 6 := ofNat_beNat_three _ _ _
  rw [scanned, writeEntries_frame, ← hsensor]
  rfl

theorem byteAt_scanned {x : Nat} (h : x < Config.recBase ∨ Config.recBase + 32 * rs.length ≤ x) :
    (scanned L rs s).byteAt x = s.byteAt x := by
  rw [scanned, byteAt_writeEntries_outside]
  · rfl
  · simpa [recAddr] using h

theorem pbuf_scanned {i : Nat} (h : i < 0xF000) : (scanned L rs s).pbuf i = s.pbuf i :=
  byteAt_scanned (.inl (by rw [Config.pbufBase, Config.recBase]; omega))

/-- RAW is padded already where the record is decoded (R241). -/
theorem pad_entry (r : WireRecord) :
    { r.entry with raw := (r.entry.raw ++ List.replicate 16 0x00#8).take 16 } = r.entry := by
  have hlen : r.entry.raw.length = 16 := by simp [WireRecord.entry]
  have hraw : (r.entry.raw ++ List.replicate 16 0x00#8).take 16 = r.entry.raw := by
    rw [← hlen, List.take_left]
  rw [hraw]

theorem recEntry_scanned {k : Nat} (h : k < rs.length) : (scanned L rs s).recEntry k = rs[k].entry := by
  have hentry := recEntry_writeEntries (k := 0) (es := rs.map WireRecord.entry) (j := k) (by simpa using h)
    (s.noteChecksums L).readHeader
  rw [Nat.zero_add, List.getElem_map, pad_entry] at hentry
  exact hentry

/-- The core runs the scan past the records, with turns left. -/
theorem parseCore_eq_scan (h : ScanReaches s L rs) :
    ∃ fuel, s.parseCore L = State.scan L (fuel + 1) (7 + (wireBytes rs).length) rs.length (scanned L rs s) := by
  have hturns := length_wireBytes_ge rs
  have hroom := h.room
  have hlength := h.lengthLe
  have hwire := scan_wire (L := L) (by omega) rs (L - rs.length) 7 0 (s.noteChecksums L).readHeader h.accepted h.bytes hroom
  rw [Nat.sub_add_cancel (by omega), Nat.zero_add] at hwire
  refine ⟨L - rs.length - 1, ?_⟩
  rw [parseCore_of_crc_agrees h.crcAgrees, hwire, Nat.sub_add_cancel (by omega), scanned]

/-- The scan stops at a zero paramId with OK (R270). -/
theorem parseCore_of_terminator (h : ScanReaches s L rs) (hzero : s.pbuf (7 + (wireBytes rs).length) = 0x00#8) :
    s.parseCore L =
      (((scanned L rs s).setCursor (7 + (wireBytes rs).length)).setNrec (BitVec.ofNat 16 rs.length), .ok) := by
  obtain ⟨fuel, hscan⟩ := parseCore_eq_scan h
  have hroom := h.room
  have hlength := h.lengthLe
  rw [hscan, scan_succ, if_pos]
  rwa [pbuf_scanned (by omega)]

/-- The scan stops with SHORT at a record that does not fit, or that carries a number of no bytes (R267, R268, R234). -/
theorem parseCore_of_short (h : ScanReaches s L rs) (hnonzero : s.pbuf (7 + (wireBytes rs).length) ≠ 0x00#8)
    (hfails : L < 7 + (wireBytes rs).length + 4
      ∨ L < 7 + (wireBytes rs).length + 2 + dlen (s.pbuf (7 + (wireBytes rs).length + 1)) + 2
      ∨ (s.pbuf (7 + (wireBytes rs).length) = Config.idTemperature
          ∨ s.pbuf (7 + (wireBytes rs).length) = Config.idVoltage)
        ∧ dlen (s.pbuf (7 + (wireBytes rs).length + 1)) = 0) :
    s.parseCore L = (((scanned L rs s).setCursor (7 + (wireBytes rs).length)).setNrec 0#16, .short) := by
  obtain ⟨fuel, hscan⟩ := parseCore_eq_scan h
  have hroom := h.room
  have hlength := h.lengthLe
  rw [hscan, scan_succ, pbuf_scanned (by omega), pbuf_scanned (by omega), if_neg hnonzero]
  split_ifs with hspace hempty
  · rfl
  · rfl
  · exact absurd (hfails.imp_right fun h => h.resolve_right hempty) fun h =>
      h.elim (fun h => hspace (.inl h)) fun h => hspace (.inr h)

/-! ## The result of PARSE's core -/

/-- What PARSE's core, started at s, and the completion after it leave: the registers, the entries of the records and the
bytes outside them. -/
structure ParsedAs (s t : State) (L : Nat) (rs : List WireRecord) (nrec : Half) (code : ErrCode) : Prop where
  state : t =
    { s with
      mem := t.mem, crc := s.packetCrc L, crcRem := s.packetCrc L, crcrx := s.packetCrc L
      manu := s.pbuf 0, prod := s.pbuf 1, sensor := s.pbuf 4 ++ s.pbuf 5 ++ s.pbuf 6
      nrec := nrec, cursor := 7 + (wireBytes rs).length, err := code, latch := none, done := true }
  entries : ∀ k (h : k < rs.length), t.recEntry k = rs[k].entry
  bytes : ∀ x, x < Config.recBase ∨ Config.recBase + 32 * rs.length ≤ x → t.byteAt x = s.byteAt x

/-- However the scan ends, the state it has made stands, with the cursor and NREC it ends with. -/
theorem parsedAs_of_parseCore (hcrc : s.packetCrc L = s.packetCrcRx L)
    (h : s.parseCore L = (((scanned L rs s).setCursor (7 + (wireBytes rs).length)).setNrec nrec, code)) :
    ParsedAs s ((s.parseCore L).1.complete (s.parseCore L).2) L rs nrec code where
  state := by
    rw [h, scanned_frame, ← hcrc]
    rfl
  entries := fun k hk => by
    rw [h, complete_recEntry, setNrec_recEntry, setCursor_recEntry, recEntry_scanned hk]
  bytes := fun x hx => by
    rw [h, complete_byteAt, setNrec_byteAt, setCursor_byteAt, byteAt_scanned hx]

/-- A packet that ends its records with a zero paramId. -/
theorem parsedAs_of_holdsRecords (hlength : L ≤ 4096) (hcrc : s.packetCrc L = s.packetCrcRx L)
    (h : s.holdsRecords L rs) :
    ParsedAs s ((s.parseCore L).1.complete (s.parseCore L).2) L rs (BitVec.ofNat 16 rs.length) .ok := by
  obtain ⟨hbytes, hroom, haccepted⟩ := h
  rw [pbufRead_append] at hbytes
  obtain ⟨hrecords, hend⟩ := List.append_inj hbytes (pbufRead_length ..)
  have hzero : s.pbuf (7 + (wireBytes rs).length) = 0x00#8 := (List.cons.inj hend).1
  exact parsedAs_of_parseCore hcrc (parseCore_of_terminator ⟨hlength, hcrc, hrecords, hroom, haccepted⟩ hzero)

/-! ## PARSE -/

/-- A packet within PBUF has at most MAX_RECORDS records (R12). -/
theorem length_le_maxRecords (h : 7 + (wireBytes rs).length + 2 ≤ s.bufBytes) : rs.length ≤ s.maxRecords := by
  have hbytes := length_wireBytes_ge rs
  rw [State.maxRecords, Config.maxRecords]
  omega

/-- Settles O30: the scan goes over the records and stops at the zero paramId. -/
theorem parseReadsRecords : Obligations.ParseReadsRecords := by
  intro s rs hbuf hlen hcrc hholds
  obtain ⟨-, hfit⟩ := id hlen
  obtain ⟨-, hroom, -⟩ := id hholds
  have hparsed := parsedAs_of_holdsRecords (hfit.trans hbuf) hcrc hholds
  have hrecords : rs.length ≤ s.maxRecords := length_le_maxRecords (hroom.trans hfit)
  have hmax : s.maxRecords < 2 ^ 16 := by
    rw [State.maxRecords, Config.maxRecords]
    omega
  refine ⟨_, exec_parse_of_lengthOk hlen, hparsed.state, ?_, hrecords, hparsed.entries, hparsed.bytes⟩
  rw [hparsed.state, BitVec.toNat_ofNat, Nat.mod_eq_of_lt (hrecords.trans_lt hmax)]

/-- Settles O31: the scan goes over the records and stops at the failing one, whichever test it fails. -/
theorem parseShortKeepsEarlierRecords : Obligations.ParseShortKeepsEarlierRecords := by
  intro s rs hbuf hlen hcrc cur p n hbytes hroom haccepted hnonzero hfails
  obtain ⟨-, hfit⟩ := id hlen
  have hn : dlen (s.pbuf (cur + 1)) = n := dlen_eq _
  have hshort := parseCore_of_short ⟨hfit.trans hbuf, hcrc, hbytes, hroom, haccepted⟩ hnonzero (by
    rw [← hn] at hfails
    rcases hfails with hspace | hvalue | hempty
    · exact .inl (by omega)
    · exact .inr (.inl hvalue)
    · exact .inr (.inr hempty))
  have hparsed := parsedAs_of_parseCore hcrc hshort
  exact ⟨_, exec_parse_of_lengthOk hlen, hparsed.state, hparsed.entries, hparsed.bytes⟩

/-! ## DECODE -/

/-- DECODE's first phase as a whole next state (R286). -/
theorem decrypt_eq (L : Nat) (s : State) :
    s.decrypt L =
      { s with
        pip := s.pbuf 2 ++ s.pbuf 3
        lfsr := ksRound^[5 * (L - 4)] ((s.eid.setWidth 16 <<< 8) ^^^ (s.pbuf 2 ++ s.pbuf 3))
        keystream := ksRound^[5 * (L - 4)] ((s.eid.setWidth 16 <<< 8) ^^^ (s.pbuf 2 ++ s.pbuf 3))
        mem := (s.decrypt L).mem } := by
  rw [State.decrypt, ksApply_frame, packetPip_eq]
  rfl

theorem pbuf_decrypt_header {i : Nat} (h : i < 4) : (s.decrypt L).pbuf i = s.pbuf i :=
  byteAt_decrypt_outside (.inl (by omega))

/-- Settles O33: the core parses the deciphered packet. -/
theorem decodeReadsRecords : Obligations.DecodeReadsRecords := by
  intro s d rs hbuf hlen hd hcrc hholds
  obtain ⟨hmin, hfit⟩ := id hlen
  rw [Config.minPacket] at hmin
  have hparsed := parsedAs_of_holdsRecords (hfit.trans hbuf) hcrc hholds
  have hexec := exec_decode_of_lengthOk hlen
  rw [← hd] at hexec
  refine ⟨_, hexec, hparsed.state.trans ?state, hparsed.entries, hparsed.bytes, fun x hx => ?outside⟩
  case state =>
    have hmanu : d.pbuf 0 = s.pbuf 0 := by rw [hd, pbuf_decrypt_header (by decide)]
    have hprod : d.pbuf 1 = s.pbuf 1 := by rw [hd, pbuf_decrypt_header (by decide)]
    have hframe := decrypt_eq s.len.toNat s
    rw [← hd] at hframe
    rw [hmanu, hprod]
    generalize d.packetCrc s.len.toNat = crc
    generalize d.pbuf 4 ++ d.pbuf 5 ++ d.pbuf 6 = sensor
    generalize ((d.parseCore s.len.toNat).1.complete (d.parseCore s.len.toNat).2).mem = mem
    rw [hframe]
  case outside => rw [hd, byteAt_decrypt_outside (by omega)]

/-- Settles O34: the core leaves PBUF, PIP and LFSR as the decipherment left them, however it ends. -/
theorem decodeLeavesPlaintext : Obligations.DecodeLeavesPlaintext := by
  intro s t hbuf hlen hexec
  obtain ⟨hmin, hfit⟩ := id hlen
  rw [Config.minPacket] at hmin
  obtain rfl := Host.Outcome.next.inj (hexec.symm.trans (exec_decode_of_lengthOk hlen))
  have hpbuf : ∀ x < s.bufBytes, (((s.decrypt s.len.toNat).parseCore s.len.toNat).1.complete
      ((s.decrypt s.len.toNat).parseCore s.len.toNat).2).pbuf x = (s.decrypt s.len.toNat).pbuf x := fun x hx =>
    byteAt_parseCore_outside (s := s) (by omega) hfit (.inl (by rw [Config.pbufBase, Config.recBase]; omega))
  have hpip : (((s.decrypt s.len.toNat).parseCore s.len.toNat).1.complete
      ((s.decrypt s.len.toNat).parseCore s.len.toNat).2).pip = s.pbuf 2 ++ s.pbuf 3 := by
    rw [complete_pip, parseCore_frame, decrypt_eq]
  rw [hpip]
  refine ⟨rfl, ?lfsr, fun j hj => ?deciphered, fun x hx hout => ?outside⟩
  case lfsr => rw [complete_lfsr, parseCore_frame, decrypt_eq]
  case deciphered =>
    rw [hpbuf _ (by omega), State.decrypt, pbuf_ksApply hj, packetPip_eq]
    rfl
  case outside =>
    rw [hpbuf x hx]
    exact byteAt_decrypt_outside (by omega)

end Sys2Proof.Proofs
end

section
/-! The packet BUILD writes, and its way back (R278, R280, R292): PBUF holds the header, the wire form of each record, a
zero paramId and the checksum, so whatever state holds those bytes parses to the Message they came from. -/

namespace Sys2Proof.Proofs

open Sys2Proof.Machine Sys2Proof.Laws

variable {s b : State} {i n k : Nat} {e : Entry} {tfmt vfmt : Byte}

/-! ## BUILD -/

/-- The records of the packet, in order (R278). -/
def recordBytes (s : State) : List Byte :=
  ((List.range s.nrec.toNat).map (fun k => ((s.recEntry k).encoded s.tfmt s.vfmt).1)).flatten

theorem packetBody_eq (s : State) : s.packetBody = s.headerBytes ++ recordBytes s ++ [0x00#8] := by
  rw [State.packetBody, State.messageRecords, List.map_map]
  rfl

theorem packetBody_length (s : State) : s.packetBody.length + 2 = s.packetLength := by
  rw [← packetBytes_length, State.packetBytes, List.length_append]
  rfl

theorem headerBytes_length (s : State) : s.headerBytes.length = 7 := rfl

theorem recordBytes_length (s : State) : (recordBytes s).length + 10 = s.packetLength := by
  rw [← packetBody_length, packetBody_eq, List.length_append, List.length_append]
  simp only [State.headerBytes, List.length_cons, List.length_nil]
  omega

theorem packetSat_eq (s : State) :
    s.packetSat = (List.range s.nrec.toNat).any (fun k => ((s.recEntry k).encoded s.tfmt s.vfmt).2) := by
  rw [State.packetSat, State.messageRecords, List.any_map]
  rfl

/-- The built packet reads back from PBUF. -/
theorem pbufRead_buildCore (s : State) : s.buildCore.pbufRead 0 s.packetLength = s.packetBytes := by
  have hread := pbufRead_pbufWrite s 0 s.packetBytes
  rw [packetBytes_length] at hread
  rw [← hread]
  exact pbufRead_congr fun j _ => byteAt_buildCore s _

/-- A run inside an initial run of PBUF whose bytes are known. -/
theorem pbufRead_of_known {bs : List Byte} (h : b.pbufRead 0 n = bs) (hfit : i + k ≤ n) :
    b.pbufRead i k = (bs.drop i).take k := by
  have hsplit : b.pbufRead 0 n = b.pbufRead 0 i ++ (b.pbufRead i k ++ b.pbufRead (i + k) (n - (i + k))) := by
    conv_lhs => rw [show n = i + (k + (n - (i + k))) by omega, pbufRead_append, pbufRead_append]
    rw [Nat.zero_add]
  rw [← h, hsplit, List.drop_left' (pbufRead_length ..), List.take_left' (pbufRead_length ..)]

/-- PBUF[4..n-2) of a packet is what its checksum covers (R278, R283). -/
theorem pbufRead_checked (h : b.pbufRead 0 s.packetLength = s.packetBytes) :
    b.pbufRead 4 (s.packetLength - 6) = s.packetBody.drop 4 := by
  have hbody := packetBody_length s
  have hrecords := recordBytes_length s
  have hlen : (s.packetBody.drop 4).length = s.packetLength - 6 := by
    rw [List.length_drop]
    omega
  rw [pbufRead_of_known h (by omega), State.packetBytes, List.drop_append_of_le_length (by omega),
    List.take_left' hlen]

/-- Settles O37: the bytes written read back, and the checksum is the one of those bytes. -/
theorem buildWritesPacket : Obligations.BuildWritesPacket := by
  intro s hbuf hvalid hfit
  have hread : (s.buildCore.complete .ok).pbufRead 0 s.packetLength = s.packetBytes := pbufRead_buildCore s
  have hcrc : crc16 ((s.buildCore.complete .ok).pbufRead 4 (s.packetLength - 6)) = s.bodyCrc :=
    congrArg crc16 (pbufRead_checked hread)
  refine ⟨_, exec_build_of_fits hvalid hfit, ?state, ?len, ?packet, fun x hx => ?bytes⟩
  case state =>
    rw [hcrc, ← packetSat_eq, buildCore_frame, packetBytes_length]
    rfl
  case len =>
    rw [complete_len, buildCore_frame, packetBytes_length]
    exact Nat.mod_eq_of_lt (by omega)
  case packet =>
    have hbodyCrc : (s.buildCore.complete .ok).crc = s.bodyCrc := by rw [complete_crc, buildCore_frame]
    rw [hread, hbodyCrc, State.packetBytes, packetBody_eq, List.append_assoc _ [0x00#8]]
    rfl
  case bytes => rw [complete_byteAt, byteAt_buildCore, byteAt_pbufWrite_outside (by rwa [packetBytes_length, Nat.add_zero])]

/-! ## The wire form of a record -/

/-- The record field an entry of a variant encodes to (R242). -/
def wireOf (tfmt vfmt : Byte) (e : Entry) : Kind → WireRecord
  | .join => ⟨Config.idJoin, 0x00#8, []⟩
  | .identify => ⟨Config.idIdentify, 0x00#8, []⟩
  | .temperature => ⟨Config.idTemperature, tfmt, (enc tfmt e.fval).1⟩
  | .voltage => ⟨Config.idVoltage, vfmt, (enc vfmt e.fval).1⟩
  | .unhandled => ⟨e.pid, e.tdesc, e.raw.take (dlen e.tdesc)⟩

/-- The record field an entry encodes to; a reserved KIND has none, and an empty one stands there. -/
def wireRecord (tfmt vfmt : Byte) (e : Entry) : WireRecord :=
  ((kindOf e.kind).map (wireOf tfmt vfmt e)).getD ⟨0x00#8, 0x00#8, []⟩

theorem wireRecord_of_kind {v : Kind} (h : e.kind = v.bits) : wireRecord tfmt vfmt e = wireOf tfmt vfmt e v := by
  rw [wireRecord, h, kindOf_bits]
  rfl

/-- What is asked of an entry to come back as sent: BUILD does not refuse it, its Unhandled PID is no known id, and it was
read from RECTAB. -/
structure Returns (e : Entry) : Prop where
  valid : e.valid = true
  keepsKind : e.keepsKind
  rawLength : e.raw.length = 16

/-- A valid entry's KIND is a variant's (R230, R244). -/
theorem Returns.exists_kind (h : Returns e) : ∃ v : Kind, e.kind = v.bits := by
  have hall : ∀ f : BitVec 3, f = 5#3 ∨ f = 6#3 ∨ f = 7#3 ∨ f = Kind.bits .join ∨ f = Kind.bits .identify
      ∨ f = Kind.bits .temperature ∨ f = Kind.bits .voltage ∨ f = Kind.bits .unhandled := by decide
  have hrefused : ¬ e.refused := by
    rw [← valid_eq_false_iff_refused, h.valid]
    decide
  rw [Entry.refused] at hrefused
  rcases hall e.kind with hk | hk | hk | hk | hk | hk | hk | hk
  · exact absurd (.inl hk) hrefused
  · exact absurd (.inr (.inl hk)) hrefused
  · exact absurd (.inr (.inr (.inl hk))) hrefused
  all_goals exact ⟨_, hk⟩

theorem Returns.pid_ne (h : Returns e) (hkind : e.kind = Kind.bits .unhandled) : e.pid ≠ 0x00#8 := by
  have hvalid := h.valid
  rw [Entry.valid, hkind, kindOf_bits] at hvalid
  exact bne_iff_ne.mp hvalid

theorem encoded_eq_wireRecord (h : Returns e) : (e.encoded tfmt vfmt).1 = (wireRecord tfmt vfmt e).bytes := by
  obtain ⟨v, hkind⟩ := h.exists_kind
  rw [wireRecord_of_kind hkind, Entry.encoded, hkind, kindOf_bits]
  cases v <;> rfl

/-- The scan's test of a record, read as three conditions (R123, R234, R266). -/
theorem accepted_iff (r : WireRecord) :
    r.accepted = true ↔
      r.pid ≠ 0x00#8 ∧ r.val.length = dlen r.tdesc
        ∧ (r.pid = Config.idTemperature ∨ r.pid = Config.idVoltage → r.val ≠ []) := by
  simp only [WireRecord.accepted, Bool.and_eq_true, bne_iff_ne, beq_iff_eq, Bool.not_eq_true', Bool.and_eq_false_imp,
    Bool.or_eq_true, List.isEmpty_eq_false_iff, and_assoc]

theorem enc_ne_nil {td : Byte} (h : legalFormat td = true) (x : Float64Bits) : (enc td x).1 ≠ [] := by
  intro hnil
  have hlen := enc_length td x
  have hpos := ((legalFormat_iff td).mp h).1
  rw [hnil, dlen_eq, List.length_nil] at hlen
  omega

/-- The value bytes of an Unhandled entry are as many as its TDESC says. -/
theorem Returns.value_length (h : Returns e) : (e.raw.take (dlen e.tdesc)).length = dlen e.tdesc := by
  have hlen := dlen_le e.tdesc
  rw [List.length_take, h.rawLength]
  omega

/-- The scan accepts what BUILD writes: its formats have values, and its Unhandled entries no known id. -/
theorem accepted_wireRecord (ht : legalFormat tfmt = true) (hv : legalFormat vfmt = true) (h : Returns e) :
    (wireRecord tfmt vfmt e).accepted = true := by
  obtain ⟨v, hkind⟩ := h.exists_kind
  rw [wireRecord_of_kind hkind]
  cases v with
  | join => exact (by decide : WireRecord.accepted ⟨Config.idJoin, 0x00#8, []⟩ = true)
  | identify => exact (by decide : WireRecord.accepted ⟨Config.idIdentify, 0x00#8, []⟩ = true)
  | temperature =>
    have hid : Config.idTemperature ≠ 0x00#8 := by decide
    exact (accepted_iff _).mpr ⟨hid, enc_length _ _, fun _ => enc_ne_nil ht _⟩
  | voltage =>
    have hid : Config.idVoltage ≠ 0x00#8 := by decide
    exact (accepted_iff _).mpr ⟨hid, enc_length _ _, fun _ => enc_ne_nil hv _⟩
  | unhandled =>
    obtain ⟨-, -, htemp, hvolt⟩ := h.keepsKind hkind
    exact (accepted_iff _).mpr ⟨h.pid_ne hkind, h.value_length, fun hpid => (hpid.elim htemp hvolt).elim⟩

/-- A Temperature or Voltage carries the number its value decodes to (R241). -/
theorem entry_fval_of_number {r : WireRecord} (h : r.pid = Config.idTemperature ∨ r.pid = Config.idVoltage) :
    r.entry.fval = dec r.tdesc r.val := if_pos h

/-- Decoding the wire form gives the entry back (R292): its KIND, and what that KIND carries. -/
theorem comesBackAs_wireRecord (h : Returns e) : e.comesBackAs tfmt vfmt (wireRecord tfmt vfmt e).entry := by
  obtain ⟨v, hkind⟩ := h.exists_kind
  rw [wireRecord_of_kind hkind]
  have hother : ∀ {f : BitVec 3} {p : Prop}, v.bits ≠ f → e.kind = f → p := fun hne hf =>
    absurd (hkind.symm.trans hf) hne
  cases v with
  | join | identify => exact ⟨hkind.symm, hother (by decide), hother (by decide), hother (by decide)⟩
  | temperature => exact ⟨hkind.symm, hother (by decide), fun _ => entry_fval_of_number (.inl rfl), hother (by decide)⟩
  | voltage => exact ⟨hkind.symm, hother (by decide), hother (by decide), fun _ => entry_fval_of_number (.inr rfl)⟩
  | unhandled =>
    obtain ⟨hjoin, hidentify, htemp, hvolt⟩ := h.keepsKind hkind
    have hpid : kindOfPid e.pid = .unhandled := kindOfPid_unknown hjoin hidentify htemp hvolt
    exact ⟨(congrArg Kind.bits hpid).trans hkind.symm, fun _ => ⟨rfl, rfl, take_raw h.value_length⟩,
      hother (by decide), hother (by decide)⟩

/-! ## A state that holds the packet -/

/-- The records of the Message on the wire. -/
def wireRecords (s : State) : List WireRecord :=
  (List.range s.nrec.toNat).map fun k => wireRecord s.tfmt s.vfmt (s.recEntry k)

/-- The Message of s is valid, comes back as sent, and fits (the hypotheses of R292). -/
structure Sendable (s : State) : Prop where
  tfmtLegal : legalFormat s.tfmt = true
  vfmtLegal : legalFormat s.vfmt = true
  returns : ∀ k < s.nrec.toNat, Returns (s.recEntry k)
  lengthLe : s.packetLength ≤ 4096

theorem sendable_of_inv (hinv : s.Inv) (hvalid : s.messageValid) (hfit : s.packetLength ≤ s.bufBytes)
    (hkeeps : ∀ k < s.nrec.toNat, (s.recEntry k).keepsKind) : Sendable s where
  tfmtLegal := hinv.tfmtLegal
  vfmtLegal := hinv.vfmtLegal
  returns := fun k hk => by
    obtain ⟨-, hentries⟩ := hvalid
    refine ⟨?_, hkeeps k hk, recEntry_raw_length s k⟩
    have := hentries k hk
    rwa [← valid_eq_false_iff_refused, Bool.not_eq_false] at this
  lengthLe := hfit.trans hinv.bufRange.2

theorem recordBytes_eq_wireBytes (h : Sendable s) : recordBytes s = wireBytes (wireRecords s) := by
  rw [recordBytes, wireBytes, wireRecords, List.map_map]
  congr 1
  exact List.map_congr_left fun k hk => encoded_eq_wireRecord (h.returns k (List.mem_range.mp hk))

theorem hiByte_append_loByte (h : Half) : hiByte h ++ loByte h = h := by
  refine BitVec.eq_of_getLsbD_eq fun i hi => ?_
  simp only [hiByte, loByte, BitVec.getLsbD_append, BitVec.getLsbD_extractLsb']
  by_cases hlow : i < 8
  · simp [hlow]
  · simp [hlow, show i - 8 < 8 by omega, show 8 + (i - 8) = i by omega]

theorem append_sensorBytes (x : BitVec 24) : x.extractLsb' 16 8 ++ x.extractLsb' 8 8 ++ x.extractLsb' 0 8 = x := by
  refine BitVec.eq_of_getLsbD_eq fun i hi => ?_
  simp only [BitVec.getLsbD_append, BitVec.getLsbD_extractLsb']
  by_cases hlow : i < 8
  · simp [hlow]
  by_cases hmid : i < 16
  · simp [hlow, show i - 8 < 8 by omega, show 8 + (i - 8) = i by omega]
  · simp [hlow, show ¬ i - 8 < 8 by omega, show i - 8 - 8 < 8 by omega, show 16 + (i - 8 - 8) = i by omega]

section HoldsPacket

variable (hb : b.pbufRead 0 s.packetLength = s.packetBytes)
include hb

/-- The header's registers read back (R264, R286). -/
theorem header_of_packet :
    b.pbuf 0 = s.manu ∧ b.pbuf 1 = s.prod ∧ b.pbuf 2 ++ b.pbuf 3 = s.pip
      ∧ b.pbuf 4 ++ b.pbuf 5 ++ b.pbuf 6 = s.sensor := by
  have hrecords := recordBytes_length s
  have hheader : b.pbufRead 0 7 = s.headerBytes := by
    rw [pbufRead_of_known hb (by omega), List.drop_zero, State.packetBytes, packetBody_eq, List.append_assoc,
      List.append_assoc, List.take_left' (headerBytes_length s)]
  simp only [pbufRead_succ, pbufRead_zero, State.headerBytes, List.cons.injEq] at hheader
  obtain ⟨h0, h1, h2, h3, h4, h5, h6, -⟩ := hheader
  have h4' : b.pbuf 4 = s.sensor.extractLsb' 16 8 := h4
  have h5' : b.pbuf 5 = s.sensor.extractLsb' 8 8 := h5
  have h6' : b.pbuf 6 = s.sensor.extractLsb' 0 8 := h6
  exact ⟨h0, h1, by rw [← hiByte_append_loByte s.pip, ← h2, ← h3], by rw [h4', h5', h6', append_sensorBytes]⟩

/-- The packet's checksums agree (R278, R263). -/
theorem crc_of_packet : b.packetCrc s.packetLength = b.packetCrcRx s.packetLength := by
  have hbody := packetBody_length s
  have hlast : b.pbufRead (s.packetLength - 2) 2 = [hiByte s.bodyCrc, loByte s.bodyCrc] := by
    rw [pbufRead_of_known hb (by omega), State.packetBytes, List.drop_left' (by omega)]
    rfl
  rw [State.packetCrc, pbufRead_checked hb, State.packetCrcRx, hlast, ofNat_beNat_two, hiByte_append_loByte]
  rfl

/-- The scan finds the records. -/
theorem holdsRecords_of_packet (h : Sendable s) : b.holdsRecords s.packetLength (wireRecords s) := by
  have hrecords := recordBytes_length s
  rw [State.holdsRecords, ← recordBytes_eq_wireBytes h]
  refine ⟨?_, by omega, fun r hr => ?_⟩
  · have hlen : (recordBytes s ++ [0x00#8]).length = (recordBytes s).length + 1 := List.length_append
    rw [pbufRead_of_known hb (by omega), State.packetBytes, packetBody_eq, List.append_assoc, List.append_assoc,
      List.drop_left' (headerBytes_length s), ← List.append_assoc, List.take_left' hlen]
  · obtain ⟨k, hk, rfl⟩ := List.mem_map.mp hr
    exact accepted_wireRecord h.tfmtLegal h.vfmtLegal (h.returns k (List.mem_range.mp hk))

/-- PARSE's core on such a state gives the Message back (R292). -/
theorem message_of_packet (h : Sendable s) :
    let u := (b.parseCore s.packetLength).1.complete (b.parseCore s.packetLength).2
    u.err = .ok ∧ u.manu = s.manu ∧ u.prod = s.prod ∧ u.sensor = s.sensor ∧ u.nrec = s.nrec ∧ u.pip = b.pip
      ∧ ∀ k < s.nrec.toNat, (s.recEntry k).comesBackAs s.tfmt s.vfmt (u.recEntry k) := by
  intro u
  obtain ⟨hmanu, hprod, -, hsensor⟩ := header_of_packet hb
  have hcount : (wireRecords s).length = s.nrec.toNat := by rw [wireRecords, List.length_map, List.length_range]
  have hparsed := parsedAs_of_holdsRecords h.lengthLe (crc_of_packet hb) (holdsRecords_of_packet hb h)
  have hnrec : BitVec.ofNat 16 (wireRecords s).length = s.nrec := by rw [hcount, BitVec.ofNat_toNat, BitVec.setWidth_eq]
  have hstate := hparsed.state
  rw [hmanu, hprod, hsensor, hnrec] at hstate
  refine ⟨(congrArg State.err hstate :), (congrArg State.manu hstate :), (congrArg State.prod hstate :),
    (congrArg State.sensor hstate :), (congrArg State.nrec hstate :), (congrArg State.pip hstate :), fun k hk => ?_⟩
  have hentry := hparsed.entries k (hcount ▸ hk)
  simp only [wireRecords, List.getElem_map, List.getElem_range] at hentry
  rw [hentry]
  exact comesBackAs_wireRecord (h.returns k hk)

end HoldsPacket

/-! ## The round trips -/

/-- LEN is the packet's length after BUILD (R280). -/
theorem buildCore_len (h : Sendable s) : s.buildCore.len.toNat = s.packetLength := by
  have hle := h.lengthLe
  rw [buildCore_frame, packetBytes_length]
  exact Nat.mod_eq_of_lt (by omega)

/-- The length checks pass on a built packet. -/
theorem minPacket_le_packetLength (s : State) : Config.minPacket ≤ s.packetLength := by
  have hrecords := recordBytes_length s
  rw [Config.minPacket]
  omega

/-- Settles O39: BUILD leaves the packet in PBUF, and PARSE reads the Message out of it. -/
theorem buildThenParseRestoresMessage : Obligations.BuildThenParseRestoresMessage := by
  intro s hinv hvalid hfit hkeeps
  have hsend := sendable_of_inv hinv hvalid hfit hkeeps
  have hpacket : (s.buildCore.complete .ok).pbufRead 0 s.packetLength = s.packetBytes := pbufRead_buildCore s
  have hlen : (s.buildCore.complete .ok).len.toNat = s.packetLength := buildCore_len hsend
  have hok : (s.buildCore.complete .ok).lengthOk := by
    rw [State.lengthOk, hlen, complete_bufBytes, buildCore_bufBytes]
    exact ⟨minPacket_le_packetLength s, hfit⟩
  have hparse := exec_parse_of_lengthOk hok
  rw [hlen] at hparse
  obtain ⟨herr, hmanu, hprod, hsensor, hnrec, -, hentries⟩ := message_of_packet hpacket hsend
  exact ⟨_, _, exec_build_of_fits hvalid hfit, hparse, herr, hmanu, hprod, hsensor, hnrec, hentries⟩

/-- ks_apply combines the bytes it finds, wherever they came from. -/
theorem byteAt_ksApply_congr {t u : State} (h : ∀ x, t.byteAt x = u.byteAt x) (seed : Half) (a n x : Nat) :
    (t.ksApply seed a n).byteAt x = (u.ksApply seed a n).byteAt x := by
  by_cases hx : x < Config.pbufBase + a ∨ Config.pbufBase + a + n ≤ x
  · rw [byteAt_ksApply_outside hx, byteAt_ksApply_outside hx, h]
  · obtain ⟨j, hj, rfl⟩ : ∃ j < n, x = Config.pbufBase + (a + j) := ⟨x - (Config.pbufBase + a), by omega, by omega⟩
    have hbyte : t.pbuf (a + j) = u.pbuf (a + j) := h _
    exact (pbuf_ksApply hj).trans (hbyte ▸ (pbuf_ksApply hj).symm)

/-- Deciphering takes back the encipherment: the pip stands in the clear before offset 4, so both have one seed (R151,
R286, R290). -/
theorem byteAt_decrypt_encrypt (h : Sendable s) (x : Nat) :
    ((s.buildCore.encrypt.complete .ok).decrypt s.packetLength).byteAt x = s.buildCore.byteAt x := by
  obtain ⟨-, -, hpip, -⟩ := header_of_packet (pbufRead_buildCore s)
  have hclear : ∀ i < 4, (s.buildCore.encrypt.complete .ok).pbuf i = s.buildCore.pbuf i := fun i hi =>
    byteAt_encrypt_outside (.inl (by omega))
  have hpip' : (s.buildCore.encrypt.complete .ok).packetPip = s.pip := by
    rw [packetPip_eq, hclear 2 (by decide), hclear 3 (by decide), hpip]
  have heid : (s.buildCore.encrypt.complete .ok).eid = s.eid := by rw [complete_eid, encrypt_frame, buildCore_frame]
  have hencrypt : s.buildCore.encrypt = s.buildCore.ksApply (cipherSeed s.eid s.pip) 4 (s.packetLength - 4) := by
    have heid : s.buildCore.eid = s.eid := by rw [buildCore_frame]
    have hpip : s.buildCore.pip = s.pip := by rw [buildCore_frame]
    rw [State.encrypt, buildCore_len h, heid, hpip]
  have hbytes : ∀ x, ((s.buildCore.encrypt.complete .ok).setPip s.pip).byteAt x =
      (s.buildCore.ksApply (cipherSeed s.eid s.pip) 4 (s.packetLength - 4)).byteAt x := fun x => by
    rw [setPip_byteAt, complete_byteAt, hencrypt]
  rw [State.decrypt, hpip', heid, byteAt_ksApply_congr hbytes, byteAt_ksApply_twice]

/-- Settles O40: DECODE's first phase gives BUILD's packet back, and its core reads the Message out of it. -/
theorem encodeThenDecodeRestoresMessage : Obligations.EncodeThenDecodeRestoresMessage := by
  intro s hinv hvalid hfit hkeeps
  have hsend := sendable_of_inv hinv hvalid hfit hkeeps
  have hpacket : ((s.buildCore.encrypt.complete .ok).decrypt s.packetLength).pbufRead 0 s.packetLength =
      s.packetBytes := by
    rw [← pbufRead_buildCore]
    exact pbufRead_congr fun j _ => byteAt_decrypt_encrypt hsend _
  have hlen : (s.buildCore.encrypt.complete .ok).len.toNat = s.packetLength := by
    rw [complete_len, encrypt_frame]
    exact buildCore_len hsend
  have hbuf : (s.buildCore.encrypt.complete .ok).bufBytes = s.bufBytes := by
    rw [complete_bufBytes, encrypt_frame]
    exact buildCore_bufBytes s
  have hok : (s.buildCore.encrypt.complete .ok).lengthOk := by
    rw [State.lengthOk, hlen, hbuf]
    exact ⟨minPacket_le_packetLength s, hfit⟩
  have hdecode := exec_decode_of_lengthOk hok
  rw [hlen] at hdecode
  obtain ⟨herr, hmanu, hprod, hsensor, hnrec, hpip, hentries⟩ := message_of_packet hpacket hsend
  obtain ⟨-, -, hpacketPip, -⟩ := header_of_packet hpacket
  rw [pbuf_decrypt_header (by decide), pbuf_decrypt_header (by decide), ← packetPip_eq] at hpacketPip
  exact ⟨_, _, exec_encode_of_fits hvalid hfit, hdecode, herr, hmanu, hprod, hsensor, hnrec, hpip.trans hpacketPip,
    hentries⟩

end Sys2Proof.Proofs
end
